-- ==== Sys2Proof/Word.lean ====
section
/-! DEFINITION. The word types of the block (`00_scope.md` R10): unsigned words and the binary32 bit pattern. -/

namespace Sys2Proof

/-- `u16`: a transfer word (R7 `W_WORD`, R10). -/
abbrev U16 := BitVec 16

/-- `u32`: counters, counts per revolution, arguments and responses (R10). -/
abbrev U32 := BitVec 32

/-- `f32`: an IEEE 754 binary32 value held as its bit pattern, sign in bit 31 (R10, R83, R84). -/
abbrev F32 := BitVec 32

end Sys2Proof
end

