-- ==== Sys2Proof/Config.lean ====
section
/-! DEFINITION. The form of the configuration record `CFG` of `00_scope.md` R8 and the free values of the model.
Nothing here has a value a proof could use: the `opaque` constants have no body. The machine's own record, as opaque, is
`Config.legal` in `Machine/Params.lean`, beside the legal range it lies in. -/

namespace Sys2Proof

/-- `ANGLE_WRAP` (R8, R206): whether the angle the host reads lies in `[0, 360)` or in `[0, 360]`. -/
inductive AngleWrap where
  | halfOpen
  | closed
deriving DecidableEq, Repr

/-- The configuration record `CFG` (R8; `93_implementation_defined.md` part 2). `NUM` is not a field: the spec fixes it
(D1), and it is `Machine/Float.lean`. Waits are in cycles of `clk` and show only in the pin trace (R111, R300). -/
structure Cfg where
  /-- `ATAN2DEG` (R172): sine first, cosine second. -/
  atan2deg : F32 → F32 → F32
  /-- `ATAN_TOL`, the tolerance of property A3 (R172). -/
  atanTol : F32
  /-- `ERR_FILTER_K` (R231). -/
  errFilterK : F32
  /-- `ANGLE_WRAP` (R206). -/
  angleWrap : AngleWrap
  /-- `RES_RDVEL_BIT` (R89). -/
  resRdvelBit : Fin 4
  /-- `RES_DOS_BIT` (R89). -/
  resDosBit : Fin 4
  /-- `RES_LOT_BIT` (R89). -/
  resLotBit : Fin 4
  /-- `RES_RDVEL_OK` (R89). -/
  resRdvelOk : Bool
  /-- `RES_DOS_OK` (R89). -/
  resDosOk : Bool
  /-- `RES_LOT_OK` (R89). -/
  resLotOk : Bool
  /-- `T_CS_SETUP` (R111). -/
  tCsSetup : Nat
  /-- `T_SETTLE` (R111). -/
  tSettle : Nat
  /-- `T_POST` (R111). -/
  tPost : Nat
  /-- `T_LOW` (R111). -/
  tLow : Nat
  /-- `T_CS_HOLD` (R111). -/
  tCsHold : Nat
  /-- `T_RES_SAMPLE` (R151). -/
  tResSample : Nat
  /-- `T_DEBOUNCE` (R189). -/
  tDebounce : Nat
  /-- `N_WORDS_MAX` (R110, D31). -/
  nWordsMax : Nat

/-- The binary32 operations that can produce a NaN from operands that are none (R12). -/
inductive FloatOp where
  | add
  | sub
  | mul
  | div
deriving DecidableEq, Repr

/-- Free 32-bit values: `Config.freeWord n` is the `n`-th value the spec leaves open (U1, U3, U4; log 11, 12, 14) and
the `n`-th position count the environment gives beyond its script (R17 e; log 7). -/
opaque Config.freeWord : Nat → U32

/-- Free bits: the samples the environment gives beyond its script (R17 e; log 7). -/
opaque Config.freeBit : Nat → Bool

/-- The sign (bit 22) and payload (bits 21:0) of the NaN an operation returns; IEEE 754 does not fix them (log 10). -/
opaque Config.nanBits : FloatOp → F32 → F32 → BitVec 23

end Sys2Proof
end

