-- ==== Sys2Proof/Machine/Float.lean ====
section
/-! DEFINITION. The block's arithmetic: IEEE 754 binary32, round to nearest, ties to even, one rounding per operation,
denormals kept, no fused operation (`00_scope.md` R12, D1). A finite value is a whole number of units of `2^-149`, so each
operation computes its exact result as a ratio of integers and rounds it once. -/

namespace Sys2Proof.Machine

/-- `0.0 = f32:0x00000000` (R12). -/
def fZero : F32 := 0x00000000#32
/-- `1.0 = f32:0x3F800000` (R12). -/
def fOne : F32 := 0x3F800000#32
/-- `1.65 = f32:0x3FD33333` (R12). -/
def f165 : F32 := 0x3FD33333#32
/-- `360.0 = f32:0x43B40000` (R12). -/
def f360 : F32 := 0x43B40000#32
/-- `4096.0 = f32:0x45800000` (R12). -/
def f4096 : F32 := 0x45800000#32
/-- `16384.0 = f32:0x46800000` (R12). -/
def f16384 : F32 := 0x46800000#32

/-- The sign bit, bit 31 (R83). -/
def fSign (a : F32) : Bool := a.getLsbD 31
/-- The magnitude bits, bits 30:0. -/
def fMagBits (a : F32) : Nat := a.toNat % 2 ^ 31
/-- The exponent field, bits 30:23. -/
def fExp (a : F32) : Nat := fMagBits a / 2 ^ 23
/-- The fraction field, bits 22:0. -/
def fFrac (a : F32) : Nat := fMagBits a % 2 ^ 23

/-- Neither an infinity nor a NaN. -/
def isFinite (a : F32) : Bool := fExp a < 255
/-- A NaN. -/
def isNaN (a : F32) : Bool := fExp a == 255 && fFrac a != 0
/-- An infinity of either sign. -/
def isInf (a : F32) : Bool := fExp a == 255 && fFrac a == 0
/-- A zero of either sign. -/
def isZero (a : F32) : Bool := fMagBits a == 0

/-- The magnitude in units of `2^-149`. An infinity gets `2^277`, above every finite value. -/
def fMag (a : F32) : Nat :=
  if fExp a = 0 then fFrac a else (2 ^ 23 + fFrac a) * 2 ^ (fExp a - 1)

/-- The signed value in units of `2^-149`; both zeros give 0. -/
def fVal (a : F32) : Int := if fSign a then -(fMag a : Int) else fMag a

/-- The nearest integer to `p / d`, ties to even. -/
def roundHalfEven (p d : Nat) : Nat :=
  if 2 * (p % d) < d then p / d
  else if d < 2 * (p % d) then p / d + 1
  else p / d + p / d % 2

/-- The magnitude bits of an infinity. -/
def infBits : Nat := 0x7F800000

/-- The magnitude bits of the binary32 number nearest to `p / q` units of `2^-149`, ties to even; too large a value
gives the infinity (R12, R167). With `k` binary places dropped the kept significand `r` lies in `[2^23, 2^24]`, or below
when `k = 0`, so that `k * 2^23 + r` is the pattern in every case, the carry into the exponent included. -/
def roundMag (p q : Nat) : Nat :=
  let k := Nat.log2 (p / q) - 23
  min (k * 2 ^ 23 + roundHalfEven p (q * 2 ^ k)) infBits

/-- A sign and magnitude bits as a binary32 pattern. -/
def pack (neg : Bool) (mag : Nat) : F32 :=
  BitVec.ofNat 32 (if neg then 2 ^ 31 + mag else mag)

/-- The quiet NaN an operation returns, with the free sign and payload of `Config.nanBits` (log 10). -/
def nanResult (op : FloatOp) (a b : F32) : F32 :=
  let n := Config.nanBits op a b
  pack (n.getLsbD 22) (infBits + 2 ^ 22 + n.toNat % 2 ^ 22)

/-- Negation, exact (R12). -/
def fneg (a : F32) : F32 := a ^^^ 0x80000000#32

/-- A sum that is no NaN: infinities, then the exact sum of the finite operands rounded once. An exact sum of zero is
`-0.0` only when both operands are negative (IEEE 754, round to nearest). -/
def addNumbers (a b : F32) : F32 :=
  if isInf a then a
  else if isInf b then b
  else
    let v := fVal a + fVal b
    if v = 0 then pack (fSign a && fSign b) 0
    else pack (v < 0) (roundMag v.natAbs 1)

/-- `a` and `b` are infinities of opposite sign. -/
def oppositeInf (a b : F32) : Bool := isInf a && isInf b && fSign a != fSign b

/-- `fadd(a, b)` (R12). -/
def fadd (a b : F32) : F32 :=
  if isNaN a || isNaN b || oppositeInf a b then nanResult .add a b else addNumbers a b

/-- `fsub(a, b)` (R12). -/
def fsub (a b : F32) : F32 :=
  if isNaN a || isNaN b || oppositeInf a (fneg b) then nanResult .sub a b else addNumbers a (fneg b)

/-- `fmul(a, b)` (R12). -/
def fmul (a b : F32) : F32 :=
  let neg := fSign a != fSign b
  if isNaN a || isNaN b || (isInf a && isZero b) || (isZero a && isInf b) then nanResult .mul a b
  else if isInf a || isInf b then pack neg infBits
  else pack neg (roundMag (fMag a * fMag b) (2 ^ 149))

/-- `fdiv(a, b)` (R12). -/
def fdiv (a b : F32) : F32 :=
  let neg := fSign a != fSign b
  if isNaN a || isNaN b || (isInf a && isInf b) || (isZero a && isZero b) then nanResult .div a b
  else if isInf a || isZero b then pack neg infBits
  else if isInf b then pack neg 0
  else pack neg (roundMag (fMag a * 2 ^ 149) (fMag b))

/-- `u2f(n)` (R12): the nearest binary32 number, exact for `n < 2^24`. -/
def u2f (n : U32) : F32 := pack false (roundMag (n.toNat * 2 ^ 149) 1)

/-- `a <f b`, the ordered comparison, false on a NaN (R12). -/
def flt (a b : F32) : Bool := !isNaN a && !isNaN b && decide (fVal a < fVal b)

/-- `a >f b` (R12). -/
def fgt (a b : F32) : Bool := flt b a

/-- `REM360(a)` for a finite `a` (R206): `a - 360 * trunc(a / 360)` with the sign of `a`; exact, so `roundMag` only
writes the number down. -/
def rem360 (a : F32) : F32 := pack (fSign a) (roundMag (fMag a % fMag f360) 1)

/-- `LPF(v, t, k)` (R230): difference, product and sum, each rounded once, in this order. -/
def lpfStep (v t k : F32) : F32 := fadd v (fmul (fsub t v) k)

/-- `WRAP(a)` for a finite `a` (R206), line by line. -/
def wrapAngle (w : AngleWrap) (a : F32) : F32 :=
  let r := rem360 a
  let r := if flt r fZero then fadd r f360 else r
  let r := if isZero r then fZero else r
  let r := if r = f360 ∧ w = .halfOpen then fZero else r
  if r = fZero ∧ fgt a fZero ∧ w = .closed then f360 else r

end Sys2Proof.Machine
end

