-- ==== Sys2Proof/Syntax.lean ====
section
/-! DEFINITION. The operations of BLDC-ENC: one constructor for each row of `spec/opcode_table.json`
(`30_encoding.md` R80), with the modes of `10_state.md` R21. -/

namespace Sys2Proof

/-- `mode_t` (R21). -/
inductive Mode where
  | none
  | quadrature
  | absoluteSpi
  | resolverSpi
  | sinCosAnalog
deriving DecidableEq, Repr

/-- The numeric code of a mode (R21, R86); it appears on no port. -/
def Mode.code : Mode → BitVec 3
  | .none => 0
  | .quadrature => 1
  | .absoluteSpi => 2
  | .resolverSpi => 3
  | .sinCosAnalog => 4

/-- The rows of the opcode table: nine commands, seven reserved command codes, three events, four frame formats and
six internal functions (R80, R82, R85, R87 to R91). An argument field that a command does not use is no operand (R84).
There is no fence or barrier among them (R72). -/
inductive Instr where
  /-- `INIT_QUAD cpr` (R201). -/
  | initQuad (cpr : U32)
  /-- `INIT_ABS` (R202). -/
  | initAbs
  /-- `INIT_RES` (R203). -/
  | initRes
  /-- `INIT_SINCOS sin_gain, sin_offset, cos_gain, cos_offset, filter_time_constant` (R204). -/
  | initSincos (sinGain sinOffset cosGain cosOffset filterK : F32)
  /-- `DEINIT` (R205). -/
  | deinit
  /-- `SET_COUNTS cpr` (R188). -/
  | setCounts (cpr : U32)
  /-- `READ_ANGLE` (R206). -/
  | readAngle
  /-- `IS_CONFIGURED` (R207). -/
  | isConfigured
  /-- `RD_DIAG idx` (R208). -/
  | rdDiag (idx : U32)
  /-- Reserved code `0x0` (R93). -/
  | reserved0
  /-- Reserved code `0xA` (R93). -/
  | reservedA
  /-- Reserved code `0xB` (R93). -/
  | reservedB
  /-- Reserved code `0xC` (R93). -/
  | reservedC
  /-- Reserved code `0xD` (R93). -/
  | reservedD
  /-- Reserved code `0xE` (R93). -/
  | reservedE
  /-- Reserved code `0xF` (R93). -/
  | reservedF
  /-- `TICK` (R209). -/
  | tick
  /-- `INDEX` (R189). -/
  | index
  /-- `SINCOS_SAMPLE raw_sin, raw_cos` (R166). -/
  | sincosSample (rawSin rawCos : F32)
  /-- The word sent to the absolute encoder (R87). -/
  | absCmd
  /-- A word received from the absolute encoder (R88). -/
  | absReply (w : U16)
  /-- The word sent to the resolver converter (R91). -/
  | resCmd
  /-- A word received from the resolver converter (R89). -/
  | resReply (w : U16)
  /-- `XFER(out, n)`; `none` is the transfer with no output payload (R110). -/
  | xfer (out : Option (List U16)) (n : Nat)
  /-- `MAJ5(s0, s1, s2, s3, s4)` (R113). -/
  | maj5 (s0 s1 s2 s3 s4 : Bool)
  /-- `PARITY16(w)` (R130). -/
  | parity16 (w : U16)
  /-- `LPF(v, t, k)` (R230). -/
  | lpf (v t k : F32)
  /-- `ATAN2DEG(s, c)` (R172). -/
  | atan2deg (s c : F32)
  /-- `WRAP(a)` (R206). -/
  | wrap (a : F32)
deriving DecidableEq, Repr

/-- Which way a frame moves on the serial bus: sent on `MOSI` or received on `MISO` (R87 to R91). -/
inductive FrameDir where
  | toSensor
  | fromSensor
deriving DecidableEq, Repr

/-- The forms in which an operation stands on the ports (R81, R85, R87 to R91), and `internal` for the functions that
have no encoding (R80). -/
inductive Encoding where
  /-- The 164 bits of the command port (R81): `cmd_op` in bits 3:0, then `cmd_a0` to `cmd_a4` upward (log 3). -/
  | command (port : BitVec 164)
  /-- The strobe vector `(sc_valid, index_evt, tick)` of R85, `tick` in bit 0, with the analog pair of that cycle. -/
  | event (strobes : BitVec 3) (rawSin rawCos : F32)
  /-- A 16-bit word on the serial bus. -/
  | frame (dir : FrameDir) (w : U16)
  /-- No encoding: cannot be invoked from outside (R80). -/
  | internal
deriving DecidableEq, Repr

end Sys2Proof
end

