-- ==== Sys2Proof/Machine/Operands.lean ====
section
/-! DEFINITION. Operand forms: the fields of the command port (`30_encoding.md` R81, R84), the strobe vector (R85), the
payloads of the frames and the angles they stand for (R90, R135, R153), the quadrature operand (R186, R187). -/

namespace Sys2Proof.Machine

/-- `cmd_op`, bits 3:0 of the command port (R81). -/
def cmdOp (p : BitVec 164) : BitVec 4 := p.extractLsb' 0 4
/-- `cmd_a0` (R81). -/
def cmdA0 (p : BitVec 164) : U32 := p.extractLsb' 4 32
/-- `cmd_a1` (R81). -/
def cmdA1 (p : BitVec 164) : U32 := p.extractLsb' 36 32
/-- `cmd_a2` (R81). -/
def cmdA2 (p : BitVec 164) : U32 := p.extractLsb' 68 32
/-- `cmd_a3` (R81). -/
def cmdA3 (p : BitVec 164) : U32 := p.extractLsb' 100 32
/-- `cmd_a4` (R81). -/
def cmdA4 (p : BitVec 164) : U32 := p.extractLsb' 132 32

/-- The command port with all six fields present (R81). -/
def cmdPort (op : BitVec 4) (a0 a1 a2 a3 a4 : U32) : BitVec 164 :=
  a4 ++ (a3 ++ (a2 ++ (a1 ++ (a0 ++ op))))

/-- A legal number of counts per revolution: `1 <= cpr` and `3*cpr < 2^32` (R22, D27). -/
def cprLegal (cpr : U32) : Bool := decide (1 ≤ cpr.toNat ∧ 3 * cpr.toNat < 2 ^ 32)

/-- `ABS_CMD`, the word sent to the absolute encoder (R7, R87). -/
def absCmdWord : U16 := 0xFFFF#16

/-- The word on the line when a transfer has no output payload (R91, R110). -/
def idleWord : U16 := 0xFFFF#16

/-- `ABS_SENTINEL`, the received word that means "disconnected" (R7, R132). -/
def absSentinel : U16 := 0xFFFF#16

/-- The payload of an absolute-encoder frame, `w & 0x3FFF` (R90). -/
def absPayload (w : U16) : U32 := (w &&& 0x3FFF#16).setWidth 32

/-- The payload of a resolver frame, `w >> 4` (R90). -/
def resPayload (w : U16) : U32 := (w >>> 4).setWidth 32

/-- `payload * 360 / 16384` (R135). -/
def absAngle (w : U16) : F32 := fdiv (fmul (u2f (absPayload w)) f360) f16384

/-- `payload * 360 / 4096` (R153). -/
def resAngle (w : U16) : F32 := fdiv (fmul (u2f (resPayload w)) f360) f4096

/-- `counter * 360 / counts_per_revolution`, before wrapping (R187). -/
def quadAngle (n cpr : U32) : F32 := fdiv (fmul (u2f n) f360) (u2f cpr)

/-- `QCFG_MODULUS`, `3 * cpr` (R186). -/
def counterModulus (cpr : U32) : U32 := BitVec.ofNat 32 (3 * cpr.toNat)

/-- `QCFG_INIT`, `(3 * cpr) / 2` rounded down (R186). -/
def counterInit (cpr : U32) : U32 := BitVec.ofNat 32 (3 * cpr.toNat / 2)

/-- A `u16` response: bits 15:0, the rest zero (R65, R83). -/
def zext16 (w : U16) : U32 := w.setWidth 32

/-- A `u1` response: bit 0, the rest zero (R83). -/
def zext1 (b : Bool) : U32 := if b then 1#32 else 0#32

end Sys2Proof.Machine
end

