-- ==== Sys2Proof/Machine/Params.lean ====
section
/-! DEFINITION. The legal range of the open parameters (`00_scope.md` R8; `93_implementation_defined.md` part 2;
`43_sincos.md` R172) and the configuration the machine runs with. -/

namespace Sys2Proof.Machine

/-- `MIN_SQ = fmul(1.0, 1.0)` (R165). -/
def minSq : F32 := fmul fOne fOne

/-- `MAX_SQ = fmul(1.65, 1.65)` (R165). -/
def maxSq : F32 := fmul f165 f165

/-- `m = fadd(fmul(s, s), fmul(c, c))` (R166). -/
def magnitudeSq (s c : F32) : F32 := fadd (fmul s s) (fmul c c)

/-- The binary32 number `x` lies in `[0.0, 1.0]`. -/
def inUnit (x : F32) : Bool := !isNaN x && decide (0 ≤ fVal x ∧ fVal x ≤ fVal fOne)

/-- Finite and in `[-180.0, 180.0]`, the range of property A2 (R172). -/
def inHalfTurn (x : F32) : Bool := isFinite x && decide (fMag x ≤ 180 * 2 ^ 149)

/-- The arguments of property A4 (R172): `s = +0.0` and a finite `c > 0`. -/
def atanZeroCase (s c : F32) : Bool := s == fZero && isFinite c && fgt c fZero

/-- The arguments of property A2 (R172): finite, at squared magnitude `MIN_SQ` or more. -/
def atanRangeCase (s c : F32) : Bool := isFinite s && isFinite c && !flt (magnitudeSq s c) minSq

/-- The three status bit positions are different (R8). -/
def statusBitsDiffer (c : Cfg) : Bool :=
  c.resRdvelBit != c.resDosBit && c.resRdvelBit != c.resLotBit && c.resDosBit != c.resLotBit

/-- The suggested `ERR_FILTER_K`, `1/20000` (R8). -/
def suggestedErrFilterK : F32 := 0x3851B717#32

/-- The real number a finite binary32 value stands for. -/
noncomputable def fReal (x : F32) : ℝ := (fVal x : ℝ) / 2 ^ 149

/-- `x` degrees is within `ATAN_TOL` of the true angle of `(s, cs)`, or within it of that angle plus or minus 360 where the true
angle is within `ATAN_TOL` of the cut at 180 (R172 A3). -/
def angleClose (c : Cfg) (s cs : F32) (x : ℝ) : Prop :=
  let d := Complex.arg ⟨fReal cs, fReal s⟩ * 180 / Real.pi
  |x - d| ≤ fReal c.atanTol ∨
    (180 - |d| ≤ fReal c.atanTol ∧ (|x - (d + 360)| ≤ fReal c.atanTol ∨ |x - (d - 360)| ≤ fReal c.atanTol))

/-- The legal values of the open parameters (R8), with the properties that R172 requires of every `ATAN2DEG`. A1 is the type of the
field. A parameter without a clause may have any value of its type. -/
structure Legal (c : Cfg) : Prop where
  /-- A4 of R172. -/
  atanZero : ∀ s cs, atanZeroCase s cs = true → c.atan2deg s cs = fZero
  /-- A2 of R172. -/
  atanRange : ∀ s cs, atanRangeCase s cs = true → inHalfTurn (c.atan2deg s cs) = true
  /-- A3 of R172, on the arguments of A2: below `MIN_SQ` any value is allowed (U10; log 9). -/
  atanClose : ∀ s cs, atanRangeCase s cs = true → angleClose c s cs (fReal (c.atan2deg s cs))
  tolNonneg : isNaN c.atanTol = false ∧ 0 ≤ fVal c.atanTol
  filterInUnit : inUnit c.errFilterK = true
  statusBits : statusBitsDiffer c = true
  wordsMax : 1 ≤ c.nWordsMax

/-- The defaults and suggestions of R8 and R89 about a given arctangent; the waits, which have none, are 0. Used by the
tests and by `wideCfg`. -/
def suggestedCfg (atan : F32 → F32 → F32) (w : AngleWrap) : Cfg where
  atan2deg := atan
  atanTol := fZero
  errFilterK := suggestedErrFilterK
  angleWrap := w
  resRdvelBit := 3
  resDosBit := 2
  resLotBit := 1
  resRdvelOk := true
  resDosOk := true
  resLotOk := true
  tCsSetup := 0
  tSettle := 0
  tPost := 0
  tLow := 0
  tCsHold := 0
  tResSample := 0
  tDebounce := 0
  nWordsMax := 1

/-- A legal record: an arctangent of `0.0` with a tolerance of 360 degrees. It shows that there is one; the machine does not use it. -/
def wideCfg : Cfg := { suggestedCfg (fun _ _ => fZero) .closed with atanTol := f360 }

/-- An angle of 0 is within 360 degrees of every angle. -/
theorem wideCfg_angleClose (s cs : F32) : angleClose wideCfg s cs (fReal (wideCfg.atan2deg s cs)) := by
  have h0 : fReal (wideCfg.atan2deg s cs) = 0 := by
    have : fVal fZero = 0 := by decide +kernel
    simp [wideCfg, suggestedCfg, fReal, this]
  have h1 : fReal wideCfg.atanTol = 360 := by
    have : fVal f360 = 360 * 2 ^ 149 := by decide +kernel
    simp only [wideCfg, fReal, this]
    norm_num
  refine .inl ?_
  rw [h0, h1, zero_sub, abs_neg, abs_div, abs_mul, abs_of_pos Real.pi_pos, div_le_iff₀ Real.pi_pos,
    abs_of_pos (by norm_num : (0 : ℝ) < 180)]
  nlinarith [Real.pi_pos, Complex.abs_arg_le_pi ⟨fReal cs, fReal s⟩]

theorem wideCfg_legal : Legal wideCfg where
  atanZero _ _ _ := rfl
  atanRange _ _ _ := show inHalfTurn fZero = true by decide +kernel
  atanClose s cs _ := wideCfg_angleClose s cs
  tolNonneg := by decide +kernel
  filterInUnit := by decide +kernel
  statusBits := by decide
  wordsMax := by decide

/-- A record with the proof that it is legal. The two defaults only let Lean see that such a record exists. -/
structure LegalCfg where
  record : Cfg := wideCfg
  legal : Legal record := by exact wideCfg_legal
deriving Inhabited

/-- The legal record an implementation supplies: unknown, so a claim about it holds for every legal one (R8; log 8). -/
opaque Config.legal : LegalCfg

/-- The configuration of the machine. -/
def cfg : Cfg := Config.legal.record

/-- The configuration of the machine is legal, with A1 to A4 of R172 (R8, R172). -/
theorem cfg_legal : Legal cfg := Config.legal.legal

end Sys2Proof.Machine
end

