-- ==== Sys2Proof/Machine/Flags.lean ====
section
/-! DEFINITION. Every yes-or-no question the block asks: the vote on a sampled bit, parity and sentinel of an
absolute-encoder frame, the status bits of a resolver frame, the magnitude band of a sin/cos sample, `IS_CONFIGURED`. -/

namespace Sys2Proof.Machine

/-- `MAJ5`: 1 when more than two of the five samples are high (R113). -/
def maj5 (s0 s1 s2 s3 s4 : Bool) : Bool :=
  decide (s0.toNat + s1.toNat + s2.toNat + s3.toNat + s4.toNat > 2)

/-- The vote on the five samples held in `VOTE` (R37, R113). -/
def voteBit (v : BitVec 5) : Bool :=
  maj5 (v.getLsbD 4) (v.getLsbD 3) (v.getLsbD 2) (v.getLsbD 1) (v.getLsbD 0)

/-- `PARITY16`: fold by 8, by 4, by 2, by 1 and test bit 0; `true` is 1, an odd number of ones (R130). -/
def parity16 (w : U16) : Bool :=
  let x := w ^^^ (w >>> 8)
  let x := x ^^^ (x >>> 4)
  let x := x ^^^ (x >>> 2)
  let x := x ^^^ (x >>> 1)
  x.getLsbD 0

/-- The frame is the sentinel: the whole word is compared (R132). -/
def isSentinel (w : U16) : Bool := w == absSentinel

/-- An absolute-encoder frame is accepted: even parity and not the sentinel (R131 to R133). -/
def absAccepted (w : U16) : Bool := !parity16 w && !isSentinel w

/-- The status validator of a resolver frame (R152). -/
def resHealthy (c : Cfg) (w : U16) : Bool :=
  w.getLsbD c.resRdvelBit.val == c.resRdvelOk
    && w.getLsbD c.resDosBit.val == c.resDosOk
    && w.getLsbD c.resLotBit.val == c.resLotOk

/-- The three branches of a sin/cos sample (R166). -/
inductive Band where
  | above
  | below
  | valid
deriving DecidableEq, Repr

/-- Above is tested first, then below; both comparisons are strict, and false on a NaN (R166, R171, R173). -/
def band (m : F32) : Band :=
  if fgt m maxSq then .above
  else if flt m minSq then .below
  else .valid

/-- `IS_CONFIGURED = (MODE != None)` (R32). -/
def isConfigured (m : Mode) : Bool := m != .none

end Sys2Proof.Machine
end

