-- ==== Sys2Proof/Machine/State.lean ====
section
/-! DEFINITION. Everything the spec gives the block to hold (`10_state.md`, `70_reset_and_hazards.md` R280), the inputs
that stand before it, and its state right after reset. The block has no memory and no program counter (R6, R31, R35). -/

namespace Sys2Proof.Machine

/-- The architectural registers, the whole table of R34. -/
structure Regs where
  /-- `MODE` (R21). -/
  mode : Mode
  /-- `CPR` (R22). -/
  cpr : U32
  /-- `SIN_GAIN` (R23). -/
  sinGain : F32
  /-- `SIN_OFFSET` (R23). -/
  sinOffset : F32
  /-- `COS_GAIN` (R23). -/
  cosGain : F32
  /-- `COS_OFFSET` (R23). -/
  cosOffset : F32
  /-- `SC_FILTER_K` (R23). -/
  scFilterK : F32
  /-- `LAST_ANGLE`, also the state of the angle filter (R24, R51). -/
  lastAngle : F32
  /-- `SPI_VAL` (R25). -/
  spiVal : U16
  /-- `SPI_ERR_CNT` (R26). -/
  spiErrCnt : U32
  /-- `SPI_ERR_RATE` (R27). -/
  spiErrRate : F32
  /-- `SC_BELOW_CNT` (R28). -/
  scBelowCnt : U32
  /-- `SC_BELOW_RATE` (R28). -/
  scBelowRate : F32
  /-- `SC_ABOVE_CNT` (R29). -/
  scAboveCnt : U32
  /-- `SC_ABOVE_RATE` (R29). -/
  scAboveRate : F32
deriving DecidableEq, Repr

/-- The last column of R34: the value of every register at reset, and the default that `reset_all` writes (R200). -/
def Regs.default : Regs where
  mode := .none
  cpr := 0
  sinGain := 0
  sinOffset := 0
  cosGain := 0
  cosOffset := 0
  scFilterK := 0
  lastAngle := 0
  spiVal := 0
  spiErrCnt := 0
  spiErrRate := 0
  scBelowCnt := 0
  scBelowRate := 0
  scAboveCnt := 0
  scAboveRate := 0

/-- `XF_PHASE`: the four parts of a bit period (R36). -/
inductive Phase where
  | highSettle
  | sampling
  | highPost
  | low
deriving DecidableEq, Repr

/-- The position in the control-line sequence of R151 (R37). -/
inductive ResPos where
  | idle
  | select
  | sampleLow
  | sampleHigh
deriving DecidableEq, Repr

/-- The hidden state of R36 to R38. It is idle before and after every operation (R39). -/
structure Hidden where
  /-- `BUSY` (R38). -/
  busy : Bool
  /-- `XF_WORD` (R36). -/
  xfWord : Nat
  /-- `XF_BIT` (R36). -/
  xfBit : Nat
  /-- `XF_PHASE`, `none` outside a transfer (R36). -/
  xfPhase : Option Phase
  /-- `XF_SMP` (R36). -/
  xfSmp : Nat
  /-- `TX_SHIFT` (R37). -/
  txShift : U16
  /-- `RX_SHIFT` (R37). -/
  rxShift : U16
  /-- `VOTE`, the samples of the current bit (R37). -/
  vote : BitVec 5
  /-- The debounce wait of `INDEX` (R37). -/
  debounce : Nat
  /-- The position in the control-line sequence (R37). -/
  resPos : ResPos
deriving DecidableEq, Repr

/-- Idle: `BUSY = 0`, no transfer in progress, nothing held (R36, R38, R280; log 23). -/
def Hidden.idle : Hidden where
  busy := false
  xfWord := 0
  xfBit := 0
  xfPhase := none
  xfSmp := 0
  txShift := 0
  rxShift := 0
  vote := 0
  debounce := 0
  resPos := .idle

/-- An output pin: driven to a level, or not driven and pulled up (R41, R48). -/
inductive Level where
  | driven (b : Bool)
  | released
deriving DecidableEq, Repr

/-- The level on the wire of a pin; a released pin is pulled up (R48). -/
def Level.wire : Level → Bool
  | .driven b => b
  | .released => true

/-- The names of the driven pins (R41, R47). -/
inductive Pin where
  | sck
  | csN
  | mosi
  | resRdvel
  | resSampleN
deriving DecidableEq, Repr

/-- The serial and resolver pins with their output enables (R41, R47). -/
structure Pins where
  /-- `BUS_OE`, the common enable of `SCK`, `CS_N`, `MOSI` (R41). -/
  busOe : Bool
  /-- The enable of `RES_RDVEL` and `RES_SAMPLE_N` (R47). -/
  resOe : Bool
  /-- `SCK` (R41). -/
  sck : Level
  /-- `CS_N` (R41). -/
  csN : Level
  /-- `MOSI` (R41). -/
  mosi : Level
  /-- `RES_RDVEL` (R47). -/
  resRdvel : Level
  /-- `RES_SAMPLE_N` (R47). -/
  resSampleN : Level
deriving DecidableEq, Repr

/-- The row of R211 for a mode: the pins between operations. -/
def Pins.ofMode : Mode → Pins
  | .none | .quadrature | .sinCosAnalog =>
    ⟨false, false, .released, .released, .released, .released, .released⟩
  | .absoluteSpi => ⟨true, false, .driven false, .driven true, .driven true, .released, .released⟩
  | .resolverSpi => ⟨true, true, .driven false, .driven true, .driven true, .driven true, .driven true⟩

/-- The output ports. The three one-cycle pulses are held as "the last operation made this pulse" (log 20). -/
structure Ports where
  pins : Pins
  /-- `ZERO_CURRENT_REQ` (R47, R190). -/
  zeroCurrentReq : Bool
  /-- `QCFG_VALID` (R44, R186). -/
  qcfgValid : Bool
  /-- `QCFG_MODULUS` (R44, R186). -/
  qcfgModulus : U32
  /-- `QCFG_INIT` (R44, R186). -/
  qcfgInit : U32
  /-- `rsp_valid` (R43, R83). -/
  rspValid : Bool
  /-- `rsp_data` (R43, R83). -/
  rspData : U32
deriving DecidableEq, Repr

/-- The output ports at reset (R280). -/
def Ports.reset : Ports where
  pins := Pins.ofMode .none
  zeroCurrentReq := false
  qcfgValid := false
  qcfgModulus := 0
  qcfgInit := 0
  rspValid := false
  rspData := 0

/-- The pulse outputs (R43, R44, R47). -/
inductive Strobe where
  | zeroCurrentReq
  | qcfgValid
  | rspValid
deriving DecidableEq, Repr

/-- One entry of the trace of an operation: pin writes and waits (R13, R18), with the draws and pulses between them. -/
inductive PinAct where
  /-- `PIN <- b`. -/
  | write (p : Pin) (b : Bool)
  /-- All pins and both output enables take the row of a mode, at once (R41, R47, R211). -/
  | modeRow (m : Mode)
  /-- `wait(T)`, in cycles of `clk`. -/
  | wait (cycles : Nat)
  /-- `sample(MISO)` and the level drawn. -/
  | sampleMiso (b : Bool)
  /-- `sample(INDEX_PIN)` and the level drawn. -/
  | sampleIndexPin (b : Bool)
  /-- A read of `QCNT` and the count drawn. -/
  | readQcnt (n : U32)
  /-- A pulse of one cycle. -/
  | pulse (o : Strobe)
deriving DecidableEq, Repr

/-- The five decode faults of R245. -/
inductive DecodeFault where
  | parity
  | disconnect
  | statusInvalid
  | signalBelowMin
  | signalAboveMax
deriving DecidableEq, Repr

/-- `outcome_t`, the transient outcome of a decoded sample (R33). -/
inductive DecodeOutcome where
  | valid (angle : F32)
  | parityError
  | disconnected
  | statusInvalid
  | belowMin
  | aboveMax
deriving DecidableEq, Repr

/-- The numbers of the outcomes (R33); they appear on no port. -/
def DecodeOutcome.code : DecodeOutcome → Nat
  | .valid _ => 0
  | .parityError => 1
  | .disconnected => 2
  | .statusInvalid => 3
  | .belowMin => 4
  | .aboveMax => 5

/-- The outcome of a faulty sample (R33, R245). -/
def DecodeFault.outcome : DecodeFault → DecodeOutcome
  | .parity => .parityError
  | .disconnect => .disconnected
  | .statusInvalid => .statusInvalid
  | .signalBelowMin => .belowMin
  | .signalAboveMax => .aboveMax

/-- `Outputs` of R18 for the last operation: its trace, its transient outcome (R33), and the words an internal function
run on its own hands to its caller (log 19). The response is in `Ports`. -/
structure Out where
  trace : List PinAct
  outcome : Option DecodeOutcome
  result : List U32
deriving DecidableEq, Repr

/-- Nothing put out yet. -/
def Out.empty : Out := ⟨[], none, []⟩

/-- What can ask for an operation (R260). -/
inductive Source where
  | tick
  | index
  | sample
  | command
deriving DecidableEq, Repr

/-- The input ports in one cycle (R40, R43, R45, R46), and what the input script settles about it (log 4, 5, 6). -/
structure PortCycle where
  /-- `rst` is 1 in this cycle (R40). -/
  rst : Bool
  /-- `(sc_valid, index_evt, tick)`, `tick` in bit 0 (R85). -/
  strobes : BitVec 3
  /-- `sc_raw_sin` (R45). -/
  rawSin : F32
  /-- `sc_raw_cos` (R45). -/
  rawCos : F32
  /-- `cmd_valid` (R43). -/
  cmdValid : Bool
  /-- `cmd_op` and `cmd_a0` to `cmd_a4` (R81). -/
  cmdPort : BitVec 164
  /-- The order in which this cycle's arrivals are accepted; a source not named comes after, in the order `tick`, `index`,
  `sample`, `command` (R263, U7). -/
  order : List Source
  /-- The cycle falls while `BUSY = 1` for the operation before it (R264). -/
  whileBusy : Bool
  /-- `rst` rises during the operation that this cycle starts, after this many entries of its trace (R40, R281). -/
  rstAfter : Option Nat
deriving DecidableEq, Repr

/-- One arrival: a cycle of the input ports, or a whole frame on the serial bus (log 16). -/
inductive Arrival where
  | ports (c : PortCycle)
  | frame (dir : FrameDir) (w : U16)
deriving DecidableEq, Repr

/-- What the environment will supply: arrivals in order, and the draws it has decided already (R17, R18; log 2, log 7). -/
structure Env where
  arrivals : List Arrival
  /-- Coming samples of `MISO` (R42). -/
  miso : List Bool
  /-- Coming samples of `INDEX_PIN` (R46). -/
  indexPin : List Bool
  /-- Coming reads of `QCNT` (R44). -/
  qcnt : List U32
deriving DecidableEq, Repr

/-- The state of the block with its inputs and outputs. -/
structure State where
  regs : Regs
  hid : Hidden
  ports : Ports
  out : Out
  env : Env
  /-- How many free values have been used: the index of the next one (log 22). -/
  free : Nat
deriving DecidableEq, Repr

/-- Why the machine stops with a fault. The block's own decode faults (R245) are no stops: they are handled by the
fail-safe hold (R251, R252) and every meaning goes on. -/
inductive Fault where
  /-- Raised by `step` when a frame arrives that no transfer of the present mode can carry (`decodeFrame`): the hardware
  has no such event, so stopping is safe (log 18). -/
  | frameOutsideTransfer
deriving DecidableEq, Repr

/-- Why the machine answers with a refusal. -/
inductive Refusal where
  /-- Would be raised by an arm of `exec` that has no meaning yet; no arm is such. Safe. -/
  | notModelled (mnemonic : String)
  /-- Raised by `step` when an event strobe arrives while `BUSY = 1`: the run is outside the specified envelope (R264,
  R265, U2). Safe: the hardware may drop the event, hold it or misbehave. -/
  | eventWhileBusy
deriving DecidableEq, Repr

/-- The block right after reset (R34, R280), with no input given yet (log 22). -/
def State.reset : State where
  regs := Regs.default
  hid := Hidden.idle
  ports := Ports.reset
  out := Out.empty
  env := ⟨[], [], [], []⟩
  free := 0

end Sys2Proof.Machine
end

