-- ==== Sys2Proof/Machine/Ops.lean ====
section
/-! DEFINITION. The operations that the meanings share: acceptance and end of an operation, the draws, the pins, the
serial transfer, the trackers, and raising a decode fault, which stands where a processor takes an exception. -/

namespace Sys2Proof.Machine

/-! ### Acceptance and end of an operation (R14, R38, R48, R262) -/

/-- An operation is accepted: `BUSY` rises, the pulses of the last operation are over and its outputs gone. -/
def State.accept (s : State) : State :=
  { s with
    hid := { Hidden.idle with busy := true }
    ports := { s.ports with zeroCurrentReq := false, qcfgValid := false, rspValid := false }
    out := Out.empty }

/-- `cmd_ready`, the complement of `BUSY` (R38, R43). -/
def State.cmdReady (s : State) : Bool := !s.hid.busy

/-- The operation ends: the hidden state is idle again (R37, R38). -/
def State.finish (s : State) : State := { s with hid := Hidden.idle }

/-- The hidden state takes a value. -/
def State.withHid (h : Hidden) (s : State) : State := { s with hid := h }

/-- The registers take their new values, all together (R14, R67). This whole write is the fence that R72 names: the block has no
fence operation, and what stands before an operation's step or after it sees all of its register writes or none. -/
def State.withRegs (r : Regs) (s : State) : State := { s with regs := r }

/-! ### Free values and draws (R17 e, R18; log 7) -/

/-- The next free 32-bit value. -/
def State.takeFree (s : State) : U32 × State := (Config.freeWord s.free, { s with free := s.free + 1 })

/-! ### Pins and trace (R13, R41, R47, R48) -/

/-- `PIN <- b` on the pins: a pin whose output enable is 0 stays released. -/
def Pins.write (ps : Pins) : Pin → Bool → Pins
  | .sck, b => if ps.busOe then { ps with sck := .driven b } else ps
  | .csN, b => if ps.busOe then { ps with csN := .driven b } else ps
  | .mosi, b => if ps.busOe then { ps with mosi := .driven b } else ps
  | .resRdvel, b => if ps.resOe then { ps with resRdvel := .driven b } else ps
  | .resSampleN, b => if ps.resOe then { ps with resSampleN := .driven b } else ps

/-- What a trace entry does to the pins. -/
def Pins.act (ps : Pins) : PinAct → Pins
  | .write p b => ps.write p b
  | .modeRow m => Pins.ofMode m
  | .wait _ | .sampleMiso _ | .sampleIndexPin _ | .readQcnt _ | .pulse _ => ps

/-- One entry is added to the trace, with its effect on the pins. -/
def State.act (a : PinAct) (s : State) : State :=
  { s with
    ports := { s.ports with pins := s.ports.pins.act a }
    out := { s.out with trace := s.out.trace ++ [a] } }

/-- Several entries in order. -/
def State.acts (as : List PinAct) (s : State) : State := as.foldl (fun t a => t.act a) s

/-- `sample(MISO)`: the level, and the state after it (R42, R112). -/
def State.drawMiso (s : State) : Bool × State :=
  match s.env.miso with
  | b :: rest => (b, ({ s with env := { s.env with miso := rest } } : State).act (.sampleMiso b))
  | [] => (Config.freeBit s.free, ({ s with free := s.free + 1 } : State).act (.sampleMiso (Config.freeBit s.free)))

/-- `sample(INDEX_PIN)` (R46, R189). -/
def State.drawIndexPin (s : State) : Bool × State :=
  match s.env.indexPin with
  | b :: rest => (b, ({ s with env := { s.env with indexPin := rest } } : State).act (.sampleIndexPin b))
  | [] => (Config.freeBit s.free, ({ s with free := s.free + 1 } : State).act (.sampleIndexPin (Config.freeBit s.free)))

/-- One read of `QCNT` (R44, R187). -/
def State.drawQcnt (s : State) : U32 × State :=
  match s.env.qcnt with
  | n :: rest => (n, ({ s with env := { s.env with qcnt := rest } } : State).act (.readQcnt n))
  | [] => (Config.freeWord s.free, ({ s with free := s.free + 1 } : State).act (.readQcnt (Config.freeWord s.free)))

/-! ### Responses and pulses (R13, R83, R186, R190) -/

/-- `respond(v)`: `rsp_data` and the pulse of `rsp_valid` (R83). -/
def State.respond (v : U32) (s : State) : State :=
  ({ s with ports := { s.ports with rspValid := true, rspData := v } } : State).act (.pulse .rspValid)

/-- The safety action: one pulse on `ZERO_CURRENT_REQ` (R190). -/
def State.zeroCurrent (s : State) : State :=
  ({ s with ports := { s.ports with zeroCurrentReq := true } } : State).act (.pulse .zeroCurrentReq)

/-- `QCFG_MODULUS`, `QCFG_INIT` and the pulse of `QCFG_VALID` (R186). -/
def State.configCounter (modulus init : U32) (s : State) : State :=
  ({ s with ports := { s.ports with qcfgValid := true, qcfgModulus := modulus, qcfgInit := init } } : State).act
    (.pulse .qcfgValid)

/-- An internal function run on its own hands these words to its caller (log 19). -/
def State.giveResult (ws : List U32) (s : State) : State := { s with out := { s.out with result := ws } }

/-- The transient outcome of the operation (R33). -/
def State.giveOutcome (o : DecodeOutcome) (s : State) : State := { s with out := { s.out with outcome := some o } }

/-! ### The serial transfer (`40_transport.md`) -/

/-- One `sample(MISO)` of the current bit: it joins `VOTE` and `XF_SMP` counts it (R36, R37, R110). -/
def State.sampleBit (s : State) : State :=
  let (b, t) := s.drawMiso
  t.withHid { t.hid with vote := (t.hid.vote <<< 1) ||| (BitVec.ofBool b).setWidth 5, xfSmp := t.hid.xfSmp + 1 }

/-- The wait that belongs to the present phase of the bit (R110, R111). -/
def State.phaseWait (c : Cfg) (s : State) : State :=
  match s.hid.xfPhase with
  | some .highSettle => s.act (.wait c.tSettle)
  | some .highPost => s.act (.wait c.tPost)
  | some .low => s.act (.wait c.tLow)
  | some .sampling => s
  | none => s

/-- The sequencer enters a phase (R36). -/
def State.enterPhase (p : Phase) (s : State) : State := s.withHid { s.hid with xfPhase := some p }

/-- The body of the bit loop of R110 for bit `b`: data out, clock up, settle, five samples, wait, clock down, wait, vote. -/
def State.bitPeriod (c : Cfg) (b : Nat) (s : State) : State :=
  let s := s.withHid { s.hid with xfBit := b, xfPhase := some .highSettle, xfSmp := 0, vote := 0 }
  let s := s.act (.write .mosi (s.hid.txShift.getLsbD s.hid.xfBit))
  let s := s.act (.write .sck true)
  let s := s.phaseWait c
  let s := s.enterPhase .sampling
  let s := s.sampleBit.sampleBit.sampleBit.sampleBit.sampleBit
  let s := (s.enterPhase .highPost).phaseWait c
  let s := s.act (.write .sck false)
  let s := (s.enterPhase .low).phaseWait c
  s.withHid { s.hid with
    rxShift := if voteBit s.hid.vote then s.hid.rxShift ||| BitVec.twoPow 16 s.hid.xfBit else s.hid.rxShift }

/-- The bits `n - 1` down to 0 of a word (R64, R110). -/
def State.bitLoop (c : Cfg) : Nat → State → State
  | 0, s => s
  | n + 1, s => State.bitLoop c n (s.bitPeriod c n)

/-- Word `i` of a transfer: `send` goes out, the word received is returned (R110). -/
def State.wordTransfer (c : Cfg) (i : Nat) (send : U16) (s : State) : U16 × State :=
  let s := s.withHid { s.hid with xfWord := i, txShift := send, rxShift := 0 }
  let s := s.bitLoop c 16
  (s.hid.rxShift, s)

/-- The loop over words, word 0 first (R65, R110). -/
def State.wordLoop (c : Cfg) : Nat → List U16 → State → List U16 × State
  | _, [], s => ([], s)
  | i, w :: ws, s =>
    let (r, s1) := s.wordTransfer c i w
    let (rs, s2) := State.wordLoop c (i + 1) ws s1
    (r :: rs, s2)

/-- The words a transfer sends: the payload, or all ones where there is none (R91, R110). A payload shorter than the count
is ill-formed; its missing words are sent as the idle line (log 24). -/
def wordsSent (out : Option (List U16)) (n : Nat) : List U16 :=
  match out with
  | none => List.replicate n idleWord
  | some ws => ws.take n ++ List.replicate (n - ws.length) idleWord

/-- `XFER(out, n)` (R110): the words received and the state after it. -/
def State.xfer (c : Cfg) (out : Option (List U16)) (n : Nat) (s : State) : List U16 × State :=
  let s := (s.act (.write .csN false)).act (.wait c.tCsSetup)
  let (rs, s) := s.wordLoop c 0 (wordsSent out n)
  let s := ((s.act (.write .mosi true)).act (.wait c.tCsHold)).act (.write .csN true)
  (rs, s.withHid { Hidden.idle with busy := s.hid.busy })

/-- A transfer of one word (R60): the word received. -/
def State.xferWord (c : Cfg) (out : Option (List U16)) (s : State) : U16 × State :=
  let (rs, s) := s.xfer c out 1
  (rs.headD 0, s)

/-- One step of the control-line sequence of R151: position select up, sample line down, the wait and sample line up. -/
def State.resLine (c : Cfg) (s : State) : State :=
  match s.hid.resPos with
  | .idle => (s.withHid { s.hid with resPos := .select }).act (.write .resRdvel true)
  | .select => (s.withHid { s.hid with resPos := .sampleLow }).act (.write .resSampleN false)
  | .sampleLow => (s.withHid { s.hid with resPos := .sampleHigh }).act (.wait c.tResSample)
  | .sampleHigh => (s.withHid { s.hid with resPos := .idle }).act (.write .resSampleN true)

/-- `control_lines()` (R151). -/
def State.controlLines (c : Cfg) (s : State) : State := (((s.resLine c).resLine c).resLine c).resLine c

/-! ### Trackers and the fail-safe hold (R231, R251) -/

/-- A fault counter after one more fault; from `0xFFFFFFFF` the value is free (R26, U1; log 11). -/
def State.countFault (cnt : U32) (s : State) : U32 × State :=
  if cnt = 0xFFFFFFFF#32 then s.takeFree else (cnt + 1, s)

/-- A rate driven toward 1 on a fault (R231). -/
def rateUp (c : Cfg) (rate : F32) : F32 := lpfStep rate fOne c.errFilterK

/-- A rate driven toward 0 on success (R231). -/
def rateDown (c : Cfg) (rate : F32) : F32 := lpfStep rate fZero c.errFilterK

/-- `raise <Fault>`, the fail-safe hold (R251): the fault's tracker, if it has one, counts and its rate is driven toward 1;
`LAST_ANGLE`, `MODE` and the pins stay; the operation then ends in the ordinary way. This stands where a processor enters an
exception; nothing is saved, so there is no return (R252). -/
def State.raiseFault (c : Cfg) (f : DecodeFault) (s : State) : State :=
  let s := s.giveOutcome f.outcome
  match f with
  | .parity | .disconnect =>
    let (n, s) := s.countFault s.regs.spiErrCnt
    s.withRegs { s.regs with spiErrCnt := n, spiErrRate := rateUp c s.regs.spiErrRate }
  | .statusInvalid => s
  | .signalBelowMin =>
    let (n, s) := s.countFault s.regs.scBelowCnt
    s.withRegs { s.regs with scBelowCnt := n, scBelowRate := rateUp c s.regs.scBelowRate }
  | .signalAboveMax =>
    let (n, s) := s.countFault s.regs.scAboveCnt
    s.withRegs { s.regs with scAboveCnt := n, scAboveRate := rateUp c s.regs.scAboveRate }

/-! ### Decoding a frame (`41_abs_as5047p.md`, `42_resolver_ad2s1205.md`) -/

/-- An absolute-encoder frame is received: `SPI_VAL` takes it; it is then accepted (R135) or rejected (R136). -/
def State.receiveAbs (c : Cfg) (w : U16) (s : State) : State :=
  let s := s.withRegs { s.regs with spiVal := w }
  if absAccepted w then
    (s.withRegs { s.regs with lastAngle := absAngle w, spiErrRate := rateDown c s.regs.spiErrRate }).giveOutcome
      (.valid (absAngle w))
  else s.raiseFault c (if isSentinel w then .disconnect else .parity)

/-- A resolver frame is received: accepted when healthy (R153), else rejected with nothing written (R154). -/
def State.receiveRes (c : Cfg) (w : U16) (s : State) : State :=
  if resHealthy c w then
    (s.withRegs { s.regs with lastAngle := resAngle w }).giveOutcome (.valid (resAngle w))
  else s.raiseFault c .statusInvalid

/-! ### Commands -/

/-- The end of `INIT_*` and `DEINIT`: every register to its default or to the command's own value, and with that one write the pins
to the row of the new mode (R200, R211). -/
def State.enterMode (r : Regs) (s : State) : State := (s.withRegs r).act (.modeRow r.mode)

/-- `respond(WRAP(a))`; the wrap of a non-finite angle is any value (R206, U4; log 14). -/
def State.respondAngle (c : Cfg) (a : F32) (s : State) : State :=
  if isFinite a then s.respond (wrapAngle c.angleWrap a)
  else
    let (v, s) := s.takeFree
    s.respond v

/-- The valid-band branch of a sin/cos sample (R170). -/
def State.acceptSincos (c : Cfg) (sn cs : F32) (s : State) : State :=
  let f := lpfStep s.regs.lastAngle (c.atan2deg sn cs) s.regs.scFilterK
  (s.withRegs { s.regs with
    scAboveRate := rateDown c s.regs.scAboveRate
    scBelowRate := rateDown c s.regs.scBelowRate
    lastAngle := f }).giveOutcome (.valid f)

/-! ### Reset during an operation (R40, R280, R281; log 6) -/

/-- The environment after the draws that a piece of trace shows. -/
def Env.afterActs (e : Env) : List PinAct → Env
  | [] => e
  | .sampleMiso _ :: as => Env.afterActs { e with miso := e.miso.drop 1 } as
  | .sampleIndexPin _ :: as => Env.afterActs { e with indexPin := e.indexPin.drop 1 } as
  | .readQcnt _ :: as => Env.afterActs { e with qcnt := e.qcnt.drop 1 } as
  | .write _ _ :: as | .modeRow _ :: as | .wait _ :: as | .pulse _ :: as => Env.afterActs e as

/-- The entry belongs to the register writes at the end of an operation (R211). -/
def PinAct.isModeRow : PinAct → Bool
  | .modeRow _ => true
  | .write _ _ | .wait _ | .sampleMiso _ | .sampleIndexPin _ | .readQcnt _ | .pulse _ => false

/-- What an operation shows of its trace when `rst` rises after `k` entries: the register writes are not made, so the pins do not
go to the row of a new mode either (R40, R211). -/
def cutTrace (k : Nat) (trace : List PinAct) : List PinAct := (trace.take k).takeWhile fun a => !a.isModeRow

/-- `rst` after the trace entries `as` of an operation: every register, the hidden state and the ports take their reset
values, none of the operation's register writes is made, and the pins are released at once. -/
def State.resetAfter (as : List PinAct) (s : State) (free : Nat) : State :=
  { State.reset with
    out := { Out.empty with trace := as ++ [.modeRow .none] }
    env := s.env.afterActs as
    free := free }

end Sys2Proof.Machine
end

