-- ==== Sys2Proof/Machine/Events.lean ====
section
/-! DEFINITION. The three events (`30_encoding.md` R85): `TICK` (`45_mode_facade.md` R209), `INDEX` (`44_quadrature.md`
R189) and `SINCOS_SAMPLE` (`43_sincos.md` R166). -/

namespace Sys2Proof.Machine

/-- `TICK` about a given configuration (R133, R150, R209). -/
def State.tick (c : Cfg) (s : State) : State :=
  match s.regs.mode with
  | .absoluteSpi =>
    let (w, s) := s.xferWord c (some [absCmdWord])
    s.receiveAbs c w
  | .resolverSpi =>
    let (w, s) := (s.controlLines c).xferWord c none
    s.receiveRes c w
  | .none => s
  | .quadrature => s
  | .sinCosAnalog => s

/-- `TICK` (R209). -/
def execTick (s : State) : Host.Outcome State Fault Refusal := .next (s.accept.tick cfg).finish

/-- `INDEX` about a given configuration: wait, one sample of the pin, and the safety action when it is high; the same in
every mode (R189, R190). -/
def State.indexPulse (c : Cfg) (s : State) : State :=
  let s := s.withHid { s.hid with debounce := c.tDebounce }
  let s := s.act (.wait s.hid.debounce)
  let s := s.withHid { s.hid with debounce := 0 }
  let (p, s) := s.drawIndexPin
  if p then s.zeroCurrent else s

/-- `INDEX` (R189). -/
def execIndex (s : State) : Host.Outcome State Fault Refusal := .next (s.accept.indexPulse cfg).finish

/-- `SINCOS_SAMPLE` about a given configuration (R166, R174): two calibrated signals, their squared magnitude, and one of
three branches. Numbers that are not finite follow the same steps (R173; log 13). -/
def State.sincosSample (c : Cfg) (rawSin rawCos : F32) (s : State) : State :=
  if s.regs.mode = .sinCosAnalog then
    let sn := fsub (fmul rawSin s.regs.sinGain) s.regs.sinOffset
    let cs := fsub (fmul rawCos s.regs.cosGain) s.regs.cosOffset
    match band (magnitudeSq sn cs) with
    | .above => s.raiseFault c .signalAboveMax
    | .below => s.raiseFault c .signalBelowMin
    | .valid => s.acceptSincos c sn cs
  else s

/-- `SINCOS_SAMPLE raw_sin, raw_cos` (R166). -/
def execSincosSample (rawSin rawCos : F32) (s : State) : Host.Outcome State Fault Refusal :=
  .next (s.accept.sincosSample cfg rawSin rawCos).finish

end Sys2Proof.Machine
end

