-- ==== Sys2Proof/Machine/Frames.lean ====
section
/-! DEFINITION. The four frame formats as steps of their own (`30_encoding.md` R87 to R91): the word sent is the transfer
half of `TICK`, the word received its decoding half. A frame acts in the mode whose `TICK` moves it and nowhere else
(R60, R96, R209; log 16). -/

namespace Sys2Proof.Machine

/-- `ABS_CMD`: the all-ones word is sent to the absolute encoder and a word comes back (R87, R133). -/
def execAbsCmd (s : State) : Host.Outcome State Fault Refusal :=
  let s := s.accept
  if s.regs.mode = .absoluteSpi then
    let (w, s) := s.xferWord cfg (some [absCmdWord])
    .next (s.giveResult [zext16 w]).finish
  else .next s.finish

/-- `ABS_REPLY w`: a word received from the absolute encoder is decoded (R88, R133 to R136). -/
def execAbsReply (w : U16) (s : State) : Host.Outcome State Fault Refusal :=
  let s := s.accept
  if s.regs.mode = .absoluteSpi then .next (s.receiveAbs cfg w).finish else .next s.finish

/-- `RES_CMD`: the line is held high for the word sent to the resolver converter and a word comes back (R91, R150). -/
def execResCmd (s : State) : Host.Outcome State Fault Refusal :=
  let s := s.accept
  if s.regs.mode = .resolverSpi then
    let (w, s) := s.xferWord cfg none
    .next (s.giveResult [zext16 w]).finish
  else .next s.finish

/-- `RES_REPLY w`: a word received from the resolver converter is decoded (R89, R150 to R154). -/
def execResReply (w : U16) (s : State) : Host.Outcome State Fault Refusal :=
  let s := s.accept
  if s.regs.mode = .resolverSpi then .next (s.receiveRes cfg w).finish else .next s.finish

end Sys2Proof.Machine
end

