-- ==== Sys2Proof/Machine/Internal.lean ====
section
/-! DEFINITION. The six internal functions as steps of their own (`30_encoding.md` R80). They cannot be invoked from the
ports; the operations use the same definitions. Run on its own, a function leaves its value in `Out.result` and writes no
register (log 19). -/

namespace Sys2Proof.Machine

/-- `XFER(out, n)` (R110). -/
def execXfer (out : Option (List U16)) (n : Nat) (s : State) : Host.Outcome State Fault Refusal :=
  let (rs, s) := s.accept.xfer cfg out n
  .next (s.giveResult (rs.map zext16)).finish

/-- `MAJ5(s0, s1, s2, s3, s4)` (R113). -/
def execMaj5 (s0 s1 s2 s3 s4 : Bool) (s : State) : Host.Outcome State Fault Refusal :=
  .next (s.accept.giveResult [zext1 (maj5 s0 s1 s2 s3 s4)]).finish

/-- `PARITY16(w)` (R130). -/
def execParity16 (w : U16) (s : State) : Host.Outcome State Fault Refusal :=
  .next (s.accept.giveResult [zext1 (parity16 w)]).finish

/-- `LPF(v, t, k)` (R230). -/
def execLpf (v t k : F32) (s : State) : Host.Outcome State Fault Refusal :=
  .next (s.accept.giveResult [lpfStep v t k]).finish

/-- `ATAN2DEG(s, c)` (R172). -/
def execAtan2deg (sn cs : F32) (s : State) : Host.Outcome State Fault Refusal :=
  .next (s.accept.giveResult [cfg.atan2deg sn cs]).finish

/-- `WRAP(a)` (R206); of a non-finite angle it is any value (U4; log 14). -/
def execWrap (a : F32) (s : State) : Host.Outcome State Fault Refusal :=
  if isFinite a then .next (s.accept.giveResult [wrapAngle cfg.angleWrap a]).finish
  else
    let (v, s) := s.accept.takeFree
    .next (s.giveResult [v]).finish

end Sys2Proof.Machine
end

