-- ==== Sys2Proof/Machine/ModeCommands.lean ====
section
/-! DEFINITION. The commands that write `MODE` or `CPR` (`45_mode_facade.md` R200 to R205, R210 to R213; `44_quadrature.md`
R186, R188). Each `INIT_*` and `DEINIT` leaves every register it does not set at its default. -/

namespace Sys2Proof.Machine

/-- `config_counter(cpr)` (R186). For a `cpr` outside its legal range the two values are free (U3; log 12). -/
def State.configCounterFor (cpr : U32) (s : State) : State :=
  if cprLegal cpr then s.configCounter (counterModulus cpr) (counterInit cpr)
  else
    let (m, s) := s.takeFree
    let (i, s) := s.takeFree
    s.configCounter m i

/-- `INIT_QUAD cpr` (R201, R186). Its registers and the pins change at its end (R14, R211), after the pulse to the counter. -/
def execInitQuad (cpr : U32) (s : State) : Host.Outcome State Fault Refusal :=
  .next ((s.accept.configCounterFor cpr).enterMode { Regs.default with mode := .quadrature, cpr := cpr }).finish

/-- `INIT_ABS` (R202). -/
def execInitAbs (s : State) : Host.Outcome State Fault Refusal :=
  .next (s.accept.enterMode { Regs.default with mode := .absoluteSpi }).finish

/-- `INIT_RES` (R203). -/
def execInitRes (s : State) : Host.Outcome State Fault Refusal :=
  .next (s.accept.enterMode { Regs.default with mode := .resolverSpi }).finish

/-- `INIT_SINCOS sin_gain, sin_offset, cos_gain, cos_offset, k`: stored bit for bit, nothing checked (R204, D35). -/
def execInitSincos (sg so cg co k : F32) (s : State) : Host.Outcome State Fault Refusal :=
  .next (s.accept.enterMode
    { Regs.default with
      mode := .sinCosAnalog, sinGain := sg, sinOffset := so, cosGain := cg, cosOffset := co, scFilterK := k }).finish

/-- `DEINIT` (R205). -/
def execDeinit (s : State) : Host.Outcome State Fault Refusal :=
  .next (s.accept.enterMode Regs.default).finish

/-- `SET_COUNTS cpr`: the divisor only, in every mode (R188). -/
def execSetCounts (cpr : U32) (s : State) : Host.Outcome State Fault Refusal :=
  let s := s.accept
  .next (s.withRegs { s.regs with cpr := cpr }).finish

end Sys2Proof.Machine
end

