-- ==== Sys2Proof/Machine/Queries.lean ====
section
/-! DEFINITION. The commands that respond (`45_mode_facade.md` R206 to R208). None writes a register (R68). -/

namespace Sys2Proof.Machine

/-- `READ_ANGLE` (R206, R187). In `Quadrature` mode with a `CPR` outside its legal range the response is any value
(U3; log 12). -/
def execReadAngle (s : State) : Host.Outcome State Fault Refusal :=
  let s := s.accept
  match s.regs.mode with
  | .quadrature =>
    let (n, s) := s.drawQcnt
    if cprLegal s.regs.cpr then .next (s.respondAngle cfg (quadAngle n s.regs.cpr)).finish
    else
      let (v, s) := s.takeFree
      .next (s.respond v).finish
  | .none => .next (s.respondAngle cfg s.regs.lastAngle).finish
  | .absoluteSpi => .next (s.respondAngle cfg s.regs.lastAngle).finish
  | .resolverSpi => .next (s.respondAngle cfg s.regs.lastAngle).finish
  | .sinCosAnalog => .next (s.respondAngle cfg s.regs.lastAngle).finish

/-- `IS_CONFIGURED` (R207). -/
def execIsConfigured (s : State) : Host.Outcome State Fault Refusal :=
  let s := s.accept
  .next (s.respond (zext1 (isConfigured s.regs.mode))).finish

/-- The diagnostic space: seven locations, the rest read as zero (R61, R92, R94). -/
def diagValue (r : Regs) (idx : U32) : U32 :=
  match idx.toNat with
  | 0 => zext16 r.spiVal
  | 1 => r.spiErrCnt
  | 2 => r.spiErrRate
  | 3 => r.scBelowCnt
  | 4 => r.scBelowRate
  | 5 => r.scAboveCnt
  | 6 => r.scAboveRate
  | _ => 0

/-- `RD_DIAG idx` (R208). -/
def execRdDiag (idx : U32) (s : State) : Host.Outcome State Fault Refusal :=
  let s := s.accept
  .next (s.respond (diagValue s.regs idx)).finish

end Sys2Proof.Machine
end

