-- ==== Sys2Proof/Machine/Reserved.lean ====
section
/-! DEFINITION. The reserved command codes (`30_encoding.md` R93): accepted, no register, no pin, no response, ready again. -/

namespace Sys2Proof.Machine

/-- Accepted with no effect (R93). -/
def State.acceptedNoEffect (s : State) : State := s.accept.finish

/-- Reserved code `0x0` (R93). -/
def execReserved0 (s : State) : Host.Outcome State Fault Refusal := .next s.acceptedNoEffect

/-- Reserved code `0xA` (R93). -/
def execReservedA (s : State) : Host.Outcome State Fault Refusal := .next s.acceptedNoEffect

/-- Reserved code `0xB` (R93). -/
def execReservedB (s : State) : Host.Outcome State Fault Refusal := .next s.acceptedNoEffect

/-- Reserved code `0xC` (R93). -/
def execReservedC (s : State) : Host.Outcome State Fault Refusal := .next s.acceptedNoEffect

/-- Reserved code `0xD` (R93). -/
def execReservedD (s : State) : Host.Outcome State Fault Refusal := .next s.acceptedNoEffect

/-- Reserved code `0xE` (R93). -/
def execReservedE (s : State) : Host.Outcome State Fault Refusal := .next s.acceptedNoEffect

/-- Reserved code `0xF` (R93). -/
def execReservedF (s : State) : Host.Outcome State Fault Refusal := .next s.acceptedNoEffect

end Sys2Proof.Machine
end

