-- ==== Sys2Proof/Machine/Dispatch.lean ====
section
/-! DEFINITION. One arm for each row of `spec/opcode_table.json`, in the table's order. -/

namespace Sys2Proof.Machine

def exec (i : Instr) (s : State) : Host.Outcome State Fault Refusal :=
  match i with
  | .initQuad cpr => Sys2Proof.Machine.execInitQuad cpr s
  | .initAbs => Sys2Proof.Machine.execInitAbs s
  | .initRes => Sys2Proof.Machine.execInitRes s
  | .initSincos sg so cg co k => Sys2Proof.Machine.execInitSincos sg so cg co k s
  | .deinit => Sys2Proof.Machine.execDeinit s
  | .setCounts cpr => Sys2Proof.Machine.execSetCounts cpr s
  | .readAngle => Sys2Proof.Machine.execReadAngle s
  | .isConfigured => Sys2Proof.Machine.execIsConfigured s
  | .rdDiag idx => Sys2Proof.Machine.execRdDiag idx s
  | .reserved0 => Sys2Proof.Machine.execReserved0 s
  | .reservedA => Sys2Proof.Machine.execReservedA s
  | .reservedB => Sys2Proof.Machine.execReservedB s
  | .reservedC => Sys2Proof.Machine.execReservedC s
  | .reservedD => Sys2Proof.Machine.execReservedD s
  | .reservedE => Sys2Proof.Machine.execReservedE s
  | .reservedF => Sys2Proof.Machine.execReservedF s
  | .tick => Sys2Proof.Machine.execTick s
  | .index => Sys2Proof.Machine.execIndex s
  | .sincosSample rawSin rawCos => Sys2Proof.Machine.execSincosSample rawSin rawCos s
  | .absCmd => Sys2Proof.Machine.execAbsCmd s
  | .absReply w => Sys2Proof.Machine.execAbsReply w s
  | .resCmd => Sys2Proof.Machine.execResCmd s
  | .resReply w => Sys2Proof.Machine.execResReply w s
  | .xfer out n => Sys2Proof.Machine.execXfer out n s
  | .maj5 s0 s1 s2 s3 s4 => Sys2Proof.Machine.execMaj5 s0 s1 s2 s3 s4 s
  | .parity16 w => Sys2Proof.Machine.execParity16 w s
  | .lpf v t k => Sys2Proof.Machine.execLpf v t k s
  | .atan2deg sn cs => Sys2Proof.Machine.execAtan2deg sn cs s
  | .wrap a => Sys2Proof.Machine.execWrap a s

end Sys2Proof.Machine
end

