-- ==== Sys2Proof/Decode.lean ====
section
/-! DEFINITION. The decoder from the ports to operations (`30_encoding.md` R81, R82, R84, R85, R87 to R91, R93), total and
rejecting by name; after it the encoder; then the rows of `spec/opcode_table.json` as data. -/

namespace Sys2Proof

/-- Why a port value is no operation. -/
inductive DecodeError where
  /-- No strobe of the vector is 1: nothing was raised (R85). -/
  | noStrobe
  /-- More than one strobe is 1: the arbiter takes them one after another (R263) before they are decoded. -/
  | severalStrobes
  /-- A frame while `MODE` is no serial mode: the bus is released and carries none (R41, R60). -/
  | noFrameInMode
  /-- A word sent to the sensor that the block never sends: it sends all ones only (R87, R91, R114). -/
  | neverSent
  /-- The functions of R80 that have no encoding. -/
  | internalFunction
deriving DecidableEq, Repr

/-- A command by its code (R82); every one of the sixteen codes is accepted (R93). -/
def decodeCommand (p : BitVec 164) : Instr :=
  match (Machine.cmdOp p).toNat with
  | 0x1 => .initQuad (Machine.cmdA0 p)
  | 0x2 => .initAbs
  | 0x3 => .initRes
  | 0x4 => .initSincos (Machine.cmdA0 p) (Machine.cmdA1 p) (Machine.cmdA2 p) (Machine.cmdA3 p) (Machine.cmdA4 p)
  | 0x5 => .deinit
  | 0x6 => .setCounts (Machine.cmdA0 p)
  | 0x7 => .readAngle
  | 0x8 => .isConfigured
  | 0x9 => .rdDiag (Machine.cmdA0 p)
  | 0xA => .reservedA
  | 0xB => .reservedB
  | 0xC => .reservedC
  | 0xD => .reservedD
  | 0xE => .reservedE
  | 0xF => .reservedF
  | _ => .reserved0

/-- An event by its strobe, `tick` in bit 0, `index_evt` in bit 1, `sc_valid` in bit 2 (R85). -/
def decodeEvent (strobes : BitVec 3) (rawSin rawCos : F32) : Except DecodeError Instr :=
  match strobes.toNat with
  | 0 => .error .noStrobe
  | 1 => .ok .tick
  | 2 => .ok .index
  | 4 => .ok (.sincosSample rawSin rawCos)
  | _ => .error .severalStrobes

/-- A frame: its format is chosen by `MODE` alone (R96), and both words sent are all ones (R87, R91). -/
def decodeFrame (m : Mode) (dir : FrameDir) (w : U16) : Except DecodeError Instr :=
  match m, dir with
  | .absoluteSpi, .toSensor => if w = Machine.absCmdWord then .ok .absCmd else .error .neverSent
  | .absoluteSpi, .fromSensor => .ok (.absReply w)
  | .resolverSpi, .toSensor => if w = Machine.idleWord then .ok .resCmd else .error .neverSent
  | .resolverSpi, .fromSensor => .ok (.resReply w)
  | .none, _ => .error .noFrameInMode
  | .quadrature, _ => .error .noFrameInMode
  | .sinCosAnalog, _ => .error .noFrameInMode

/-- The decoder. Commands and events decode alike in every mode (R96). -/
def decode (m : Mode) : Encoding → Except DecodeError Instr
  | .command p => .ok (decodeCommand p)
  | .event strobes rawSin rawCos => decodeEvent strobes rawSin rawCos
  | .frame dir w => decodeFrame m dir w
  | .internal => .error .internalFunction

/-- A command with its unused argument fields zero; their value has no effect (R84). -/
def commandOf (op : BitVec 4) (a0 : U32 := 0) (a1 : U32 := 0) (a2 : U32 := 0) (a3 : U32 := 0) (a4 : U32 := 0) :
    Encoding :=
  .command (Machine.cmdPort op a0 a1 a2 a3 a4)

/-- The encoder, from the tables of R82, R85 and R87 to R91. -/
def encode : Instr → Encoding
  | .initQuad cpr => commandOf 0x1 cpr
  | .initAbs => commandOf 0x2
  | .initRes => commandOf 0x3
  | .initSincos sg so cg co k => commandOf 0x4 sg so cg co k
  | .deinit => commandOf 0x5
  | .setCounts cpr => commandOf 0x6 cpr
  | .readAngle => commandOf 0x7
  | .isConfigured => commandOf 0x8
  | .rdDiag idx => commandOf 0x9 idx
  | .reserved0 => commandOf 0x0
  | .reservedA => commandOf 0xA
  | .reservedB => commandOf 0xB
  | .reservedC => commandOf 0xC
  | .reservedD => commandOf 0xD
  | .reservedE => commandOf 0xE
  | .reservedF => commandOf 0xF
  | .tick => .event 0b001 0 0
  | .index => .event 0b010 0 0
  | .sincosSample rawSin rawCos => .event 0b100 rawSin rawCos
  | .absCmd => .frame .toSensor Machine.absCmdWord
  | .absReply w => .frame .fromSensor w
  | .resCmd => .frame .toSensor Machine.idleWord
  | .resReply w => .frame .fromSensor w
  | .xfer _ _ => .internal
  | .maj5 _ _ _ _ _ => .internal
  | .parity16 _ => .internal
  | .lpf _ _ _ => .internal
  | .atan2deg _ _ => .internal
  | .wrap _ => .internal

/-- The internal functions, which have no encoding (R80). -/
def Instr.isInternal : Instr → Bool
  | .xfer _ _ | .maj5 _ _ _ _ _ | .parity16 _ | .lpf _ _ _ | .atan2deg _ _ | .wrap _ => true
  | .initQuad _ | .initAbs | .initRes | .initSincos _ _ _ _ _ | .deinit | .setCounts _ | .readAngle | .isConfigured
  | .rdDiag _ | .reserved0 | .reservedA | .reservedB | .reservedC | .reservedD | .reservedE | .reservedF | .tick
  | .index | .sincosSample _ _ | .absCmd | .absReply _ | .resCmd | .resReply _ => false

/-- The mode in which an encoding is read as this operation: frames are read by `MODE` alone (R96), all else in every
mode. -/
def Instr.readIn (m : Mode) : Instr → Bool
  | .absCmd | .absReply _ => m == .absoluteSpi
  | .resCmd | .resReply _ => m == .resolverSpi
  | .initQuad _ | .initAbs | .initRes | .initSincos _ _ _ _ _ | .deinit | .setCounts _ | .readAngle | .isConfigured
  | .rdDiag _ | .reserved0 | .reservedA | .reservedB | .reservedC | .reservedD | .reservedE | .reservedF | .tick
  | .index | .sincosSample _ _ | .xfer _ _ | .maj5 _ _ _ _ _ | .parity16 _ | .lpf _ _ _ | .atan2deg _ _ | .wrap _ =>
    true

/-- The port value that a number of the opcode table stands for: 16 bits are a frame on the serial bus (the all-ones
word is the one sent, R87), any other width is the command port, its missing bits 0 (log 3, log 17). -/
def encodingOfTable (nbits w : Nat) : Encoding :=
  if nbits = 16 then
    if w % 2 ^ 16 = 0xFFFF then .frame .toSensor Machine.absCmdWord
    else .frame .fromSensor (BitVec.ofNat 16 w)
  else .command (BitVec.ofNat 164 w)

/-- The mode the number is read in: the absolute-encoder mode for a frame, which is read by `MODE` (R96, log 17). -/
def modeOfTable (nbits : Nat) (m : Mode) : Mode := if nbits = 16 then .absoluteSpi else m

/-- The operation this decoder reads from a number of the opcode table. -/
def decodeTableWord (nbits w : Nat) : Option Instr :=
  match decode (modeOfTable nbits .none) (encodingOfTable nbits w) with
  | .ok i => some i
  | .error _ => none

/-- The `format` column of `spec/opcode_table.json`. -/
inductive RowFormat where
  | cmd
  | event
  | frame
  | internal
deriving DecidableEq, Repr

/-- A row of `spec/opcode_table.json`: its fixed bits are those of `mask`, with the value `fixed`. A row whose table entry
has a pattern of `x` and letters only has no fixed bit; an event's one fixed bit is its strobe. -/
structure Row where
  mnemonic : String
  format : RowFormat
  mask : Nat
  fixed : Nat
deriving DecidableEq, Repr

/-- The row of an operation. -/
def Instr.row : Instr → Row
  | .initQuad _ => ⟨"INIT_QUAD", .cmd, 0xF, 0x1⟩
  | .initAbs => ⟨"INIT_ABS", .cmd, 0xF, 0x2⟩
  | .initRes => ⟨"INIT_RES", .cmd, 0xF, 0x3⟩
  | .initSincos _ _ _ _ _ => ⟨"INIT_SINCOS", .cmd, 0xF, 0x4⟩
  | .deinit => ⟨"DEINIT", .cmd, 0xF, 0x5⟩
  | .setCounts _ => ⟨"SET_COUNTS", .cmd, 0xF, 0x6⟩
  | .readAngle => ⟨"READ_ANGLE", .cmd, 0xF, 0x7⟩
  | .isConfigured => ⟨"IS_CONFIGURED", .cmd, 0xF, 0x8⟩
  | .rdDiag _ => ⟨"RD_DIAG", .cmd, 0xF, 0x9⟩
  | .reserved0 => ⟨"RESERVED_0", .cmd, 0xF, 0x0⟩
  | .reservedA => ⟨"RESERVED_A", .cmd, 0xF, 0xA⟩
  | .reservedB => ⟨"RESERVED_B", .cmd, 0xF, 0xB⟩
  | .reservedC => ⟨"RESERVED_C", .cmd, 0xF, 0xC⟩
  | .reservedD => ⟨"RESERVED_D", .cmd, 0xF, 0xD⟩
  | .reservedE => ⟨"RESERVED_E", .cmd, 0xF, 0xE⟩
  | .reservedF => ⟨"RESERVED_F", .cmd, 0xF, 0xF⟩
  | .tick => ⟨"TICK", .event, 0b001, 0b001⟩
  | .index => ⟨"INDEX", .event, 0b010, 0b010⟩
  | .sincosSample _ _ => ⟨"SINCOS_SAMPLE", .event, 0b100, 0b100⟩
  | .absCmd => ⟨"ABS_CMD", .frame, 0xFFFF, 0xFFFF⟩
  | .absReply _ => ⟨"ABS_REPLY", .frame, 0, 0⟩
  | .resCmd => ⟨"RES_CMD", .frame, 0xFFFF, 0xFFFF⟩
  | .resReply _ => ⟨"RES_REPLY", .frame, 0, 0⟩
  | .xfer _ _ => ⟨"XFER", .internal, 0, 0⟩
  | .maj5 _ _ _ _ _ => ⟨"MAJ5", .internal, 0, 0⟩
  | .parity16 _ => ⟨"PARITY16", .internal, 0, 0⟩
  | .lpf _ _ _ => ⟨"LPF", .internal, 0, 0⟩
  | .atan2deg _ _ => ⟨"ATAN2DEG", .internal, 0, 0⟩
  | .wrap _ => ⟨"WRAP", .internal, 0, 0⟩

/-- A port value has the format of a row and the row's fixed bits. -/
def Encoding.matchesRow (e : Encoding) (r : Row) : Bool :=
  match e, r.format with
  | .command p, .cmd => p.toNat &&& r.mask == r.fixed
  | .event v _ _, .event => v.toNat &&& r.mask == r.fixed
  | .frame _ w, .frame => w.toNat &&& r.mask == r.fixed
  | .internal, .internal => true
  | _, _ => false

end Sys2Proof
end

