-- ==== Sys2Proof/Machine/Fetch.lean ====
section
/-! DEFINITION. What the block accepts next (`60_exceptions.md` R260 to R265): it takes the arrivals of the input ports one at
a time, in the order the input script settles (log 2, log 4). -/

namespace Sys2Proof.Machine

/-- What stands before the block. -/
inductive Fetched where
  /-- Nothing is accepted: no operation runs, and this is the state after it. -/
  | quiet (s : State)
  /-- An operation is accepted in this state; `rst` may rise during it, after a number of trace entries. -/
  | operation (i : Instr) (s : State) (rstAfter : Option Nat)
  /-- The machine stops with a fault. -/
  | fault (f : Fault)
  /-- The machine refuses the arrival. -/
  | refused (r : Refusal)
deriving DecidableEq, Repr

/-- The strobe of a source in the vector of R85; a command has none. -/
def Source.strobe : Source → BitVec 3
  | .tick => 0b001
  | .index => 0b010
  | .sample => 0b100
  | .command => 0b000

/-- A source asks for an operation in this cycle (R260). -/
def PortCycle.asks (c : PortCycle) : Source → Bool
  | .tick => c.strobes.getLsbD 0
  | .index => c.strobes.getLsbD 1
  | .sample => c.strobes.getLsbD 2
  | .command => c.cmdValid

/-- The source taken first among those that ask (R263). -/
def PortCycle.first (c : PortCycle) : Option Source :=
  (c.order ++ [Source.tick, Source.index, Source.sample, Source.command]).find? c.asks

/-- The cycle with one source served. -/
def PortCycle.served (c : PortCycle) (src : Source) : PortCycle :=
  { c with
    strobes := c.strobes &&& ~~~src.strobe
    cmdValid := c.cmdValid && src != .command }

/-- What a source presents to the decoder: the command port, or its own strobe with the analog pair (R81, R85). -/
def PortCycle.encoding (c : PortCycle) : Source → Encoding
  | .command => .command c.cmdPort
  | .tick => .event Source.tick.strobe c.rawSin c.rawCos
  | .index => .event Source.index.strobe c.rawSin c.rawCos
  | .sample => .event Source.sample.strobe c.rawSin c.rawCos

/-- Some source still asks. -/
def PortCycle.asksAny (c : PortCycle) : Bool := c.strobes != 0 || c.cmdValid

/-- The arrivals left to come. -/
def State.withArrivals (as : List Arrival) (s : State) : State := { s with env := { s.env with arrivals := as } }

/-- The arrivals after one source of a cycle is served: the others of that cycle are still to be served, none lost (R263),
unless `rst` rises during the operation, which nothing that waits survives (log 6). -/
def PortCycle.remaining (c : PortCycle) (src : Source) (rest : List Arrival) : List Arrival :=
  if c.rstAfter.isNone && (c.served src).asksAny then .ports (c.served src) :: rest else rest

/-- One cycle of the input ports before an idle block. -/
def State.fetchCycle (c : PortCycle) (rest : List Arrival) (s : State) : Fetched :=
  if c.rst then .quiet ((s.withArrivals rest).resetAfter [] s.free)
  else if c.whileBusy && c.strobes != 0 then .refused .eventWhileBusy
  else
    match c.first with
    | none => .quiet ((s.withArrivals rest).accept.finish)
    | some src =>
      match decode s.regs.mode (c.encoding src) with
      | .ok i => .operation i (s.withArrivals (c.remaining src rest)) c.rstAfter
      -- never taken: every command code and every single strobe decodes
      | .error _ => .fault .frameOutsideTransfer

/-- The next operation. Before an idle block with nothing arriving, nothing changes but that the pulses of the last operation
are over (R17, R48). A block that is busy accepts no operation of R80 from its ports (R262): a command waits, an event strobe is
refused (R264). DESIGN CHOICE (log 16, unsafe): a frame is accepted whatever `BUSY` is. It is the model's own event; a word moves
inside a transfer, hence while `BUSY = 1`, and R38 does not speak of it. -/
def State.fetch (s : State) : Fetched :=
  match s.env.arrivals with
  | [] => .quiet s.accept.finish
  | .ports c :: rest =>
    if !s.cmdReady && !c.rst then
      if c.strobes != 0 then .refused .eventWhileBusy else .quiet s.finish
    else s.fetchCycle c rest
  | .frame dir w :: rest =>
    match decode s.regs.mode (.frame dir w) with
    | .ok i => .operation i (s.withArrivals rest) none
    | .error _ => .fault .frameOutsideTransfer

/-- The state after an operation accepted in `s0` ran to `t`, if `rst` rises after `k` entries of its trace (R40, R281). -/
def State.cutByReset (s0 : State) (k : Nat) (t : State) : State := s0.resetAfter (cutTrace k t.out.trace) t.free

/-- A port cycle in which the host presents a command and nothing else happens. -/
def PortCycle.commandOnly (port : BitVec 164) : PortCycle where
  rst := false
  strobes := 0
  rawSin := 0
  rawCos := 0
  cmdValid := true
  cmdPort := port
  order := []
  whileBusy := false
  rstAfter := none

/-- The arrival that presents a number of the opcode table (log 3, log 17). -/
def arrivalOfTable (nbits w : Nat) : Arrival :=
  match encodingOfTable nbits w with
  | .command p => .ports (PortCycle.commandOnly p)
  | .frame dir x => .frame dir x
  | .event v rawSin rawCos =>
    .ports { PortCycle.commandOnly 0 with strobes := v, rawSin := rawSin, rawCos := rawCos, cmdValid := false }
  | .internal => .ports { PortCycle.commandOnly 0 with cmdValid := false }

/-- `s` with that arrival first in line before an idle block, in the mode the number is read in, with that mode's pins. -/
def State.presentTable (nbits w : Nat) (s : State) : State :=
  { s with
    hid := Hidden.idle
    regs := { s.regs with mode := modeOfTable nbits s.regs.mode }
    ports := { s.ports with
      pins := if nbits = 16 then Pins.ofMode (modeOfTable nbits s.regs.mode) else s.ports.pins }
    env := { s.env with arrivals := arrivalOfTable nbits w :: s.env.arrivals } }

end Sys2Proof.Machine
end

