-- ==== Sys2Proof/Machine/Step.lean ====
section
/-! DEFINITION. One step of the block: one whole operation, or a cycle in which nothing is accepted (`00_scope.md` R14, R18;
log 1). -/

namespace Sys2Proof.Machine

/-- The block accepts what stands before it and runs it to its end (R262), or to the `rst` that abandons it (R40). -/
def step (s : State) : Host.Outcome State Fault Refusal :=
  match s.fetch with
  | .quiet t => .next t
  | .fault f => .fault f
  | .refused r => .refused r
  | .operation i s0 none => exec i s0
  | .operation i s0 (some k) =>
    match exec i s0 with
    | .next t => .next (s0.cutByReset k t)
    | .fault f => .fault f
    | .refused r => .refused r

/-- `s` with a number of the opcode table presented as the next arrival (log 2, log 3, log 17). -/
def State.withFetchWord (s : State) (nbits w : Nat) : State := s.presentTable nbits w

end Sys2Proof.Machine
end

