-- ==== Sys2Proof/Safety.lean ====
section
/-! DEFINITION. The terms that claims about the block use: what the environment will answer, what a transfer does on the wire,
and the invariants of a run. -/

namespace Sys2Proof.Machine

/-! ### What the environment will answer (R17 e, R112) -/

/-- The `k`-th sample of `MISO` still to come: the script's, then free bits (log 7). -/
def State.misoAt (s : State) (k : Nat) : Bool :=
  if k < s.env.miso.length then s.env.miso.getD k false else Config.freeBit (s.free + (k - s.env.miso.length))

/-- The sample of `INDEX_PIN` still to come. -/
def State.indexPinNext (s : State) : Bool := s.env.indexPin.headD (Config.freeBit s.free)

/-- The count on `QCNT` still to come. -/
def State.qcntNext (s : State) : U32 := s.env.qcnt.headD (Config.freeWord s.free)

/-- The environment after `n` samples of `MISO`. -/
def State.afterMiso (n : Nat) (s : State) : State :=
  { s with env := { s.env with miso := s.env.miso.drop n }, free := s.free + (n - s.env.miso.length) }

/-- The environment after one sample of `INDEX_PIN`. -/
def State.afterIndexPin (s : State) : State :=
  { s with env := { s.env with indexPin := s.env.indexPin.drop 1 }, free := s.free + (1 - s.env.indexPin.length) }

/-- The environment after one read of `QCNT`. -/
def State.afterQcnt (s : State) : State :=
  { s with env := { s.env with qcnt := s.env.qcnt.drop 1 }, free := s.free + (1 - s.env.qcnt.length) }

/-- The vote on bit `b` of word `i` of the next transfer: five draws in a row, 80 to a word, bit 15 first (R112). -/
def State.incomingBit (s : State) (i b : Nat) : Bool :=
  let k := 80 * i + 5 * (15 - b)
  maj5 (s.misoAt k) (s.misoAt (k + 1)) (s.misoAt (k + 2)) (s.misoAt (k + 3)) (s.misoAt (k + 4))

/-- Word `i` of the next transfer (R112). -/
def State.incomingWord (s : State) (i : Nat) : U16 :=
  (List.range 16).foldl (fun w b => if s.incomingBit i b then w ||| BitVec.twoPow 16 b else w) 0

/-! ### What a transfer does on the wire (R110, R114 to R116) -/

/-- The trace of one bit period: data out, clock up, settle, five samples, wait, clock down, wait (R110). -/
def bitActs (c : Cfg) (out : Bool) (x : Nat → Bool) : List PinAct :=
  [.write .mosi out, .write .sck true, .wait c.tSettle, .sampleMiso (x 0), .sampleMiso (x 1), .sampleMiso (x 2),
    .sampleMiso (x 3), .sampleMiso (x 4), .wait c.tPost, .write .sck false, .wait c.tLow]

/-- The trace of a word, bit 15 first (R64, R110). -/
def wordActs (c : Cfg) (send : U16) (x : Nat → Bool) : List PinAct :=
  (List.range 16).flatMap fun k => bitActs c (send.getLsbD (15 - k)) (fun j => x (5 * k + j))

/-- The trace of a transfer: one assertion of `CS_N` around its words, in slot order (R65, R110, R116). -/
def xferActs (c : Cfg) (words : List U16) (x : Nat → Bool) : List PinAct :=
  [.write .csN false, .wait c.tCsSetup]
    ++ (words.zipIdx.flatMap fun p => wordActs c p.1 (fun j => x (80 * p.2 + j)))
    ++ [.write .mosi true, .wait c.tCsHold, .write .csN true]

/-- The trace of the control-line sequence (R151). -/
def controlActs (c : Cfg) : List PinAct :=
  [.write .resRdvel true, .write .resSampleN false, .wait c.tResSample, .write .resSampleN true]

/-! ### The end of an operation -/

/-- The ports when an operation has made no pulse: the pulses of the one before are over (R48). `rsp_data` is any `d`: it means
nothing while `rsp_valid` is 0 (R280, log 20). -/
def Ports.ended (p : Ports) (pins : Pins) (d : U32) : Ports :=
  { p with pins := pins, zeroCurrentReq := false, qcfgValid := false, rspValid := false, rspData := d }

/-- The ports when an operation responded with `v` and moved no pin (R83). -/
def Ports.responded (p : Ports) (v : U32) : Ports :=
  { p with zeroCurrentReq := false, qcfgValid := false, rspValid := true, rspData := v }

/-- `s` at the end of an operation that leaves these registers, ports and outputs: the hidden state is idle, and the inputs still
to come and the count of free values are those of `s`. -/
def State.leaving (s : State) (regs : Regs) (ports : Ports) (out : Out) : State :=
  { s with regs := regs, hid := Hidden.idle, ports := ports, out := out }

/-- A trace without any write to an output pin or enable (R68, R93). -/
def drivesNoPin (tr : List PinAct) : Bool :=
  tr.all fun a => match a with
    | .write _ _ | .modeRow _ => false
    | .wait _ | .sampleMiso _ | .sampleIndexPin _ | .readQcnt _ | .pulse _ => true

/-- A tracker's counter after one more fault is the count plus one, or any value at the top (R26, U1). -/
def countsOneMore (before after : U32) : Prop := before ≠ 0xFFFFFFFF#32 → after = before + 1

/-! ### Invariants -/

/-- A binary32 pattern in `[+0.0, 1.0]`, `-0.0` excluded (R52, R234). -/
def rateOk (r : F32) : Prop := r.toNat ≤ 0x3F800000

/-- The three rates are in `[0.0, 1.0]` (R52). -/
def Regs.ratesOk (r : Regs) : Prop := rateOk r.spiErrRate ∧ rateOk r.scBelowRate ∧ rateOk r.scAboveRate

/-- The registers that belong to a mode other than `MODE` hold their defaults (R50). `CPR` is left out: `SET_COUNTS` may have
written it in any mode (R188). -/
def Regs.inactiveDefault (r : Regs) : Prop :=
  (r.mode ≠ .sinCosAnalog → r.sinGain = 0 ∧ r.sinOffset = 0 ∧ r.cosGain = 0 ∧ r.cosOffset = 0 ∧ r.scFilterK = 0 ∧
    r.scBelowCnt = 0 ∧ r.scBelowRate = 0 ∧ r.scAboveCnt = 0 ∧ r.scAboveRate = 0) ∧
  (r.mode ≠ .absoluteSpi → r.spiVal = 0 ∧ r.spiErrCnt = 0 ∧ r.spiErrRate = 0)

/-- `LAST_ANGLE` is `+0.0` where no decoder writes it, and in `[0.0, 360.0)` in the two serial modes (R24, R135, R153). -/
def Regs.angleOk (r : Regs) : Prop :=
  match r.mode with
  | .none | .quadrature => r.lastAngle = 0
  | .absoluteSpi | .resolverSpi => r.lastAngle.toNat < f360.toNat
  | .sinCosAnalog => True

/-- Between operations the hidden state is idle (R39) and the pins are a function of `MODE` (R211). -/
def State.settled (s : State) : Prop := s.hid = Hidden.idle ∧ s.ports.pins = Pins.ofMode s.regs.mode

end Sys2Proof.Machine
end

