-- ==== Sys2Proof/WellFormed.lean ====
section
/-! DEFINITION. The legal operands of an operation, as its rule gives them. The block checks none of them
(`60_exceptions.md` R257); what it does with others is U3 and U4 of `93_implementation_defined.md`. -/

namespace Sys2Proof

/-- The operands are in the range their rule gives: R188 and R201 for `cpr`, R204 for gains and offsets (the filter
constant is not checked, D35), R173 for the two voltages, R110 for the words of a transfer, R206 for `WRAP`, A1 of R172
for `ATAN2DEG`. -/
def Instr.wellFormed (nWordsMax : Nat) : Instr → Bool
  | .initQuad cpr => Machine.cprLegal cpr
  | .initSincos sg so cg co _ =>
    Machine.isFinite sg && Machine.isFinite so && Machine.isFinite cg && Machine.isFinite co
  | .setCounts cpr => Machine.cprLegal cpr
  | .sincosSample rs rc => Machine.isFinite rs && Machine.isFinite rc
  | .xfer out n =>
    decide (1 ≤ n) && decide (n ≤ nWordsMax) && (match out with | none => true | some ws => ws.length == n)
  | .wrap a => Machine.isFinite a
  | .atan2deg s c => Machine.isFinite s && Machine.isFinite c
  | .initAbs | .initRes | .deinit | .readAngle | .isConfigured | .rdDiag _ | .reserved0 | .reservedA | .reservedB
  | .reservedC | .reservedD | .reservedE | .reservedF | .tick | .index | .absCmd | .absReply _ | .resCmd | .resReply _
  | .maj5 _ _ _ _ _ | .parity16 _ | .lpf _ _ _ => true

end Sys2Proof
end

