-- ==== Sys2Proof/Certificates/Slice0/Obligations.lean ====
section
/-! DEFINITION. The statements for the provers. Each is about the machine, with every form the spec gives an operation; what
rests on a choice of the model says so. -/

open Sys2Proof Sys2Proof.Machine

/-! ### Commands that write `MODE` or `CPR` -/

/-- R201, with the counter configuration of R186: for a legal `cpr`, `INIT_QUAD` leaves `MODE = Quadrature`, `CPR = cpr` and every
other register at its default, releases the serial pins, and pulses `QCFG_VALID` with modulus `3*cpr` and start value
`(3*cpr)/2`. Nothing else changes. Its code is `0x1` with `cpr` in `cmd_a0`. -/
def Obligations.InitQuadSetsModeAndCounter : Prop :=
  (∀ (m : Mode) (p : BitVec 164), cmdOp p = 0x1 → decode m (.command p) = .ok (.initQuad (cmdA0 p))) ∧
  ∀ (s : State) (cpr : U32), 1 ≤ cpr.toNat → 3 * cpr.toNat < 2 ^ 32 →
    ∃ (m i d : U32) (tr : List PinAct), m.toNat = 3 * cpr.toNat ∧ i.toNat = 3 * cpr.toNat / 2 ∧
      tr.count (.pulse .qcfgValid) = 1 ∧
      exec (.initQuad cpr) s = .next (s.leaving { Regs.default with mode := .quadrature, cpr := cpr }
        { s.ports.ended (Pins.ofMode .quadrature) d with qcfgValid := true, qcfgModulus := m, qcfgInit := i } ⟨tr, none, []⟩)

/-- R202, R203: `INIT_ABS` and `INIT_RES` leave their mode, every other register at its default, and the pins of their row of
R211. Nothing else changes. Their codes are `0x2` and `0x3`, whatever the argument fields hold. -/
def Obligations.InitSerialModesResetRegistersAndDrivePins : Prop :=
  (∀ (m : Mode) (p : BitVec 164), (cmdOp p = 0x2 → decode m (.command p) = .ok .initAbs) ∧
    (cmdOp p = 0x3 → decode m (.command p) = .ok .initRes)) ∧
  ∀ s : State,
    (∃ d tr, exec .initAbs s = .next (s.leaving { Regs.default with mode := .absoluteSpi }
      (s.ports.ended
        { busOe := true, resOe := false, sck := .driven false, csN := .driven true, mosi := .driven true,
          resRdvel := .released, resSampleN := .released } d) ⟨tr, none, []⟩)) ∧
    (∃ d tr, exec .initRes s = .next (s.leaving { Regs.default with mode := .resolverSpi }
      (s.ports.ended
        { busOe := true, resOe := true, sck := .driven false, csN := .driven true, mosi := .driven true,
          resRdvel := .driven true, resSampleN := .driven true } d) ⟨tr, none, []⟩))

/-- R204: `INIT_SINCOS` stores its five arguments bit for bit, leaves every other register at its default and releases the
pins. Nothing else changes. Its code is `0x4` with the five arguments in order. Arguments that are not finite are outside the
envelope (R204, U4); that they are stored all the same is the model's reading (log 13). -/
def Obligations.InitSincosStoresCalibration : Prop :=
  (∀ (m : Mode) (p : BitVec 164), cmdOp p = 0x4 →
    decode m (.command p) = .ok (.initSincos (cmdA0 p) (cmdA1 p) (cmdA2 p) (cmdA3 p) (cmdA4 p))) ∧
  ∀ (s : State) (sg so cg co k : F32), ∃ d tr,
    exec (.initSincos sg so cg co k) s = .next (s.leaving
      { Regs.default with
        mode := .sinCosAnalog, sinGain := sg, sinOffset := so, cosGain := cg, cosOffset := co, scFilterK := k }
      (s.ports.ended (Pins.ofMode .sinCosAnalog) d) ⟨tr, none, []⟩)

/-- R205: `DEINIT` leaves every register at its default and every serial and resolver pin released, from every state; it makes no
pulse. Its code is `0x5`. -/
def Obligations.DeinitReturnsToDefaults : Prop :=
  (∀ (m : Mode) (p : BitVec 164), cmdOp p = 0x5 → decode m (.command p) = .ok .deinit) ∧
  ∀ s : State, ∃ d tr, exec .deinit s = .next (s.leaving Regs.default
    (s.ports.ended
      { busOe := false, resOe := false, sck := .released, csN := .released, mosi := .released, resRdvel := .released,
        resSampleN := .released } d) ⟨tr, none, []⟩)

/-- R188: `SET_COUNTS` writes `CPR`, in every mode, and touches nothing else: no counter pulse, no pin, no other register. Its
code is `0x6` with `cpr` in `cmd_a0`. -/
def Obligations.SetCountsWritesOnlyCpr : Prop :=
  (∀ (m : Mode) (p : BitVec 164), cmdOp p = 0x6 → decode m (.command p) = .ok (.setCounts (cmdA0 p))) ∧
  ∀ (s : State) (cpr : U32), 1 ≤ cpr.toNat → 3 * cpr.toNat < 2 ^ 32 → ∃ d,
    exec (.setCounts cpr) s = .next (s.leaving { s.regs with cpr := cpr } (s.ports.ended s.ports.pins d) Out.empty)

/-- The model's choice (log 12, from U3): with a `cpr` outside its legal range `INIT_QUAD` and `SET_COUNTS` still write `CPR`,
and only `QCFG_MODULUS` and `QCFG_INIT` are open. -/
def Obligations.IllegalCprStillWritesCpr : Prop :=
  ∀ (s : State) (cpr : U32), cpr.toNat = 0 ∨ 2 ^ 32 ≤ 3 * cpr.toNat →
    (∃ m i d k tr, exec (.initQuad cpr) s = .next { s.leaving { Regs.default with mode := .quadrature, cpr := cpr }
        { s.ports.ended (Pins.ofMode .quadrature) d with qcfgValid := true, qcfgModulus := m, qcfgInit := i }
        ⟨tr, none, []⟩ with free := k }) ∧
    (∃ d, exec (.setCounts cpr) s =
      .next (s.leaving { s.regs with cpr := cpr } (s.ports.ended s.ports.pins d) Out.empty))

/-- R212: what an `INIT_*` or `DEINIT` leaves in the registers and on the pins does not depend on the state before it. -/
def Obligations.ModeCommandsForgetTheState : Prop :=
  ∀ (i : Instr), (match i with | .initQuad _ | .initAbs | .initRes | .initSincos _ _ _ _ _ | .deinit => True | _ => False) →
    ∀ s s' : State, ∃ t t', exec i s = .next t ∧ exec i s' = .next t' ∧ t.regs = t'.regs ∧ t.ports.pins = t'.ports.pins

/-- R210: the next mode is that of the command for `INIT_*` and `DEINIT`, and the present one for every other operation; `rst`
gives `None`. -/
def Obligations.ModeFollowsTransitionTable : Prop :=
  (∀ (i : Instr) (s t : State), exec i s = .next t →
    t.regs.mode = match i with
      | .initQuad _ => .quadrature
      | .initAbs => .absoluteSpi
      | .initRes => .resolverSpi
      | .initSincos _ _ _ _ _ => .sinCosAnalog
      | .deinit => .none
      | _ => s.regs.mode) ∧
  ∀ (s : State) (c : PortCycle) (rest : List Arrival), s.env.arrivals = .ports c :: rest → c.rst = true →
    ∃ t, step s = .next t ∧ t.regs.mode = .none

/-- R213: `INIT_QUAD`, `INIT_SINCOS`, `READ_ANGLE` responds `0.0` whatever the count, and reads no count. -/
def Obligations.NoQuadratureLeakIntoSincos : Prop :=
  ∀ (s : State) (cpr : U32) (sg so cg co k : F32), ∃ t1 t2 t3,
    exec (.initQuad cpr) s = .next t1 ∧ exec (.initSincos sg so cg co k) t1 = .next t2 ∧ exec .readAngle t2 = .next t3 ∧
      t3.ports.rspValid = true ∧ t3.ports.rspData = 0 ∧ t3.env = s.env ∧ t3.free = t1.free

/-- R93: a reserved command code is accepted; no register changes, no pin is driven, no response is made, and the block is idle
again. The reserved codes are `0x0` and `0xA` to `0xF`. -/
def Obligations.ReservedCodesHaveNoEffect : Prop :=
  (∀ (m : Mode) (p : BitVec 164), (cmdOp p).toNat = 0 ∨ 10 ≤ (cmdOp p).toNat →
    ∃ i ∈ [Instr.reserved0, .reservedA, .reservedB, .reservedC, .reservedD, .reservedE, .reservedF],
      decode m (.command p) = .ok i) ∧
  ∀ (s : State) (i : Instr),
    i ∈ [Instr.reserved0, .reservedA, .reservedB, .reservedC, .reservedD, .reservedE, .reservedF] →
      ∃ d, exec i s = .next (s.leaving s.regs (s.ports.ended s.ports.pins d) Out.empty)

/-! ### Queries -/

/-- R207: `IS_CONFIGURED` responds 1 exactly when `MODE` is not `None`, and changes nothing. Its code is `0x8`. -/
def Obligations.IsConfiguredRespondsModeNotNone : Prop :=
  (∀ (m : Mode) (p : BitVec 164), cmdOp p = 0x8 → decode m (.command p) = .ok .isConfigured) ∧
  ∀ s : State, ∃ tr, drivesNoPin tr = true ∧
    exec .isConfigured s =
      .next (s.leaving s.regs (s.ports.responded (if s.regs.mode = .none then 0 else 1)) ⟨tr, none, []⟩)

/-- R208, R92, R94: `RD_DIAG idx` responds with the register of its index, and with 0 from index 7 on; it changes nothing. Its
code is `0x9` with `idx` in `cmd_a0`. -/
def Obligations.RdDiagRespondsIndexedRegister : Prop :=
  (∀ (m : Mode) (p : BitVec 164), cmdOp p = 0x9 → decode m (.command p) = .ok (.rdDiag (cmdA0 p))) ∧
  ∀ (s : State) (idx : U32), ∃ (v : U32) (tr : List PinAct), drivesNoPin tr = true ∧
    exec (.rdDiag idx) s = .next (s.leaving s.regs (s.ports.responded v) ⟨tr, none, []⟩) ∧
    (idx = 0 → v.toNat = s.regs.spiVal.toNat) ∧ (idx = 1 → v = s.regs.spiErrCnt) ∧ (idx = 2 → v = s.regs.spiErrRate) ∧
    (idx = 3 → v = s.regs.scBelowCnt) ∧ (idx = 4 → v = s.regs.scBelowRate) ∧ (idx = 5 → v = s.regs.scAboveCnt) ∧
    (idx = 6 → v = s.regs.scAboveRate) ∧ (7 ≤ idx.toNat → v = 0)

/-- R206: outside `Quadrature` mode, with a finite `LAST_ANGLE`, `READ_ANGLE` responds `WRAP(LAST_ANGLE)` and changes nothing; it
makes no draw. -/
def Obligations.ReadAngleRespondsWrappedLastAngle : Prop :=
  ∀ s : State, s.regs.mode ≠ .quadrature → isFinite s.regs.lastAngle = true → ∃ tr, drivesNoPin tr = true ∧
    exec .readAngle s =
      .next (s.leaving s.regs (s.ports.responded (wrapAngle cfg.angleWrap s.regs.lastAngle)) ⟨tr, none, []⟩)

/-- R187, R206: in `Quadrature` mode with a legal `CPR`, `READ_ANGLE` draws one count and responds with the wrap of
`count * 360 / CPR`, which is finite and not negative for every count; it writes no register. -/
def Obligations.ReadAngleRespondsQuadratureCount : Prop :=
  ∀ s : State, s.regs.mode = .quadrature → 1 ≤ s.regs.cpr.toNat → 3 * s.regs.cpr.toNat < 2 ^ 32 →
    let q := fdiv (fmul (u2f s.qcntNext) f360) (u2f s.regs.cpr)
    isFinite q = true ∧ fSign q = false ∧
      ∃ tr, drivesNoPin tr = true ∧ tr.count (.readQcnt s.qcntNext) = 1 ∧
        exec .readAngle s =
          .next (s.afterQcnt.leaving s.regs (s.ports.responded (wrapAngle cfg.angleWrap q)) ⟨tr, none, []⟩)

/-- R206 ("that call never fails"), R253: `READ_ANGLE` responds in every state, illegal `CPR` and non-finite `LAST_ANGLE` included
(there the value is any: log 12, log 14), and writes no register. -/
def Obligations.ReadAngleNeverFails : Prop :=
  ∀ s : State, ∃ v tr qs k, drivesNoPin tr = true ∧
    exec .readAngle s =
      .next { s.leaving s.regs (s.ports.responded v) ⟨tr, none, []⟩ with env := { s.env with qcnt := qs }, free := k }

/-- R206 corner case (e): the wrap of a finite angle is never negative, never `-0.0`, at most `360.0`, and below `360.0` under
`half_open`. Run on its own, `WRAP` writes no register. -/
def Obligations.WrapResultStaysInOneTurn : Prop :=
  ∀ (s : State) (a : F32), isFinite a = true → ∃ (r d : U32), r.toNat ≤ f360.toNat ∧
    (cfg.angleWrap = .halfOpen → r.toNat < f360.toNat) ∧
    exec (.wrap a) s = .next (s.leaving s.regs (s.ports.ended s.ports.pins d) ⟨[], none, [r]⟩)

/-- R206: the wrap of a finite angle that is not negative is its exact remainder by 360, but that `closed` turns a positive
multiple of 360 into 360. -/
def Obligations.WrapOfNonnegativeAngleIsExactRemainder : Prop :=
  ∀ (w : AngleWrap) (a : F32), isFinite a = true → 0 ≤ fVal a →
    fVal (wrapAngle w a) =
      if w = .closed ∧ 0 < fVal a ∧ fVal a % fVal f360 = 0 then fVal f360 else fVal a % fVal f360

/-- R206 corner case (c): the wrap of a negative finite angle is its residue in `[0, 360)` to one rounding, at most half of the
spacing `2^-15` of binary32 numbers below 360 (`fVal` counts units of `2^-149`); where that gives 360.0, `half_open` answers 0. -/
def Obligations.WrapOfNegativeAngleAddsOneTurn : Prop :=
  ∀ a : F32, isFinite a = true → fVal a < 0 →
    |fVal (wrapAngle .closed a) - fVal a % fVal f360| ≤ 2 ^ 133 ∧
      wrapAngle .halfOpen a = if wrapAngle .closed a = f360 then fZero else wrapAngle .closed a

/-! ### Events -/

/-- R209: `TICK` does nothing in the modes without a serial decoder: no register, no pin, no draw. -/
def Obligations.TickWithoutSerialDecoderDoesNothing : Prop :=
  ∀ s : State, s.regs.mode ≠ .absoluteSpi → s.regs.mode ≠ .resolverSpi → ∃ d,
    exec .tick s = .next (s.leaving s.regs (s.ports.ended s.ports.pins d) Out.empty)

/-- R133 to R135, R110: in `AbsoluteSpi` mode a received word of even parity that is not the sentinel is stored, replaces the angle
and drives the rate toward 0; the transfer sends `0xFFFF` once, takes 80 samples and leaves the pins as they were. -/
def Obligations.TickAcceptsGoodAbsoluteFrame : Prop :=
  ∀ s : State, s.regs.mode = .absoluteSpi → s.settled →
    let w := s.incomingWord 0
    let angle := fdiv (fmul (u2f ((w &&& 0x3FFF#16).setWidth 32)) f360) f16384
    parity16 w = false → w ≠ 0xFFFF#16 → ∃ d,
      exec .tick s = .next ((s.afterMiso 80).leaving
        { s.regs with
          spiVal := w, lastAngle := angle, spiErrRate := lpfStep s.regs.spiErrRate fZero cfg.errFilterK }
        (s.ports.ended s.ports.pins d) ⟨xferActs cfg [0xFFFF#16] s.misoAt, some (.valid angle), []⟩)

/-- R134, R136, R251: in `AbsoluteSpi` mode a received word of odd parity, or the sentinel, is stored and counted, drives the rate
toward 1 and leaves the angle. The count is the old one plus one below the top. A count at the top is outside the envelope (U1); that
the operation then completes with any count is the model's choice (log 11). -/
def Obligations.TickRejectsBadAbsoluteFrame : Prop :=
  ∀ s : State, s.regs.mode = .absoluteSpi → s.settled →
    let w := s.incomingWord 0
    parity16 w = true ∨ w = 0xFFFF#16 → ∃ n k d, countsOneMore s.regs.spiErrCnt n ∧
      (s.regs.spiErrCnt ≠ 0xFFFFFFFF#32 → k = (s.afterMiso 80).free) ∧
      exec .tick s = .next { (s.afterMiso 80).leaving
        { s.regs with
          spiVal := w, spiErrCnt := n, spiErrRate := lpfStep s.regs.spiErrRate fOne cfg.errFilterK }
        (s.ports.ended s.ports.pins d)
        ⟨xferActs cfg [0xFFFF#16] s.misoAt, some (if w = 0xFFFF#16 then .disconnected else .parityError), []⟩ with
        free := k }

/-- R150 to R154: in `ResolverSpi` mode the control-line sequence and one transfer run; a word whose three status bits are all at
their healthy level replaces the angle, any other word changes no register. -/
def Obligations.TickDecodesResolverFrame : Prop :=
  ∀ s : State, s.regs.mode = .resolverSpi → s.settled →
    let w := s.incomingWord 0
    let angle := fdiv (fmul (u2f ((w >>> 4).setWidth 32)) f360) f4096
    let healthy := w.getLsbD cfg.resRdvelBit = cfg.resRdvelOk ∧ w.getLsbD cfg.resDosBit = cfg.resDosOk ∧
      w.getLsbD cfg.resLotBit = cfg.resLotOk
    let trace := controlActs cfg ++ xferActs cfg [0xFFFF#16] s.misoAt
    (healthy → ∃ d, exec .tick s = .next ((s.afterMiso 80).leaving { s.regs with lastAngle := angle }
      (s.ports.ended s.ports.pins d) ⟨trace, some (.valid angle), []⟩)) ∧
    (¬ healthy → ∃ d, exec .tick s = .next ((s.afterMiso 80).leaving s.regs
      (s.ports.ended s.ports.pins d) ⟨trace, some .statusInvalid, []⟩))

/-- R189, R190: `INDEX` waits, samples the pin once, pulses `ZERO_CURRENT_REQ` exactly once when the sample is 1 and not at all when
it is 0, and changes no register, in every mode. It is the strobe `index_evt`. -/
def Obligations.IndexPulsesZeroCurrentOnlyWhenPinHigh : Prop :=
  (∀ (m : Mode) (a b : F32), decode m (.event 0b010 a b) = .ok .index) ∧
  ∀ s : State, ∃ d,
    exec .index s = .next (s.afterIndexPin.leaving s.regs
      { s.ports.ended s.ports.pins d with zeroCurrentReq := s.indexPinNext }
      ⟨[.wait cfg.tDebounce, .sampleIndexPin s.indexPinNext] ++
        (if s.indexPinNext then [.pulse .zeroCurrentReq] else []), none, []⟩)

/-- R174: `SINCOS_SAMPLE` does nothing outside `SinCosAnalog` mode. -/
def Obligations.SincosSampleInOtherModeDoesNothing : Prop :=
  ∀ (s : State) (rs rc : F32), s.regs.mode ≠ .sinCosAnalog → ∃ d,
    exec (.sincosSample rs rc) s = .next (s.leaving s.regs (s.ports.ended s.ports.pins d) Out.empty)

/-- R166, R168 to R170: in `SinCosAnalog` mode with finite inputs and calibration, a sample above `MAX_SQ` counts and drives the above
tracker only, one below `MIN_SQ` the below tracker only, and one in the band drives both rates toward 0 and filters the angle.
Nothing else changes. A counter at its top is outside the envelope (U1); that the operation then completes with any count is the model's
choice (log 11). -/
def Obligations.SincosSampleTakesOneOfThreeBranches : Prop :=
  ∀ (s : State) (rs rc : F32), s.regs.mode = .sinCosAnalog →
    isFinite rs = true → isFinite rc = true → isFinite s.regs.sinGain = true → isFinite s.regs.sinOffset = true →
    isFinite s.regs.cosGain = true → isFinite s.regs.cosOffset = true →
    let sn := fsub (fmul rs s.regs.sinGain) s.regs.sinOffset
    let cs := fsub (fmul rc s.regs.cosGain) s.regs.cosOffset
    let m := fadd (fmul sn sn) (fmul cs cs)
    let k := cfg.errFilterK
    let f := lpfStep s.regs.lastAngle (cfg.atan2deg sn cs) s.regs.scFilterK
    if fgt m (fmul f165 f165) then
      ∃ n j d, countsOneMore s.regs.scAboveCnt n ∧ (s.regs.scAboveCnt ≠ 0xFFFFFFFF#32 → j = s.free) ∧ exec (.sincosSample rs rc) s = .next
        { s.leaving { s.regs with scAboveCnt := n, scAboveRate := lpfStep s.regs.scAboveRate fOne k }
          (s.ports.ended s.ports.pins d) ⟨[], some .aboveMax, []⟩ with free := j }
    else if flt m (fmul fOne fOne) then
      ∃ n j d, countsOneMore s.regs.scBelowCnt n ∧ (s.regs.scBelowCnt ≠ 0xFFFFFFFF#32 → j = s.free) ∧ exec (.sincosSample rs rc) s = .next
        { s.leaving { s.regs with scBelowCnt := n, scBelowRate := lpfStep s.regs.scBelowRate fOne k }
          (s.ports.ended s.ports.pins d) ⟨[], some .belowMin, []⟩ with free := j }
    else
      ∃ d, exec (.sincosSample rs rc) s = .next
        (s.leaving
          { s.regs with
            scAboveRate := lpfStep s.regs.scAboveRate fZero k
            scBelowRate := lpfStep s.regs.scBelowRate fZero k
            lastAngle := f }
          (s.ports.ended s.ports.pins d) ⟨[], some (.valid f), []⟩)

/-- R167: with finite inputs and calibration the squared magnitude is no NaN, not negative and not `-0.0`. -/
def Obligations.SquaredMagnitudeIsNoNaN : Prop :=
  ∀ rs rc sg so cg co : F32, isFinite rs = true → isFinite rc = true → isFinite sg = true → isFinite so = true →
    isFinite cg = true → isFinite co = true →
    let m := magnitudeSq (fsub (fmul rs sg) so) (fsub (fmul rc cg) co)
    isNaN m = false ∧ fSign m = false

/-- R170 corner case (f) with R172 A3: with a filter constant of 1, a first valid sample from `LAST_ANGLE = 0.0` leaves an angle
within `ATAN_TOL` of the true one, for every legal configuration. -/
def Obligations.FirstUnfilteredSampleIsAccurate : Prop :=
  ∀ (c : Cfg) (s : State) (rs rc : F32), Legal c →
    s.regs.mode = .sinCosAnalog → s.regs.scFilterK = fOne → s.regs.lastAngle = fZero →
    let sn := fsub (fmul rs s.regs.sinGain) s.regs.sinOffset
    let cs := fsub (fmul rc s.regs.cosGain) s.regs.cosOffset
    isFinite sn = true → isFinite cs = true → band (magnitudeSq sn cs) = .valid →
      isFinite (s.sincosSample c rs rc).regs.lastAngle = true ∧
        angleClose c sn cs (fReal (s.sincosSample c rs rc).regs.lastAngle)

/-- The model's reading (log 13, from R173): whatever the inputs and calibration, finite or not, `SINCOS_SAMPLE` in its own mode
completes and writes no register but the two sin/cos trackers and `LAST_ANGLE`. -/
def Obligations.SincosSampleAlwaysCompletes : Prop :=
  ∀ (s : State) (rs rc : F32), s.regs.mode = .sinCosAnalog → ∃ bc br ac ar la o j d,
    exec (.sincosSample rs rc) s = .next
      { s.leaving
          { s.regs with scBelowCnt := bc, scBelowRate := br, scAboveCnt := ac, scAboveRate := ar, lastAngle := la }
          (s.ports.ended s.ports.pins d) ⟨[], some o, []⟩ with free := j }

/-! ### Frames -/

/-- The model's choice (log 16), from R87, R91, R133, R150: run on its own in its mode, the word sent makes one transfer of all ones
and hands back the word received; in any other mode it does nothing. No register is written. -/
def Obligations.SentFramesMakeOneTransfer : Prop :=
  ∀ s : State, s.settled →
    (if s.regs.mode = .absoluteSpi then
      ∃ d, exec .absCmd s = .next ((s.afterMiso 80).leaving s.regs (s.ports.ended s.ports.pins d)
        ⟨xferActs cfg [0xFFFF#16] s.misoAt, none, [(s.incomingWord 0).setWidth 32]⟩)
    else ∃ d, exec .absCmd s = .next (s.leaving s.regs (s.ports.ended s.ports.pins d) Out.empty)) ∧
    (if s.regs.mode = .resolverSpi then
      ∃ d, exec .resCmd s = .next ((s.afterMiso 80).leaving s.regs (s.ports.ended s.ports.pins d)
        ⟨xferActs cfg [0xFFFF#16] s.misoAt, none, [(s.incomingWord 0).setWidth 32]⟩)
    else ∃ d, exec .resCmd s = .next (s.leaving s.regs (s.ports.ended s.ports.pins d) Out.empty))

/-- R88, R133 to R136 for the received word alone (run on its own by log 16): in `AbsoluteSpi` mode the word is stored and accepted or
rejected; in any other mode nothing happens. A count at the top is outside the envelope (U1); that the operation then completes with
any count is the model's choice (log 11). -/
def Obligations.AbsoluteReplyIsAcceptedOrRejected : Prop :=
  ∀ (s : State) (w : U16),
    let angle := fdiv (fmul (u2f ((w &&& 0x3FFF#16).setWidth 32)) f360) f16384
    if s.regs.mode ≠ .absoluteSpi then
      ∃ d, exec (.absReply w) s = .next (s.leaving s.regs (s.ports.ended s.ports.pins d) Out.empty)
    else if parity16 w = false ∧ w ≠ 0xFFFF#16 then
      ∃ d, exec (.absReply w) s = .next (s.leaving
        { s.regs with
          spiVal := w, lastAngle := angle, spiErrRate := lpfStep s.regs.spiErrRate fZero cfg.errFilterK }
        (s.ports.ended s.ports.pins d) ⟨[], some (.valid angle), []⟩)
    else
      ∃ n j d, countsOneMore s.regs.spiErrCnt n ∧ (s.regs.spiErrCnt ≠ 0xFFFFFFFF#32 → j = s.free) ∧ exec (.absReply w) s = .next { s.leaving
        { s.regs with
          spiVal := w, spiErrCnt := n, spiErrRate := lpfStep s.regs.spiErrRate fOne cfg.errFilterK }
        (s.ports.ended s.ports.pins d)
        ⟨[], some (if w = 0xFFFF#16 then .disconnected else .parityError), []⟩ with free := j }

/-- R89, R152 to R154 for the received word alone (run on its own by log 16): in `ResolverSpi` mode a healthy word replaces the angle
and any other changes no register; in any other mode nothing happens. -/
def Obligations.ResolverReplyIsAcceptedWhenHealthy : Prop :=
  ∀ (s : State) (w : U16),
    let angle := fdiv (fmul (u2f ((w >>> 4).setWidth 32)) f360) f4096
    if s.regs.mode ≠ .resolverSpi then
      ∃ d, exec (.resReply w) s = .next (s.leaving s.regs (s.ports.ended s.ports.pins d) Out.empty)
    else if w.getLsbD cfg.resRdvelBit = cfg.resRdvelOk ∧ w.getLsbD cfg.resDosBit = cfg.resDosOk ∧
        w.getLsbD cfg.resLotBit = cfg.resLotOk then
      ∃ d, exec (.resReply w) s = .next (s.leaving { s.regs with lastAngle := angle } (s.ports.ended s.ports.pins d)
        ⟨[], some (.valid angle), []⟩)
    else
      ∃ d, exec (.resReply w) s = .next (s.leaving s.regs (s.ports.ended s.ports.pins d) ⟨[], some .statusInvalid, []⟩)

/-- R135, R153: the angle of a serial frame is `payload * 360 / 16384`, or `payload * 360 / 4096`, with no rounding error, and lies
in `[0.0, 360.0)`. -/
def Obligations.SerialAnglesAreExact : Prop :=
  ∀ w : U16,
    (fVal (fdiv (fmul (u2f ((w &&& 0x3FFF#16).setWidth 32)) f360) f16384) * 16384 = (w.toNat % 16384 : Nat) * fVal f360) ∧
    (fVal (fdiv (fmul (u2f ((w >>> 4).setWidth 32)) f360) f4096) * 4096 = (w.toNat / 16 : Nat) * fVal f360) ∧
    (absAngle w).toNat < f360.toNat ∧ (resAngle w).toNat < f360.toNat

/-! ### Internal functions -/

/-- R110, R112: `XFER` returns, for each slot, the word voted from its 80 samples in the order bit 15 first, leaves the trace of R110
with one assertion of `CS_N`, and writes no register. The payload has the length of the count; a count above `N_WORDS_MAX`, which R110
does not allow, is covered too: that it runs as that many words is the model's choice (log 24). -/
def Obligations.XferReturnsVotedWords : Prop :=
  ∀ (s : State) (out : Option (List U16)) (n : Nat), s.settled → (Instr.xfer out n).wellFormed n = true → ∃ d,
    exec (.xfer out n) s = .next ((s.afterMiso (80 * n)).leaving s.regs (s.ports.ended s.ports.pins d)
      ⟨xferActs cfg (out.getD (List.replicate n 0xFFFF#16)) s.misoAt, none,
        (List.range n).map fun i => (s.incomingWord i).setWidth 32⟩)

/-- R112: each bit of a word received is the vote on its own five draws, words ascending, bits from 15 down; so if at least three
of the five draws of every bit agree with a word, that word is received. Transfers that R110 does not allow (a payload of another
length, a count above `N_WORDS_MAX`) are covered too: that they run is the model's choice (log 24). -/
def Obligations.XferVotesEachBitOnItsFiveDraws : Prop :=
  ∀ (s : State) (out : Option (List U16)) (n i : Nat), i < n → ∃ (t : State) (v : U16),
    exec (.xfer out n) s = .next t ∧ t.out.result[i]? = some (v.setWidth 32) ∧
    (∀ b < 16, v.getLsbD b =
      decide (2 < ((List.range 5).filter fun j => s.misoAt (80 * i + 5 * (15 - b) + j)).length)) ∧
    ∀ w : U16,
      (∀ b < 16, 3 ≤ ((List.range 5).filter fun j => s.misoAt (80 * i + 5 * (15 - b) + j) == w.getLsbD b).length) →
        v = w

/-- R113: `MAJ5` gives 1 exactly when more than two of its five samples are high, and writes no register. -/
def Obligations.Maj5CountsHighSamples : Prop :=
  ∀ (s : State) (s0 s1 s2 s3 s4 : Bool), ∃ d,
    exec (.maj5 s0 s1 s2 s3 s4) s = .next (s.leaving s.regs (s.ports.ended s.ports.pins d)
      ⟨[], none, [if 2 < [s0, s1, s2, s3, s4].count true then 1 else 0]⟩)

/-- R130: `PARITY16` gives the exclusive or of the sixteen bits, the number of ones modulo 2, and writes no register; flipping any one
bit of the word flips it. -/
def Obligations.Parity16IsNumberOfOnesModTwo : Prop :=
  (∀ (s : State) (w : U16), ∃ d,
    exec (.parity16 w) s = .next (s.leaving s.regs (s.ports.ended s.ports.pins d)
      ⟨[], none, [BitVec.ofNat 32 (((List.range 16).filter fun b => w.getLsbD b).length % 2)]⟩)) ∧
  ∀ (w : U16) (k : Nat), k < 16 → parity16 (w ^^^ (1#16 <<< k)) = !parity16 w

/-- R230: `LPF` is the difference, the product and the sum, each rounded once, and writes no register. -/
def Obligations.LpfIsThreeRoundings : Prop :=
  ∀ (s : State) (v t k : F32), ∃ d,
    exec (.lpf v t k) s = .next (s.leaving s.regs (s.ports.ended s.ports.pins d)
      ⟨[], none, [fadd v (fmul (fsub t v) k)]⟩)

/-- R235, as numbers: the target is a fixed point of the filter for every finite target and constant. -/
def Obligations.LpfTargetIsFixedPoint : Prop :=
  ∀ t k : F32, isFinite t = true → isFinite k = true →
    isFinite (lpfStep t t k) = true ∧ fVal (lpfStep t t k) = fVal t

/-- R234, last sentence: from a rate in `[0.0, 1.0]` with a constant in `[0.0, 1.0]`, an update toward 1 gives at least the rate and
at most `1.0`, and an update toward 0 at most the rate; neither gives `-0.0`. -/
def Obligations.LpfMovesRateTowardTarget : Prop :=
  ∀ v k : F32, rateOk v → inUnit k = true →
    v.toNat ≤ (lpfStep v fOne k).toNat ∧ (lpfStep v fOne k).toNat ≤ fOne.toNat ∧
      (lpfStep v fZero k).toNat ≤ v.toNat

/-- R172 A1 to A4: `ATAN2DEG` gives the configured arctangent, which from `MIN_SQ` on is finite, in `[-180, 180]` and within `ATAN_TOL`
of the true angle and which is `+0.0` for `(+0.0, c)` with a finite `c > 0`; it writes no register. Below `MIN_SQ` and for arguments that are not finite
it gives some value (U10); that A3 binds from `MIN_SQ` on only is the model's reading (log 9). -/
def Obligations.Atan2degHasRequiredProperties : Prop :=
  ∀ (s : State) (sn cs : F32), ∃ (r d : U32),
    exec (.atan2deg sn cs) s = .next (s.leaving s.regs (s.ports.ended s.ports.pins d) ⟨[], none, [r]⟩) ∧
      r = cfg.atan2deg sn cs ∧
      (isFinite sn = true → isFinite cs = true → flt (magnitudeSq sn cs) minSq = false →
        isFinite r = true ∧ fMag r ≤ 180 * 2 ^ 149 ∧ angleClose cfg sn cs (fReal r)) ∧
      (sn = fZero → isFinite cs = true → fgt cs fZero = true → r = fZero)

/-- The model's choice (log 14, from U4): the wrap of a non-finite angle is some value; nothing else happens. -/
def Obligations.WrapOfNonFiniteAngleCompletes : Prop :=
  ∀ (s : State) (a : F32), isFinite a = false → ∃ (r d : U32) (k : Nat),
    exec (.wrap a) s = .next { s.leaving s.regs (s.ports.ended s.ports.pins d) ⟨[], none, [r]⟩ with free := k }

/-! ### Whole-machine rules -/

/-- R262: every operation runs to completion, whatever its operands and the state, and leaves the block idle. R262 says so of the
operations of R80 within the envelope. Beyond that it is the model's choice: outside the envelope every operation completes too (log 11
for a counter at its top, log 12 for an illegal `cpr`, log 13 and log 14 for numbers that are not finite, log 15 for the reserved codes
and indexes), and the frame rows (log 16) and the internal functions (log 19), which R80 does not call operations of the ports, run by
the model's own conventions, ill-formed transfers included (log 24). -/
def Obligations.EveryOperationCompletes : Prop :=
  ∀ (i : Instr) (s : State), ∃ t, exec i s = .next t ∧ t.hid = Hidden.idle

/-- R251: an operation whose sample was faulty leaves `LAST_ANGLE` and `MODE` as they were. -/
def Obligations.FaultySampleHoldsLastAngle : Prop :=
  ∀ (i : Instr) (s t : State) (f : DecodeFault), exec i s = .next t → t.out.outcome = some f.outcome →
    t.regs.lastAngle = s.regs.lastAngle ∧ t.regs.mode = s.regs.mode

/-- R190: `ZERO_CURRENT_REQ` is pulsed exactly once by an `INDEX` whose sample is 1, and by nothing else. -/
def Obligations.OnlyIndexRaisesZeroCurrent : Prop :=
  ∀ (i : Instr) (s t : State), exec i s = .next t →
    (t.ports.zeroCurrentReq = true ↔ i = .index ∧ s.indexPinNext = true) ∧
      t.out.trace.count (.pulse .zeroCurrentReq) = if t.ports.zeroCurrentReq then 1 else 0

/-- R231, R232: outside `INIT_*` and `DEINIT` an operation leaves each fault counter or adds one to it (or it stood at the top, U1). -/
def Obligations.FaultCountersStepByOne : Prop :=
  ∀ (i : Instr) (s t : State),
    (match i with | .initQuad _ | .initAbs | .initRes | .initSincos _ _ _ _ _ | .deinit => False | _ => True) →
    exec i s = .next t →
    ∀ cnt ∈ [Regs.spiErrCnt, Regs.scBelowCnt, Regs.scAboveCnt],
      cnt t.regs = cnt s.regs ∨ cnt s.regs = 0xFFFFFFFF#32 ∨ cnt t.regs = cnt s.regs + 1

/-! ### Reset, acceptance and steps -/

/-- R280: every register, the hidden state and the ports right after reset; and `DEINIT` leaves the registers the same. -/
def Obligations.ResetStateIsAsSpecified : Prop :=
  State.reset.regs =
      { mode := .none, cpr := 0, sinGain := 0, sinOffset := 0, cosGain := 0, cosOffset := 0, scFilterK := 0, lastAngle := 0,
        spiVal := 0, spiErrCnt := 0, spiErrRate := 0, scBelowCnt := 0, scBelowRate := 0, scAboveCnt := 0, scAboveRate := 0 } ∧
    State.reset.hid.busy = false ∧ State.reset.hid.xfPhase = none ∧
    State.reset.ports.pins =
      { busOe := false, resOe := false, sck := .released, csN := .released, mosi := .released, resRdvel := .released,
        resSampleN := .released } ∧
    State.reset.ports.zeroCurrentReq = false ∧ State.reset.ports.qcfgValid = false ∧ State.reset.ports.rspValid = false ∧
    State.reset.ports.qcfgModulus = 0 ∧ State.reset.ports.qcfgInit = 0 ∧ State.reset.ports.rspData = 0 ∧
    ∀ s : State, ∃ t, exec .deinit s = .next t ∧ t.regs = State.reset.regs

/-- The invariants stated below hold at reset. -/
def Obligations.InvariantsHoldAtReset : Prop :=
  State.reset.settled ∧ State.reset.regs.ratesOk ∧ State.reset.regs.inactiveDefault ∧ State.reset.regs.angleOk

/-- R40, R280: a cycle with `rst = 1` puts every register, the hidden state and the ports at their reset values. That whatever else the
cycle presents is discarded, and that no draw is used up, is the model's choice (log 6). -/
def Obligations.ResetCycleRestoresResetState : Prop :=
  ∀ (s : State) (c : PortCycle) (rest : List Arrival), s.env.arrivals = .ports c :: rest → c.rst = true →
    ∃ t, step s = .next t ∧ t.regs = Regs.default ∧ t.hid = Hidden.idle ∧ t.ports = Ports.reset ∧
      t.env = { s.env with arrivals := rest }

/-- R40, R281: `rst` during an operation abandons it with none of its register writes made, and the pins are released at once. A mode
command that is cut moves no pin before that (R211: its pins change together with its registers). That the cut falls after some number
of trace entries, that only the draws shown are used up, and that the cycle's other arrivals are lost is the model's choice (log 6);
that the release is one entry of the trace is log 21's. -/
def Obligations.ResetDuringOperationAbandonsIt : Prop :=
  ∀ (s : State) (c : PortCycle) (rest : List Arrival) (src : Source) (i : Instr) (k : Nat),
    s.env.arrivals = .ports c :: rest → s.hid.busy = false → c.rst = false → c.whileBusy = false →
    c.first = some src → decode s.regs.mode (c.encoding src) = .ok i → c.rstAfter = some k →
    ∃ t u, exec i (s.withArrivals rest) = .next u ∧ step s = .next t ∧
      t.regs = Regs.default ∧ t.hid = Hidden.idle ∧ t.ports = Ports.reset ∧
      t.out.trace = cutTrace k u.out.trace ++ [.modeRow .none] ∧
      t.env = ({ s.env with arrivals := rest } : Env).afterActs (cutTrace k u.out.trace) ∧
      (match i with
        | .initQuad _ | .initAbs | .initRes | .initSincos _ _ _ _ _ | .deinit => drivesNoPin (cutTrace k u.out.trace) = true
        | _ => cutTrace k u.out.trace = u.out.trace.take k)

/-- R263, R262: an idle block runs, in one step, exactly the operation that its decoder reads from what stands before it: from the
source taken first in a port cycle, or from a frame on the bus (log 16). -/
def Obligations.StepRunsTheDecodedOperation : Prop :=
  (∀ (s : State) (c : PortCycle) (rest : List Arrival) (src : Source) (i : Instr),
    s.env.arrivals = .ports c :: rest → s.hid.busy = false → c.rst = false → (c.whileBusy = true → c.strobes = 0) →
    c.rstAfter = none → c.first = some src → decode s.regs.mode (c.encoding src) = .ok i →
    step s = exec i (s.withArrivals (c.remaining src rest))) ∧
  (∀ (s : State) (dir : FrameDir) (w : U16) (rest : List Arrival) (i : Instr),
    s.env.arrivals = .frame dir w :: rest → decode s.regs.mode (.frame dir w) = .ok i →
    step s = exec i (s.withArrivals rest))

/-- R263, U7: serving one source of a cycle clears that source and no other, so none is lost; while another still asks, the cycle
stays first in line. -/
def Obligations.SimultaneousArrivalsAreServedInTurn : Prop :=
  ∀ (c : PortCycle) (src other : Source) (rest : List Arrival), c.first = some src →
    c.asks src = true ∧ (c.served src).asks src = false ∧
      (other ≠ src → (c.served src).asks other = c.asks other) ∧
      (c.rstAfter = none → other ≠ src → c.asks other = true → c.remaining src rest = .ports (c.served src) :: rest)

/-- R264, U2: a strobe that arrives while the block is busy is refused; a command that arrives while the block is busy is not lost: it
is accepted when the block is idle. -/
def Obligations.StrobeWhileBusyIsRefusedCommandWaits : Prop :=
  (∀ (s : State) (c : PortCycle) (rest : List Arrival), s.env.arrivals = .ports c :: rest → c.rst = false →
    (s.hid.busy = true ∨ c.whileBusy = true) → c.strobes ≠ 0 → step s = .refused .eventWhileBusy) ∧
  (∀ (s : State) (c : PortCycle) (rest : List Arrival), s.env.arrivals = .ports c :: rest → c.rst = false →
    s.hid.busy = true → c.strobes = 0 → ∃ t, step s = .next t ∧ t.hid.busy = false ∧ t.env = s.env ∧ t.regs = s.regs) ∧
  (∀ (s : State) (c : PortCycle) (rest : List Arrival), s.env.arrivals = .ports c :: rest → c.rst = false →
    s.hid.busy = false → c.strobes = 0 → c.cmdValid = true → c.rstAfter = none →
    step s = exec (decodeCommand c.cmdPort) (s.withArrivals rest))

/-- R17: with nothing arriving, a step changes no register, no pin and no input. -/
def Obligations.QuietStepChangesNothing : Prop :=
  ∀ s : State, s.env.arrivals = [] → ∃ t, step s = .next t ∧ t.regs = s.regs ∧ t.ports.pins = s.ports.pins ∧ t.env = s.env ∧
    t.out.trace = []

/-! ### Invariants of every step -/

/-- R39, R48, R211: between operations the hidden state is idle and the pins are the row of `MODE`. -/
def Obligations.EveryStepKeepsSettled : Prop :=
  ∀ s t : State, s.settled → step s = .next t → t.settled

/-- R52: the three rates stay in `[0.0, 1.0]`. -/
def Obligations.EveryStepKeepsRatesInUnit : Prop :=
  ∀ s t : State, s.regs.ratesOk → step s = .next t → t.regs.ratesOk

/-- R50, without its clause on `CPR`: the registers of an inactive mode hold their defaults. -/
def Obligations.EveryStepKeepsInactiveDefaults : Prop :=
  ∀ s t : State, s.regs.inactiveDefault → step s = .next t → t.regs.inactiveDefault

/-- R24, R135, R153: `LAST_ANGLE` is `0.0` where no decoder writes it and lies in `[0.0, 360.0)` in the serial modes. -/
def Obligations.EveryStepKeepsAngleInRange : Prop :=
  ∀ s t : State, s.regs.angleOk → step s = .next t → t.regs.angleOk

/-! ### Encoding -/

/-- R80 to R85, R87 to R91: decoding the encoding of an operation gives that operation back, with every operand, in every mode its
encoding is read in; the internal functions alone have no encoding. -/
def Obligations.DecodeOfEncodeIsIdentity : Prop :=
  ∀ (m : Mode) (i : Instr),
    (i.isInternal = false → i.readIn m = true → decode m (encode i) = .ok i) ∧
      (i.isInternal = true → encode i = .internal ∧ decode m (encode i) = .error .internalFunction)

/-- R84: an argument field that a command does not use has no effect on what is decoded. -/
def Obligations.UnusedArgumentFieldsAreIgnored : Prop :=
  ∀ (p q : BitVec 164), cmdOp p = cmdOp q →
    (cmdOp p ≠ 0x1 → cmdOp p ≠ 0x4 → cmdOp p ≠ 0x6 → cmdOp p ≠ 0x9 → decodeCommand p = decodeCommand q) ∧
      (cmdOp p ≠ 0x4 → cmdA0 p = cmdA0 q → decodeCommand p = decodeCommand q)

/-- R82, R85, R87, R88, R89: a few port values decode to the operations they stand for. The codes and the frames are written out from the
spec; where the argument fields stand in the 164-bit number of the first three clauses is the model's choice (log 3). -/
def Obligations.SpecPortValuesDecode : Prop :=
  decode .none (.command 0x20001#164) = .ok (.initQuad 8192) ∧
    decode .quadrature (.command 0x10006#164) = .ok (.setCounts 4096) ∧
    decode .none (.command 0x3F000000000000003F800000000000003F8000004#164) =
      .ok (.initSincos 0x3F800000 0 0x3F800000 0 0x3F000000) ∧
    decode .absoluteSpi (.event 0b100 0x3F000000 0x3F800000) = .ok (.sincosSample 0x3F000000 0x3F800000) ∧
    decode .absoluteSpi (.frame .toSensor 0xFFFF) = .ok .absCmd ∧
    decode .absoluteSpi (.frame .fromSensor 0x8001) = .ok (.absReply 0x8001) ∧
    decode .resolverSpi (.frame .fromSensor 0x8001) = .ok (.resReply 0x8001)
end

