-- ==== Sys2Proof/Laws/Float.lean ====
section
/-! SUPPORT. Laws of rounding: it is monotone, exact on binary32 numbers, and keeps a result between two of them. -/

namespace Sys2Proof.Machine

theorem roundHalfEven_le (p d : Nat) : roundHalfEven p d ≤ p / d + 1 := by
  unfold roundHalfEven
  split
  · omega
  · split
    · omega
    · have := Nat.mod_lt (p / d) (show 0 < 2 by omega)
      omega

theorem le_roundHalfEven (p d : Nat) : p / d ≤ roundHalfEven p d := by
  unfold roundHalfEven
  split
  · omega
  · split <;> omega

theorem roundHalfEven_mono {p p' : Nat} (d : Nat) (h : p ≤ p') : roundHalfEven p d ≤ roundHalfEven p' d := by
  have hq : p / d ≤ p' / d := Nat.div_le_div_right h
  rcases Nat.lt_or_ge (p / d) (p' / d) with hlt | hge
  · exact (roundHalfEven_le p d).trans (hlt.trans_le (le_roundHalfEven p' d))
  · have e : p / d = p' / d := Nat.le_antisymm hq hge
    have hr : p % d ≤ p' % d := by
      have h1 := Nat.div_add_mod p d
      have h2 := Nat.div_add_mod p' d
      rw [e] at h1
      omega
    unfold roundHalfEven
    rw [e]
    split <;> split <;> (try split) <;> (try split) <;> omega

/-- A whole multiple of the divisor is rounded to itself. -/
theorem roundHalfEven_mul (m d : Nat) (hd : 0 < d) : roundHalfEven (m * d) d = m := by
  simp [roundHalfEven, Nat.mul_mod_left, Nat.mul_div_cancel m hd, hd]

/-- A fraction below `m` is rounded to at most `m`. -/
theorem roundHalfEven_le_of_lt {p d m : Nat} (hd : 0 < d) (h : p < m * d) : roundHalfEven p d ≤ m := by
  have := roundHalfEven_mono d h.le
  rwa [roundHalfEven_mul m d hd] at this

/-- The binary places dropped for `p / q`. -/
def roundShift (p q : Nat) : Nat := Nat.log2 (p / q) - 23

theorem roundMag_def (p q : Nat) :
    roundMag p q = min (roundShift p q * 2 ^ 23 + roundHalfEven p (q * 2 ^ roundShift p q)) infBits := rfl

theorem div_lt_of_roundShift (p q : Nat) : p / q < 2 ^ (roundShift p q + 24) := by
  rcases Nat.eq_zero_or_pos (p / q) with h0 | hpos
  · rw [h0]; exact Nat.two_pow_pos _
  · refine (Nat.lt_log2_self (n := p / q)).trans_le (Nat.pow_le_pow_right (by omega) ?_)
    unfold roundShift; omega

/-- The kept significand is at most `2^24`. -/
theorem significand_le (p q : Nat) (hq : 0 < q) : roundHalfEven p (q * 2 ^ roundShift p q) ≤ 2 ^ 24 := by
  apply roundHalfEven_le_of_lt (Nat.mul_pos hq (Nat.two_pow_pos _))
  have h := div_lt_of_roundShift p q
  rw [Nat.div_lt_iff_lt_mul hq, Nat.pow_add] at h
  calc p < 2 ^ roundShift p q * 2 ^ 24 * q := h
    _ = 2 ^ 24 * (q * 2 ^ roundShift p q) := by ring

/-- Where places are dropped the kept significand is at least `2^23`. -/
theorem le_significand (p q : Nat) (h : 0 < roundShift p q) :
    2 ^ 23 ≤ roundHalfEven p (q * 2 ^ roundShift p q) := by
  refine le_trans ?_ (le_roundHalfEven _ _)
  rw [← Nat.div_div_eq_div_mul, Nat.le_div_iff_mul_le (Nat.two_pow_pos _), ← Nat.pow_add]
  have hl : Nat.log2 (p / q) = 23 + roundShift p q := by unfold roundShift at h ⊢; omega
  rw [← hl]
  refine Nat.log2_self_le ?_
  rintro h0
  rw [h0, Nat.log2_zero] at hl
  omega

theorem roundShift_mono {p p' : Nat} (q : Nat) (h : p ≤ p') : roundShift p q ≤ roundShift p' q := by
  unfold roundShift
  have : Nat.log2 (p / q) ≤ Nat.log2 (p' / q) := by
    rw [Nat.log2_eq_log_two, Nat.log2_eq_log_two]
    exact Nat.log_mono_right (Nat.div_le_div_right h)
  omega

/-- Rounding is monotone. -/
theorem roundMag_mono {p p' : Nat} (q : Nat) (hq : 0 < q) (h : p ≤ p') : roundMag p q ≤ roundMag p' q := by
  rw [roundMag_def, roundMag_def]
  refine min_le_min_right _ ?_
  rcases Nat.eq_or_lt_of_le (roundShift_mono q h) with e | hlt
  · rw [e]
    exact Nat.add_le_add_left (roundHalfEven_mono _ h) _
  · have h1 := significand_le p q hq
    have h2 := le_significand p' q (by omega)
    have h3 : (roundShift p q + 1) * 2 ^ 23 ≤ roundShift p' q * 2 ^ 23 := Nat.mul_le_mul_right _ hlt
    omega

theorem roundMag_zero (q : Nat) : roundMag 0 q = 0 := by
  simp [roundMag, roundHalfEven]

/-- A number of units that is a significand of at most 24 bits times a power of two, and no significand below `2^23` but at
the least power, is rounded to its own pattern. -/
theorem roundMag_pattern (k r : Nat) (hr : r < 2 ^ 24) (hk : 0 < k → 2 ^ 23 ≤ r) (hinf : k * 2 ^ 23 + r ≤ infBits) :
    roundMag (r * 2 ^ k) 1 = k * 2 ^ 23 + r := by
  have hs : roundShift (r * 2 ^ k) 1 = k := by
    unfold roundShift
    rw [Nat.div_one]
    rcases Nat.eq_zero_or_pos k with rfl | hkp
    · have : Nat.log2 (r * 2 ^ 0) < 24 := by
        rcases Nat.eq_zero_or_pos r with rfl | hrp
        · decide
        · rw [Nat.pow_zero, Nat.mul_one]; exact (Nat.log2_lt (by omega)).mpr hr
      omega
    · have hr23 := hk hkp
      have : Nat.log2 (r * 2 ^ k) = 23 + k := by
        rw [Nat.log2_eq_log_two]
        refine Nat.log_eq_of_pow_le_of_lt_pow ?_ ?_
        · rw [Nat.pow_add]; exact Nat.mul_le_mul_right _ hr23
        · calc r * 2 ^ k < 2 ^ 24 * 2 ^ k := Nat.mul_lt_mul_of_pos_right hr (Nat.two_pow_pos _)
            _ = 2 ^ (23 + k + 1) := by rw [← Nat.pow_add]; congr 1; omega
      omega
  rw [roundMag_def, hs, Nat.one_mul, roundHalfEven_mul r _ (Nat.two_pow_pos _)]
  exact min_eq_left hinf

/-- A finite binary32 number is rounded to itself. -/
theorem roundMag_fMag (a : F32) (h : isFinite a = true) : roundMag (fMag a) 1 = fMagBits a := by
  have he : fExp a < 255 := by simpa [isFinite] using h
  have hf : fFrac a < 2 ^ 23 := Nat.mod_lt _ (by omega)
  have hsplit : fExp a * 2 ^ 23 + fFrac a = fMagBits a := Nat.div_add_mod' _ _
  unfold fMag
  split
  · rename_i h0
    have := roundMag_pattern 0 (fFrac a) (by omega) (by omega) (by unfold infBits; omega)
    rw [Nat.pow_zero, Nat.mul_one] at this
    rw [this, ← hsplit, h0]
  · have := roundMag_pattern (fExp a - 1) (2 ^ 23 + fFrac a) (by omega) (by omega) (by unfold infBits; omega)
    obtain ⟨e, he1⟩ : ∃ e, fExp a = e + 1 := ⟨fExp a - 1, by omega⟩
    rw [this, ← hsplit, he1, Nat.add_sub_cancel]
    ring

/-- A ratio of integers that is a whole number of units is rounded as that number. -/
theorem roundMag_mul_right (m q : Nat) (hq : 0 < q) : roundMag (m * q) q = roundMag m 1 := by
  have hd : m * q / q = m := Nat.mul_div_cancel m hq
  have hs : roundShift (m * q) q = roundShift m 1 := by unfold roundShift; rw [hd, Nat.div_one]
  rw [roundMag_def, roundMag_def, hs]
  congr 2
  rw [Nat.one_mul]
  unfold roundHalfEven
  have e1 : m * q / (q * 2 ^ roundShift m 1) = m / 2 ^ roundShift m 1 := by
    rw [← Nat.div_div_eq_div_mul, hd]
  have e2 : m * q % (q * 2 ^ roundShift m 1) = q * (m % 2 ^ roundShift m 1) := by
    rw [Nat.mul_comm m q, Nat.mul_mod_mul_left]
  rw [e1, e2]
  have e3 : 2 * (q * (m % 2 ^ roundShift m 1)) = q * (2 * (m % 2 ^ roundShift m 1)) := by ring
  simp only [e3, Nat.mul_lt_mul_left hq]

/-- A result between 0 and a finite binary32 number is rounded to at most that number. -/
theorem roundMag_le_of_le {p q : Nat} (a : F32) (h : isFinite a = true) (hq : 0 < q) (hp : p ≤ fMag a * q) :
    roundMag p q ≤ fMagBits a := by
  have := roundMag_mono q hq hp
  rwa [roundMag_mul_right _ _ hq, roundMag_fMag a h] at this

end Sys2Proof.Machine
end

