-- ==== Sys2Proof/Laws/State.lean ====
section
/-! SUPPORT. One lemma per field per update of `State`, so that no proof unfolds a record update. -/

namespace Sys2Proof.Machine

@[simp] theorem State.accept_regs (s : State) : s.accept.regs = s.regs := rfl
@[simp] theorem State.accept_hid (s : State) : s.accept.hid = { Hidden.idle with busy := true } := rfl
@[simp] theorem State.accept_ports (s : State) : s.accept.ports = { s.ports with zeroCurrentReq := false, qcfgValid := false, rspValid := false } := rfl
@[simp] theorem State.accept_out (s : State) : s.accept.out = Out.empty := rfl
@[simp] theorem State.accept_env (s : State) : s.accept.env = s.env := rfl
@[simp] theorem State.accept_free (s : State) : s.accept.free = s.free := rfl

@[simp] theorem State.finish_regs (s : State) : s.finish.regs = s.regs := rfl
@[simp] theorem State.finish_hid (s : State) : s.finish.hid = Hidden.idle := rfl
@[simp] theorem State.finish_ports (s : State) : s.finish.ports = s.ports := rfl
@[simp] theorem State.finish_out (s : State) : s.finish.out = s.out := rfl
@[simp] theorem State.finish_env (s : State) : s.finish.env = s.env := rfl
@[simp] theorem State.finish_free (s : State) : s.finish.free = s.free := rfl

@[simp] theorem State.takeFree_regs (s : State) : s.takeFree.2.regs = s.regs := rfl
@[simp] theorem State.takeFree_hid (s : State) : s.takeFree.2.hid = s.hid := rfl
@[simp] theorem State.takeFree_ports (s : State) : s.takeFree.2.ports = s.ports := rfl
@[simp] theorem State.takeFree_out (s : State) : s.takeFree.2.out = s.out := rfl
@[simp] theorem State.takeFree_env (s : State) : s.takeFree.2.env = s.env := rfl
@[simp] theorem State.takeFree_free (s : State) : s.takeFree.2.free = s.free + 1 := rfl

@[simp] theorem State.act_regs (a : PinAct) (s : State) : (s.act a).regs = s.regs := rfl
@[simp] theorem State.act_hid (a : PinAct) (s : State) : (s.act a).hid = s.hid := rfl
@[simp] theorem State.act_ports (a : PinAct) (s : State) : (s.act a).ports = { s.ports with pins := s.ports.pins.act a } := rfl
@[simp] theorem State.act_out (a : PinAct) (s : State) : (s.act a).out = { s.out with trace := s.out.trace ++ [a] } := rfl
@[simp] theorem State.act_env (a : PinAct) (s : State) : (s.act a).env = s.env := rfl
@[simp] theorem State.act_free (a : PinAct) (s : State) : (s.act a).free = s.free := rfl

@[simp] theorem State.respond_regs (v : U32) (s : State) : (s.respond v).regs = s.regs := rfl
@[simp] theorem State.respond_hid (v : U32) (s : State) : (s.respond v).hid = s.hid := rfl
@[simp] theorem State.respond_ports (v : U32) (s : State) : (s.respond v).ports = { s.ports with rspValid := true, rspData := v } := rfl
@[simp] theorem State.respond_out (v : U32) (s : State) : (s.respond v).out = { s.out with trace := s.out.trace ++ [.pulse .rspValid] } := rfl
@[simp] theorem State.respond_env (v : U32) (s : State) : (s.respond v).env = s.env := rfl
@[simp] theorem State.respond_free (v : U32) (s : State) : (s.respond v).free = s.free := rfl

@[simp] theorem State.zeroCurrent_regs (s : State) : s.zeroCurrent.regs = s.regs := rfl
@[simp] theorem State.zeroCurrent_hid (s : State) : s.zeroCurrent.hid = s.hid := rfl
@[simp] theorem State.zeroCurrent_ports (s : State) : s.zeroCurrent.ports = { s.ports with zeroCurrentReq := true } := rfl
@[simp] theorem State.zeroCurrent_out (s : State) : s.zeroCurrent.out = { s.out with trace := s.out.trace ++ [.pulse .zeroCurrentReq] } := rfl
@[simp] theorem State.zeroCurrent_env (s : State) : s.zeroCurrent.env = s.env := rfl
@[simp] theorem State.zeroCurrent_free (s : State) : s.zeroCurrent.free = s.free := rfl

@[simp] theorem State.configCounter_regs (m i : U32) (s : State) : (s.configCounter m i).regs = s.regs := rfl
@[simp] theorem State.configCounter_hid (m i : U32) (s : State) : (s.configCounter m i).hid = s.hid := rfl
@[simp] theorem State.configCounter_ports (m i : U32) (s : State) : (s.configCounter m i).ports = { s.ports with qcfgValid := true, qcfgModulus := m, qcfgInit := i } := rfl
@[simp] theorem State.configCounter_out (m i : U32) (s : State) : (s.configCounter m i).out = { s.out with trace := s.out.trace ++ [.pulse .qcfgValid] } := rfl
@[simp] theorem State.configCounter_env (m i : U32) (s : State) : (s.configCounter m i).env = s.env := rfl
@[simp] theorem State.configCounter_free (m i : U32) (s : State) : (s.configCounter m i).free = s.free := rfl

@[simp] theorem State.giveResult_regs (ws : List U32) (s : State) : (s.giveResult ws).regs = s.regs := rfl
@[simp] theorem State.giveResult_hid (ws : List U32) (s : State) : (s.giveResult ws).hid = s.hid := rfl
@[simp] theorem State.giveResult_ports (ws : List U32) (s : State) : (s.giveResult ws).ports = s.ports := rfl
@[simp] theorem State.giveResult_out (ws : List U32) (s : State) : (s.giveResult ws).out = { s.out with result := ws } := rfl
@[simp] theorem State.giveResult_env (ws : List U32) (s : State) : (s.giveResult ws).env = s.env := rfl
@[simp] theorem State.giveResult_free (ws : List U32) (s : State) : (s.giveResult ws).free = s.free := rfl

@[simp] theorem State.giveOutcome_regs (o : DecodeOutcome) (s : State) : (s.giveOutcome o).regs = s.regs := rfl
@[simp] theorem State.giveOutcome_hid (o : DecodeOutcome) (s : State) : (s.giveOutcome o).hid = s.hid := rfl
@[simp] theorem State.giveOutcome_ports (o : DecodeOutcome) (s : State) : (s.giveOutcome o).ports = s.ports := rfl
@[simp] theorem State.giveOutcome_out (o : DecodeOutcome) (s : State) : (s.giveOutcome o).out = { s.out with outcome := some o } := rfl
@[simp] theorem State.giveOutcome_env (o : DecodeOutcome) (s : State) : (s.giveOutcome o).env = s.env := rfl
@[simp] theorem State.giveOutcome_free (o : DecodeOutcome) (s : State) : (s.giveOutcome o).free = s.free := rfl

@[simp] theorem State.enterPhase_regs (p : Phase) (s : State) : (s.enterPhase p).regs = s.regs := rfl
@[simp] theorem State.enterPhase_hid (p : Phase) (s : State) : (s.enterPhase p).hid = { s.hid with xfPhase := some p } := rfl
@[simp] theorem State.enterPhase_ports (p : Phase) (s : State) : (s.enterPhase p).ports = s.ports := rfl
@[simp] theorem State.enterPhase_out (p : Phase) (s : State) : (s.enterPhase p).out = s.out := rfl
@[simp] theorem State.enterPhase_env (p : Phase) (s : State) : (s.enterPhase p).env = s.env := rfl
@[simp] theorem State.enterPhase_free (p : Phase) (s : State) : (s.enterPhase p).free = s.free := rfl

@[simp] theorem State.withHid_regs (h : Hidden) (s : State) : (s.withHid h).regs = s.regs := rfl
@[simp] theorem State.withHid_hid (h : Hidden) (s : State) : (s.withHid h).hid = h := rfl
@[simp] theorem State.withHid_ports (h : Hidden) (s : State) : (s.withHid h).ports = s.ports := rfl
@[simp] theorem State.withHid_out (h : Hidden) (s : State) : (s.withHid h).out = s.out := rfl
@[simp] theorem State.withHid_env (h : Hidden) (s : State) : (s.withHid h).env = s.env := rfl
@[simp] theorem State.withHid_free (h : Hidden) (s : State) : (s.withHid h).free = s.free := rfl

@[simp] theorem State.withRegs_regs (r : Regs) (s : State) : (s.withRegs r).regs = r := rfl
@[simp] theorem State.withRegs_hid (r : Regs) (s : State) : (s.withRegs r).hid = s.hid := rfl
@[simp] theorem State.withRegs_ports (r : Regs) (s : State) : (s.withRegs r).ports = s.ports := rfl
@[simp] theorem State.withRegs_out (r : Regs) (s : State) : (s.withRegs r).out = s.out := rfl
@[simp] theorem State.withRegs_env (r : Regs) (s : State) : (s.withRegs r).env = s.env := rfl
@[simp] theorem State.withRegs_free (r : Regs) (s : State) : (s.withRegs r).free = s.free := rfl

@[simp] theorem State.takeFree_value (s : State) : s.takeFree.1 = Config.freeWord s.free := rfl

end Sys2Proof.Machine
end

