-- ==== Sys2Proof/Laws/Ops.lean ====
section
/-! SUPPORT. For each shared operation one lemma that says everything it can do; cite these instead of unfolding. -/

namespace Sys2Proof.Machine

/-! ### Pins and trace -/

@[simp] theorem State.acts_nil (s : State) : s.acts [] = s := rfl
@[simp] theorem State.acts_cons (a : PinAct) (as : List PinAct) (s : State) : s.acts (a :: as) = (s.act a).acts as := rfl

theorem State.acts_append (as bs : List PinAct) (s : State) : s.acts (as ++ bs) = (s.acts as).acts bs := by
  simp [State.acts, List.foldl_append]

/-- What a list of trace entries does: it joins the trace, and the pins take its writes in order. -/
theorem State.acts_eq (as : List PinAct) (s : State) :
    s.acts as = { s with
      ports := { s.ports with pins := as.foldl Pins.act s.ports.pins }
      out := { s.out with trace := s.out.trace ++ as } } := by
  induction as generalizing s with
  | nil => simp [State.acts]
  | cons a as ih => rw [State.acts_cons, ih]; simp [State.act]

@[simp] theorem State.acts_regs (as : List PinAct) (s : State) : (s.acts as).regs = s.regs := by rw [State.acts_eq]
@[simp] theorem State.acts_hid (as : List PinAct) (s : State) : (s.acts as).hid = s.hid := by rw [State.acts_eq]
@[simp] theorem State.acts_env (as : List PinAct) (s : State) : (s.acts as).env = s.env := by rw [State.acts_eq]
@[simp] theorem State.acts_free (as : List PinAct) (s : State) : (s.acts as).free = s.free := by rw [State.acts_eq]

/-- Everything that `INIT_*` and `DEINIT` share: the registers given, the pins of their mode, and that change on the trace. -/
theorem State.enterMode_eq (r : Regs) (s : State) :
    s.enterMode r = { s with
      regs := r
      ports := { s.ports with pins := Pins.ofMode r.mode }
      out := { s.out with trace := s.out.trace ++ [.modeRow r.mode] } } := rfl

/-! ### A trace cut by `rst` -/

/-- A trace that changes no mode is cut where `rst` falls. -/
theorem cutTrace_of_noModeRow (k : Nat) (tr : List PinAct) (h : ∀ a ∈ tr, a.isModeRow = false) : cutTrace k tr = tr.take k := by
  rw [cutTrace, List.takeWhile_eq_self_iff]
  intro a ha
  simp [h a (List.mem_of_mem_take ha)]

/-- The row of a new mode is never shown by a command that `rst` cuts (R40, R211). -/
theorem cutTrace_append_modeRow (k : Nat) (tr : List PinAct) (m : Mode) (h : ∀ a ∈ tr, a.isModeRow = false) :
    cutTrace k (tr ++ [.modeRow m]) = tr.take k := by
  have ht : ∀ a ∈ tr.take k, (!a.isModeRow) = true := fun a ha => by simp [h a (List.mem_of_mem_take ha)]
  rw [cutTrace, List.take_append, List.takeWhile_append_of_pos ht]
  cases k - tr.length <;> simp [PinAct.isModeRow]

/-- No entry of a transfer changes the mode's row. -/
theorem xferActs_noModeRow (c : Cfg) (ws : List U16) (x : Nat → Bool) : ∀ a ∈ xferActs c ws x, a.isModeRow = false := by
  intro a ha
  simp only [xferActs, wordActs, bitActs, List.mem_append, List.mem_flatMap, List.mem_cons, List.not_mem_nil,
    or_false] at ha
  cases a <;> first | rfl | simp at ha

/-! ### Draws -/

/-- A sample of `MISO` answers the next level to come and puts it on the trace. -/
theorem State.drawMiso_eq (s : State) :
    s.drawMiso = (s.misoAt 0, (s.afterMiso 1).act (.sampleMiso (s.misoAt 0))) := by
  unfold State.drawMiso State.misoAt State.afterMiso
  obtain ⟨regs, hid, ports, out, ⟨arrivals, miso, indexPin, qcnt⟩, free⟩ := s
  cases miso <;> simp

/-- A sample of `INDEX_PIN` answers the next level to come. -/
theorem State.drawIndexPin_eq (s : State) :
    s.drawIndexPin = (s.indexPinNext, s.afterIndexPin.act (.sampleIndexPin s.indexPinNext)) := by
  unfold State.afterIndexPin State.drawIndexPin State.indexPinNext
  obtain ⟨regs, hid, ports, out, ⟨arrivals, miso, indexPin, qcnt⟩, free⟩ := s
  cases indexPin <;> simp

/-- A read of `QCNT` answers the next count to come. -/
theorem State.drawQcnt_eq (s : State) :
    s.drawQcnt = (s.qcntNext, s.afterQcnt.act (.readQcnt s.qcntNext)) := by
  unfold State.afterQcnt State.drawQcnt State.qcntNext
  obtain ⟨regs, hid, ports, out, ⟨arrivals, miso, indexPin, qcnt⟩, free⟩ := s
  cases qcnt <;> simp

@[simp] theorem State.afterMiso_regs (n : Nat) (s : State) : (s.afterMiso n).regs = s.regs := rfl
@[simp] theorem State.afterMiso_hid (n : Nat) (s : State) : (s.afterMiso n).hid = s.hid := rfl
@[simp] theorem State.afterMiso_ports (n : Nat) (s : State) : (s.afterMiso n).ports = s.ports := rfl
@[simp] theorem State.afterMiso_out (n : Nat) (s : State) : (s.afterMiso n).out = s.out := rfl
@[simp] theorem State.afterMiso_zero (s : State) : s.afterMiso 0 = s := by simp [State.afterMiso]

theorem State.afterMiso_afterMiso (m n : Nat) (s : State) : (s.afterMiso m).afterMiso n = s.afterMiso (m + n) := by
  simp only [State.afterMiso, List.drop_drop, List.length_drop]
  congr 1
  omega

theorem State.misoAt_afterMiso (n k : Nat) (s : State) : (s.afterMiso n).misoAt k = s.misoAt (n + k) := by
  simp only [State.misoAt, State.afterMiso, List.length_drop, List.getD_eq_getElem?_getD, List.getElem?_drop]
  by_cases h : n + k < s.env.miso.length
  · rw [if_pos (by omega), if_pos h]
  · rw [if_neg (by omega), if_neg h]
    congr 1
    omega

/-- The levels to come depend only on the script and the count of free values. -/
theorem State.misoAt_congr (s t : State) (he : t.env.miso = s.env.miso) (hf : t.free = s.free) (k : Nat) :
    t.misoAt k = s.misoAt k := by simp [State.misoAt, he, hf]

@[simp] theorem State.misoAt_act (a : PinAct) (s : State) (k : Nat) : (s.act a).misoAt k = s.misoAt k := rfl
@[simp] theorem State.misoAt_accept (s : State) (k : Nat) : s.accept.misoAt k = s.misoAt k := rfl
@[simp] theorem State.misoAt_acts (as : List PinAct) (s : State) (k : Nat) : (s.acts as).misoAt k = s.misoAt k :=
  State.misoAt_congr _ _ (by simp) (by simp) k

@[simp] theorem State.afterMiso_act (n : Nat) (a : PinAct) (s : State) :
    (s.act a).afterMiso n = (s.afterMiso n).act a := rfl

theorem State.afterMiso_acts (n : Nat) (as : List PinAct) (s : State) :
    (s.acts as).afterMiso n = (s.afterMiso n).acts as := by
  induction as generalizing s with
  | nil => rfl
  | cons a as ih => rw [State.acts_cons, ih]; rfl

@[simp] theorem State.misoAt_withHid (h : Hidden) (s : State) (k : Nat) : (s.withHid h).misoAt k = s.misoAt k := rfl
@[simp] theorem State.act_withHid (a : PinAct) (h : Hidden) (s : State) :
    (s.withHid h).act a = (s.act a).withHid h := rfl
@[simp] theorem State.afterMiso_withHid (n : Nat) (h : Hidden) (s : State) :
    (s.withHid h).afterMiso n = (s.afterMiso n).withHid h := rfl
@[simp] theorem State.withHid_withHid (h h' : Hidden) (s : State) : (s.withHid h).withHid h' = s.withHid h' := rfl

theorem State.acts_withHid (as : List PinAct) (h : Hidden) (s : State) :
    (s.withHid h).acts as = (s.acts as).withHid h := by
  induction as generalizing s with
  | nil => rfl
  | cons a as ih => rw [State.acts_cons, State.act_withHid, ih]; rfl

/-! ### The serial transfer -/

/-- One sample of the current bit joins `VOTE`. -/
theorem State.sampleBit_eq (s : State) :
    s.sampleBit = ((s.afterMiso 1).act (.sampleMiso (s.misoAt 0))).withHid
      { s.hid with
        vote := (s.hid.vote <<< 1) ||| (BitVec.ofBool (s.misoAt 0)).setWidth 5
        xfSmp := s.hid.xfSmp + 1 } := by
  simp [State.sampleBit, State.drawMiso_eq]

/-- `VOTE` after five samples. -/
def packVote (x0 x1 x2 x3 x4 : Bool) : BitVec 5 :=
  ([x0, x1, x2, x3, x4].foldl (fun (v : BitVec 5) x => (v <<< 1) ||| (BitVec.ofBool x).setWidth 5) 0)

theorem voteBit_packVote (x0 x1 x2 x3 x4 : Bool) : voteBit (packVote x0 x1 x2 x3 x4) = maj5 x0 x1 x2 x3 x4 := by
  revert x0 x1 x2 x3 x4; decide

/-- The hidden state after a bit period. -/
def Hidden.afterBit (h : Hidden) (b : Nat) (x : Nat → Bool) : Hidden :=
  { h with
    xfBit := b
    xfPhase := some .low
    xfSmp := 5
    vote := packVote (x 0) (x 1) (x 2) (x 3) (x 4)
    rxShift := if maj5 (x 0) (x 1) (x 2) (x 3) (x 4) then h.rxShift ||| BitVec.twoPow 16 b else h.rxShift }

/-- A bit period takes five samples, leaves the trace of R110, and votes. -/
theorem State.bitPeriod_eq (c : Cfg) (b : Nat) (s : State) :
    s.bitPeriod c b = ((s.afterMiso 5).acts (bitActs c (s.hid.txShift.getLsbD b) s.misoAt)).withHid
      (s.hid.afterBit b s.misoAt) := by
  simp only [State.bitPeriod, State.enterPhase, State.phaseWait, State.sampleBit_eq, State.withHid_hid,
    State.act_withHid, State.misoAt_withHid, State.misoAt_act, State.afterMiso_withHid, State.afterMiso_act,
    State.afterMiso_afterMiso, State.misoAt_afterMiso, State.withHid_withHid]
  have hv := voteBit_packVote (s.misoAt 0) (s.misoAt 1) (s.misoAt 2) (s.misoAt 3) (s.misoAt 4)
  simp only [packVote, List.foldl_cons, List.foldl_nil] at hv
  simp only [bitActs, State.acts_cons, State.acts_nil, Hidden.afterBit, packVote, List.foldl_cons, List.foldl_nil]
  simp only [Nat.reduceAdd, hv]

/-- The trace of the bits `n - 1` down to 0 of a word. -/
def bitsActs (c : Cfg) (send : U16) : Nat → (Nat → Bool) → List PinAct
  | 0, _ => []
  | n + 1, x => bitActs c (send.getLsbD n) x ++ bitsActs c send n (fun j => x (5 + j))

theorem wordActs_eq (c : Cfg) (send : U16) (x : Nat → Bool) : wordActs c send x = bitsActs c send 16 x := by
  simp [wordActs, bitsActs, List.range_succ, bitActs]

/-- The hidden state after the bits `n - 1` down to 0. -/
def Hidden.afterBits : Nat → Hidden → (Nat → Bool) → Hidden
  | 0, h, _ => h
  | n + 1, h, x => Hidden.afterBits n (h.afterBit n x) (fun j => x (5 + j))

@[simp] theorem Hidden.afterBits_busy (n : Nat) (h : Hidden) (x : Nat → Bool) : (h.afterBits n x).busy = h.busy := by
  induction n generalizing h x with
  | zero => rfl
  | succ n ih => exact ih _ _

/-- The vote on the five draws that start at `k`. -/
def voteAt (x : Nat → Bool) (k : Nat) : Bool := maj5 (x k) (x (k + 1)) (x (k + 2)) (x (k + 3)) (x (k + 4))

/-- Each bit below `n` gets the vote on its five draws; the others stay. -/
theorem Hidden.afterBits_rxShift (n : Nat) (hn : n ≤ 16) (h : Hidden) (x : Nat → Bool) (b : Nat) :
    (h.afterBits n x).rxShift.getLsbD b =
      (h.rxShift.getLsbD b || (decide (b < n) && voteAt x (5 * (n - 1 - b)))) := by
  induction n generalizing h x with
  | zero => simp [Hidden.afterBits]
  | succ n ih =>
    have hx : ∀ k, voteAt (fun j => x (5 + j)) k = voteAt x (5 + k) := fun k => by simp [voteAt, Nat.add_assoc]
    rw [Hidden.afterBits, ih (by omega), hx]
    have hb : (h.afterBit n x).rxShift.getLsbD b = (h.rxShift.getLsbD b || (decide (b = n) && voteAt x 0)) := by
      have h0 : maj5 (x 0) (x 1) (x 2) (x 3) (x 4) = voteAt x 0 := rfl
      simp only [Hidden.afterBit, h0]
      cases voteAt x 0 <;>
        simp [BitVec.getLsbD_or, BitVec.getLsbD_twoPow, eq_comm, show n < 16 by omega]
    rw [hb]
    rcases Nat.lt_trichotomy b n with hlt | heq | hgt
    · have e : 5 + 5 * (n - 1 - b) = 5 * (n + 1 - 1 - b) := by omega
      simp [hlt, show b < n + 1 by omega, show b ≠ n by omega, e]
    · subst heq; simp
    · simp [show ¬ b < n by omega, show ¬ b < n + 1 by omega, show b ≠ n by omega]

/-- The bit loop: five samples a bit, the trace of its bits, the votes. -/
theorem State.bitLoop_eq (c : Cfg) (n : Nat) (s : State) :
    s.bitLoop c n = ((s.afterMiso (5 * n)).acts (bitsActs c s.hid.txShift n s.misoAt)).withHid
      (s.hid.afterBits n s.misoAt) := by
  induction n generalizing s with
  | zero =>
    simp only [State.bitLoop, bitsActs, Hidden.afterBits, Nat.mul_zero, State.afterMiso_zero, State.acts_nil]
    rfl
  | succ n ih =>
    rw [State.bitLoop, ih, State.bitPeriod_eq]
    have hx : (((s.afterMiso 5).acts (bitActs c (s.hid.txShift.getLsbD n) s.misoAt)).withHid
        (s.hid.afterBit n s.misoAt)).misoAt = fun j => s.misoAt (5 + j) := by
      funext j
      rw [State.misoAt_withHid, State.misoAt_acts, State.misoAt_afterMiso]
    rw [hx]
    simp only [State.withHid_hid, State.afterMiso_withHid, State.afterMiso_acts, State.afterMiso_afterMiso,
      State.acts_withHid, State.withHid_withHid, ← State.acts_append, bitsActs, Hidden.afterBits, Hidden.afterBit]
    rw [show 5 + 5 * n = 5 * (n + 1) by omega]

/-- The word received in a slot whose draws start at `k`. -/
def votedWord (x : Nat → Bool) : U16 := (({ Hidden.idle with rxShift := 0 } : Hidden).afterBits 16 x).rxShift

theorem getLsbD_votedWord (x : Nat → Bool) (b : Nat) :
    (votedWord x).getLsbD b = (decide (b < 16) && voteAt x (5 * (15 - b))) := by
  simp [votedWord, Hidden.afterBits_rxShift]

/-- Word transfer: 80 samples, the trace of the word, and the word voted from them. -/
theorem State.wordTransfer_eq (c : Cfg) (i : Nat) (send : U16) (s : State) :
    ∃ h : Hidden, h.busy = s.hid.busy ∧
      s.wordTransfer c i send =
        (votedWord s.misoAt, ((s.afterMiso 80).acts (wordActs c send s.misoAt)).withHid h) := by
  generalize hh : ({ s.hid with xfWord := i, txShift := send, rxShift := 0 } : Hidden) = h
  have ht : h.txShift = send := by rw [← hh]
  have hr : h.rxShift = 0 := by rw [← hh]
  have hb : h.busy = s.hid.busy := by rw [← hh]
  have hx : (s.withHid h).misoAt = s.misoAt := funext fun k => State.misoAt_withHid h s k
  have hv : (h.afterBits 16 s.misoAt).rxShift = votedWord s.misoAt := by
    apply BitVec.eq_of_getLsbD_eq
    intro b _
    rw [getLsbD_votedWord, Hidden.afterBits_rxShift 16 (Nat.le_refl 16), hr]
    simp
  refine ⟨h.afterBits 16 s.misoAt, by rw [Hidden.afterBits_busy, hb], ?_⟩
  have e := State.bitLoop_eq c 16 (s.withHid h)
  rw [hx, State.afterMiso_withHid, State.acts_withHid, State.withHid_withHid, State.withHid_hid, ht, ← wordActs_eq] at e
  unfold State.wordTransfer
  simp only [hh]
  rw [e, ← hv]
  generalize h.afterBits 16 s.misoAt = h'
  generalize wordActs c send s.misoAt = as
  rfl

/-- The trace of the words of a transfer from slot `i` on. -/
def wordsActs (c : Cfg) : List U16 → (Nat → Bool) → List PinAct
  | [], _ => []
  | w :: ws, x => wordActs c w x ++ wordsActs c ws (fun j => x (80 + j))

/-- The words received. -/
def votedWords : Nat → (Nat → Bool) → List U16
  | 0, _ => []
  | n + 1, x => votedWord x :: votedWords n (fun j => x (80 + j))

/-- The loop over words. -/
theorem State.wordLoop_eq (c : Cfg) (i : Nat) (ws : List U16) (s : State) :
    ∃ h : Hidden, h.busy = s.hid.busy ∧
      s.wordLoop c i ws = (votedWords ws.length s.misoAt,
        ((s.afterMiso (80 * ws.length)).acts (wordsActs c ws s.misoAt)).withHid h) := by
  induction ws generalizing i s with
  | nil => exact ⟨s.hid, rfl, by simp [State.wordLoop, votedWords, wordsActs]; rfl⟩
  | cons w ws ih =>
    obtain ⟨h1, hb1, e1⟩ := State.wordTransfer_eq c i w s
    obtain ⟨h2, hb2, e2⟩ := ih (i + 1) (((s.afterMiso 80).acts (wordActs c w s.misoAt)).withHid h1)
    refine ⟨h2, by rw [hb2, State.withHid_hid, hb1], ?_⟩
    have hx : (((s.afterMiso 80).acts (wordActs c w s.misoAt)).withHid h1).misoAt = fun j => s.misoAt (80 + j) := by
      funext j
      rw [State.misoAt_withHid, State.misoAt_acts, State.misoAt_afterMiso]
    rw [hx, State.afterMiso_withHid, State.afterMiso_acts, State.afterMiso_afterMiso, State.acts_withHid,
      State.withHid_withHid, ← State.acts_append, ← wordsActs, show 80 + 80 * ws.length = 80 * (w :: ws).length by
        rw [List.length_cons]; omega] at e2
    unfold State.wordLoop
    rw [e1]
    dsimp only
    rw [e2]
    rfl

theorem votedWord_eq_incomingWord (s : State) (i : Nat) :
    votedWord (fun j => s.misoAt (80 * i + j)) = s.incomingWord i := by
  apply BitVec.eq_of_getLsbD_eq
  intro b hb
  rw [getLsbD_votedWord]
  have hv : ∀ b, voteAt (fun j => s.misoAt (80 * i + j)) (5 * (15 - b)) = s.incomingBit i b := fun b => by
    simp [voteAt, State.incomingBit, Nat.add_assoc]
  rw [hv]
  simp only [State.incomingWord]
  generalize s.incomingBit i = f
  have key : ∀ (l : List Nat) (w : U16), (∀ x ∈ l, x < 16) →
      (l.foldl (fun w b => if f b then w ||| BitVec.twoPow 16 b else w) w).getLsbD b =
        (w.getLsbD b || (decide (b ∈ l) && f b)) := by
    intro l
    induction l with
    | nil => simp
    | cons a l ih =>
      intro w hl
      rw [List.foldl_cons, ih _ (fun x hx => hl x (List.mem_cons_of_mem _ hx))]
      by_cases hab : b = a
      · subst hab
        cases hf : f b <;> simp [hb]
      · cases hf : f a <;> simp [BitVec.getLsbD_or, BitVec.getLsbD_twoPow, hab, Ne.symm hab]
  rw [key _ _ (fun x hx => List.mem_range.mp hx)]
  simp [hb]

theorem votedWords_eq (s : State) (n : Nat) :
    votedWords n s.misoAt = (List.range n).map s.incomingWord := by
  have key : ∀ n i, votedWords n (fun j => s.misoAt (80 * i + j)) =
      (List.range' i n).map s.incomingWord := by
    intro n
    induction n with
    | zero => intro i; rfl
    | succ n ih =>
      intro i
      have e : (fun j => s.misoAt (80 * i + (80 + j))) = fun j => s.misoAt (80 * (i + 1) + j) := by
        funext j; congr 1; omega
      rw [votedWords, votedWord_eq_incomingWord, e, ih (i + 1)]
      simp [List.range'_succ]
  have := key n 0
  simpa [List.range_eq_range'] using this

theorem wordsActs_eq (c : Cfg) (ws : List U16) (x : Nat → Bool) :
    wordsActs c ws x = ws.zipIdx.flatMap fun p => wordActs c p.1 (fun j => x (80 * p.2 + j)) := by
  have key : ∀ (ws : List U16) i, wordsActs c ws (fun j => x (80 * i + j)) =
      (ws.zipIdx i).flatMap fun p => wordActs c p.1 (fun j => x (80 * p.2 + j)) := by
    intro ws
    induction ws with
    | nil => intro i; rfl
    | cons w ws ih =>
      intro i
      have e : (fun j => x (80 * i + (80 + j))) = fun j => x (80 * (i + 1) + j) := by
        funext j; congr 1; omega
      rw [wordsActs, e, ih (i + 1)]
      simp [List.zipIdx_cons]
  simpa using key ws 0

@[simp] theorem length_wordsSent (out : Option (List U16)) (n : Nat) : (wordsSent out n).length = n := by
  cases out <;> simp [wordsSent]
  omega

/-- Everything a transfer does: the words voted from the next `80 * n` samples, the trace of R110, the sequencer idle again;
no register is written. -/
theorem State.xfer_eq (c : Cfg) (out : Option (List U16)) (n : Nat) (s : State) :
    s.xfer c out n = ((List.range n).map s.incomingWord,
      ((s.afterMiso (80 * n)).acts (xferActs c (wordsSent out n) s.misoAt)).withHid
        { Hidden.idle with busy := s.hid.busy }) := by
  obtain ⟨h, hb, e⟩ := State.wordLoop_eq c 0 (wordsSent out n) ((s.act (.write .csN false)).act (.wait c.tCsSetup))
  have hx : ((s.act (.write .csN false)).act (.wait c.tCsSetup)).misoAt = s.misoAt := by
    funext k; simp
  rw [hx, length_wordsSent, votedWords_eq] at e
  simp only [State.xfer, e, State.act_withHid, State.withHid_withHid, State.withHid_hid, hb, State.act_hid, xferActs,
    ← wordsActs_eq, State.acts_append, State.acts_cons, State.acts_nil, State.afterMiso_act]

/-- A one-word transfer. -/
theorem State.xferWord_eq (c : Cfg) (out : Option (List U16)) (s : State) :
    s.xferWord c out = (s.incomingWord 0,
      ((s.afterMiso 80).acts (xferActs c (wordsSent out 1) s.misoAt)).withHid
        { Hidden.idle with busy := s.hid.busy }) := by
  simp [State.xferWord, State.xfer_eq]

/-- The control-line sequence, started from its idle position, leaves the trace of R151 and is idle again. -/
theorem State.controlLines_eq (c : Cfg) (s : State) (h : s.hid.resPos = .idle) :
    s.controlLines c = s.acts (controlActs c) := by
  obtain ⟨regs, hid, ports, out, env, free⟩ := s
  obtain ⟨busy, xfWord, xfBit, xfPhase, xfSmp, txShift, rxShift, vote, debounce, resPos⟩ := hid
  subst h
  rfl

/-! ### A transfer moves no pin of a settled block -/

/-- A bit period leaves the pins as they were but for `MOSI`. -/
theorem foldl_bitActs (c : Cfg) (ps : Pins) (hb : ps.busOe = true) (hs : ps.sck = .driven false) (out : Bool)
    (x : Nat → Bool) : (bitActs c out x).foldl Pins.act ps = { ps with mosi := .driven out } := by
  obtain ⟨busOe, resOe, sck, csN, mosi, rdvel, sampleN⟩ := ps
  simp only at hb hs
  subst hb hs
  rfl

/-- Bits in a row leave the pins as they were but for `MOSI`. -/
theorem foldl_bitsActs (c : Cfg) (send : U16) (n : Nat) (x : Nat → Bool) (ps : Pins) (hb : ps.busOe = true)
    (hs : ps.sck = .driven false) : ∃ l, (bitsActs c send n x).foldl Pins.act ps = { ps with mosi := l } := by
  induction n generalizing ps x with
  | zero => exact ⟨ps.mosi, rfl⟩
  | succ n ih =>
    rw [bitsActs, List.foldl_append, foldl_bitActs c ps hb hs]
    exact ih _ _ hb hs

/-- Words in a row leave the pins as they were but for `MOSI`. -/
theorem foldl_wordsActs (c : Cfg) (ws : List U16) (x : Nat → Bool) (ps : Pins) (hb : ps.busOe = true)
    (hs : ps.sck = .driven false) : ∃ l, (wordsActs c ws x).foldl Pins.act ps = { ps with mosi := l } := by
  induction ws generalizing ps x with
  | nil => exact ⟨ps.mosi, rfl⟩
  | cons w ws ih =>
    rw [wordsActs, List.foldl_append, wordActs_eq]
    obtain ⟨l, e⟩ := foldl_bitsActs c w 16 x ps hb hs
    rw [e]
    exact ih _ _ hb hs

/-- A transfer over a bus that is driven and idle leaves every pin as it was (R116, R211). -/
theorem foldl_xferActs_driven (c : Cfg) (ws : List U16) (x : Nat → Bool) (ps : Pins) (hb : ps.busOe = true)
    (hs : ps.sck = .driven false) (hc : ps.csN = .driven true) (hm : ps.mosi = .driven true) :
    (xferActs c ws x).foldl Pins.act ps = ps := by
  obtain ⟨busOe, resOe, sck, csN, mosi, rdvel, sampleN⟩ := ps
  simp only at hb hs hc hm
  subst hb hs hc hm
  obtain ⟨l, e⟩ := foldl_wordsActs c ws x ⟨true, resOe, .driven false, .driven false, .driven true, rdvel, sampleN⟩ rfl rfl
  rw [xferActs, ← wordsActs_eq, List.foldl_append, List.foldl_append]
  show List.foldl Pins.act (List.foldl Pins.act
    ⟨true, resOe, .driven false, .driven false, .driven true, rdvel, sampleN⟩ (wordsActs c ws x)) _ = _
  rw [e]
  rfl

/-- A released pin stays released: only the row of a mode changes an output enable (R41, R48, R211). -/
theorem Pins.act_released (a : PinAct) (h : a.isModeRow = false) :
    (Pins.ofMode .none).act a = Pins.ofMode .none := by
  cases a with
  | write p b => cases p <;> rfl
  | modeRow m => cases h
  | _ => rfl

/-- A transfer over released pins leaves them released. -/
theorem foldl_xferActs_released (c : Cfg) (ws : List U16) (x : Nat → Bool) :
    (xferActs c ws x).foldl Pins.act (Pins.ofMode .none) = Pins.ofMode .none := by
  have h := xferActs_noModeRow c ws x
  generalize xferActs c ws x = l at h
  induction l with
  | nil => rfl
  | cons a l ih =>
    rw [List.foldl_cons, Pins.act_released a (h a (List.mem_cons_self ..))]
    exact ih fun b hb => h b (List.mem_cons_of_mem _ hb)

/-- In every mode a transfer leaves the pins of the mode's row as they were. -/
theorem foldl_xferActs (c : Cfg) (ws : List U16) (x : Nat → Bool) (m : Mode) :
    (xferActs c ws x).foldl Pins.act (Pins.ofMode m) = Pins.ofMode m := by
  cases m
  · exact foldl_xferActs_released c ws x
  · exact foldl_xferActs_released c ws x
  · exact foldl_xferActs_driven c ws x _ rfl rfl rfl rfl
  · exact foldl_xferActs_driven c ws x _ rfl rfl rfl rfl
  · exact foldl_xferActs_released c ws x

/-- In every mode the control-line sequence leaves the pins of the mode's row as they were. -/
theorem foldl_controlActs (c : Cfg) (m : Mode) :
    (controlActs c).foldl Pins.act (Pins.ofMode m) = Pins.ofMode m := by
  cases m <;> rfl

/-! ### Trackers, the fail-safe hold, frames -/

/-- A counter after one more fault, and what is used up. -/
theorem State.countFault_eq (cnt : U32) (s : State) :
    s.countFault cnt = if cnt = 0xFFFFFFFF#32 then (Config.freeWord s.free, { s with free := s.free + 1 })
      else (cnt + 1, s) := rfl

/-- The fail-safe hold writes no more than the fault's tracker and the outcome: `LAST_ANGLE`, `MODE` and all else are held
(R251). -/
theorem State.raiseFault_cases (c : Cfg) (f : DecodeFault) (s : State) :
    ∃ (r : Regs) (k : Nat), s.raiseFault c f =
        { s with regs := r, out := { s.out with outcome := some f.outcome }, free := k } ∧
      ((f = .parity ∨ f = .disconnect) ∧ (∃ n, countsOneMore s.regs.spiErrCnt n ∧
          r = { s.regs with spiErrCnt := n, spiErrRate := rateUp c s.regs.spiErrRate }) ∨
        f = .statusInvalid ∧ r = s.regs ∧ k = s.free ∨
        f = .signalBelowMin ∧ (∃ n, countsOneMore s.regs.scBelowCnt n ∧
          r = { s.regs with scBelowCnt := n, scBelowRate := rateUp c s.regs.scBelowRate }) ∨
        f = .signalAboveMax ∧ (∃ n, countsOneMore s.regs.scAboveCnt n ∧
          r = { s.regs with scAboveCnt := n, scAboveRate := rateUp c s.regs.scAboveRate })) := by
  have key : ∀ cnt : U32, ∃ n k, (s.giveOutcome f.outcome).countFault cnt =
      (n, { s with out := { s.out with outcome := some f.outcome }, free := k }) ∧ countsOneMore cnt n := by
    intro cnt
    by_cases h : cnt = 0xFFFFFFFF#32
    · exact ⟨_, _, by rw [State.countFault_eq, if_pos h]; rfl, fun h' => absurd h h'⟩
    · exact ⟨_, s.free, by rw [State.countFault_eq, if_neg h]; rfl, fun _ => rfl⟩
  cases f
  · obtain ⟨n, k, e, hn⟩ := key s.regs.spiErrCnt
    exact ⟨_, k, by simp only [State.raiseFault, State.giveOutcome_regs, e]; rfl, .inl ⟨.inl rfl, n, hn, rfl⟩⟩
  · obtain ⟨n, k, e, hn⟩ := key s.regs.spiErrCnt
    exact ⟨_, k, by simp only [State.raiseFault, State.giveOutcome_regs, e]; rfl, .inl ⟨.inr rfl, n, hn, rfl⟩⟩
  · exact ⟨_, s.free, rfl, .inr (.inl ⟨rfl, rfl, rfl⟩)⟩
  · obtain ⟨n, k, e, hn⟩ := key s.regs.scBelowCnt
    exact ⟨_, k, by simp only [State.raiseFault, State.giveOutcome_regs, e]; rfl,
      .inr (.inr (.inl ⟨rfl, n, hn, rfl⟩))⟩
  · obtain ⟨n, k, e, hn⟩ := key s.regs.scAboveCnt
    exact ⟨_, k, by simp only [State.raiseFault, State.giveOutcome_regs, e]; rfl,
      .inr (.inr (.inr ⟨rfl, n, hn, rfl⟩))⟩

/-- What the fail-safe hold of an absolute-encoder fault writes, value by value (R136, R231, R251). -/
theorem State.raiseFault_abs (c : Cfg) (f : DecodeFault) (hf : f = .parity ∨ f = .disconnect) (s : State) :
    ∃ n k, s.raiseFault c f = { s with
        regs := { s.regs with spiErrCnt := n, spiErrRate := rateUp c s.regs.spiErrRate }
        out := { s.out with outcome := some f.outcome }
        free := k } ∧
      countsOneMore s.regs.spiErrCnt n ∧ (s.regs.spiErrCnt ≠ 0xFFFFFFFF#32 → k = s.free) := by
  by_cases h : s.regs.spiErrCnt = 0xFFFFFFFF#32
  · refine ⟨Config.freeWord s.free, s.free + 1, ?_, fun h' => absurd h h', fun h' => absurd h h'⟩
    rcases hf with rfl | rfl <;> simp only [State.raiseFault, State.countFault_eq, State.giveOutcome_regs, if_pos h] <;> rfl
  · refine ⟨s.regs.spiErrCnt + 1, s.free, ?_, fun _ => rfl, fun _ => rfl⟩
    rcases hf with rfl | rfl <;> simp only [State.raiseFault, State.countFault_eq, State.giveOutcome_regs, if_neg h] <;> rfl

theorem State.withRegs_giveOutcome (r : Regs) (o : DecodeOutcome) (s : State) :
    (s.withRegs r).giveOutcome o = { s with regs := r, out := { s.out with outcome := some o } } := rfl

/-- An accepted absolute-encoder frame (R135). Cite this rather than compare two states that hold an angle by `rfl`: the
kernel would compute the angle. -/
theorem State.receiveAbs_accepted (c : Cfg) (w : U16) (s : State) (h : absAccepted w = true) :
    s.receiveAbs c w = { s with
      regs := { s.regs with spiVal := w, lastAngle := absAngle w, spiErrRate := rateDown c s.regs.spiErrRate }
      out := { s.out with outcome := some (.valid (absAngle w)) } } :=
  have hr (a r : F32) : ((s.withRegs { s.regs with spiVal := w }).withRegs
      { (s.withRegs { s.regs with spiVal := w }).regs with lastAngle := a, spiErrRate := r }).giveOutcome (.valid a) =
      { s with
        regs := { s.regs with spiVal := w, lastAngle := a, spiErrRate := r }
        out := { s.out with outcome := some (.valid a) } } := rfl
  (if_pos h).trans (hr (absAngle w) (rateDown c s.regs.spiErrRate))

/-- A rejected absolute-encoder frame (R136). -/
theorem State.receiveAbs_rejected (c : Cfg) (w : U16) (s : State) (h : absAccepted w = false) :
    s.receiveAbs c w = (s.withRegs { s.regs with spiVal := w }).raiseFault c
      (if isSentinel w then .disconnect else .parity) := by
  simp only [State.receiveAbs, h, Bool.false_eq_true, if_false]

/-- An accepted resolver frame (R153). -/
theorem State.receiveRes_healthy (c : Cfg) (w : U16) (s : State) (h : resHealthy c w = true) :
    s.receiveRes c w = { s with
      regs := { s.regs with lastAngle := resAngle w }
      out := { s.out with outcome := some (.valid (resAngle w)) } } :=
  (if_pos h).trans (State.withRegs_giveOutcome { s.regs with lastAngle := resAngle w } (.valid (resAngle w)) s)

/-- A rejected resolver frame (R154). -/
theorem State.receiveRes_unhealthy (c : Cfg) (w : U16) (s : State) (h : resHealthy c w = false) :
    s.receiveRes c w = { s with out := { s.out with outcome := some .statusInvalid } } := by
  simp only [State.receiveRes, h, Bool.false_eq_true, if_false]
  rfl

/-- The valid-band branch (R170). -/
theorem State.acceptSincos_eq (c : Cfg) (sn cs : F32) (s : State) :
    s.acceptSincos c sn cs = { s with
      regs := { s.regs with
        scAboveRate := rateDown c s.regs.scAboveRate
        scBelowRate := rateDown c s.regs.scBelowRate
        lastAngle := lpfStep s.regs.lastAngle (c.atan2deg sn cs) s.regs.scFilterK }
      out := { s.out with
        outcome := some (.valid (lpfStep s.regs.lastAngle (c.atan2deg sn cs) s.regs.scFilterK)) } } := by
  simp only [State.acceptSincos]
  generalize rateDown c s.regs.scAboveRate = ra
  generalize rateDown c s.regs.scBelowRate = rb
  generalize lpfStep s.regs.lastAngle (c.atan2deg sn cs) s.regs.scFilterK = a
  rfl

/-! ### Responses -/

/-- A response joins the trace and stands on the port. -/
theorem State.respond_eq (v : U32) (s : State) :
    s.respond v = { s with
      ports := { s.ports with rspValid := true, rspData := v }
      out := { s.out with trace := s.out.trace ++ [.pulse .rspValid] } } := rfl

/-- The response with an angle: its wrap where the angle is finite, else any value, with one free value used (R206, U4). -/
theorem State.respondAngle_cases (c : Cfg) (a : F32) (s : State) : ∃ v k,
    s.respondAngle c a = ({ s with free := k } : State).respond v ∧
      (isFinite a = true → v = wrapAngle c.angleWrap a ∧ k = s.free) := by
  by_cases h : isFinite a = true
  · exact ⟨_, s.free, if_pos h, fun _ => ⟨rfl, rfl⟩⟩
  · exact ⟨Config.freeWord s.free, s.free + 1, if_neg h, fun h' => absurd h' h⟩

end Sys2Proof.Machine
end

