-- ==== Sys2Proof/Laws/Params.lean ====
section
/-! SUPPORT. What is known of the machine's configuration: that it is legal, clause by clause (R8, R172; log 8, log 9). -/

namespace Sys2Proof.Machine

/-- A4 of R172. -/
theorem cfg_atan2deg_zero (c : F32) (hc : isFinite c = true) (h : fgt c fZero = true) : cfg.atan2deg fZero c = fZero :=
  cfg_legal.atanZero _ _ (by simp [atanZeroCase, hc, h])

/-- A2 and A3 of R172, on the arguments the block calls the function with. -/
theorem cfg_atan2deg_band (s c : F32) (hs : isFinite s = true) (hc : isFinite c = true)
    (hm : flt (magnitudeSq s c) minSq = false) :
    inHalfTurn (cfg.atan2deg s c) = true ∧ angleClose cfg s c (fReal (cfg.atan2deg s c)) :=
  have h : atanRangeCase s c = true := by simp [atanRangeCase, hs, hc, hm]
  ⟨cfg_legal.atanRange _ _ h, cfg_legal.atanClose _ _ h⟩

/-- The three status bit positions are different (R8). -/
theorem cfg_status_bits_ne :
    cfg.resRdvelBit ≠ cfg.resDosBit ∧ cfg.resRdvelBit ≠ cfg.resLotBit ∧ cfg.resDosBit ≠ cfg.resLotBit := by
  simpa [statusBitsDiffer, and_assoc] using cfg_legal.statusBits

/-- `ERR_FILTER_K` is a number in `[0.0, 1.0]` (R8). -/
theorem cfg_errFilterK_inUnit : inUnit cfg.errFilterK = true := cfg_legal.filterInUnit

end Sys2Proof.Machine
end

