-- ==== Sys2Proof/Laws/PerInstr.lean ====
section
/-! SUPPORT. Statements about every operation as syntax, one lemma per constructor. -/

namespace Sys2Proof.Laws.RowMatch

/-- The encoding of an operation has the format and the fixed bits of its row of `spec/opcode_table.json`. -/
def Statement (i : Instr) : Prop := (encode i).matchesRow i.row = true

/-- The lowest four bits of the command port are `cmd_op` (R81). -/
theorem cmdPort_op (op : BitVec 4) (a0 a1 a2 a3 a4 : U32) :
    (Machine.cmdPort op a0 a1 a2 a3 a4).toNat &&& 0xF = op.toNat := by
  have hop : Machine.cmdOp (Machine.cmdPort op a0 a1 a2 a3 a4) = op := by
    apply BitVec.eq_of_getLsbD_eq
    intro i hi
    unfold Machine.cmdOp Machine.cmdPort
    rw [BitVec.getLsbD_extractLsb', BitVec.getLsbD_append, BitVec.getLsbD_append, BitVec.getLsbD_append,
      BitVec.getLsbD_append, BitVec.getLsbD_append]
    simp [hi, show i < 132 by omega]
    repeat (first | rw [if_pos (by omega)] | rfl)
  have h : (Machine.cmdPort op a0 a1 a2 a3 a4).toNat % 2 ^ 4 = op.toNat := by
    conv_rhs => rw [← hop]
    simp [Machine.cmdOp]
  rw [show (0xF : Nat) = 2 ^ 4 - 1 from rfl, Nat.and_two_pow_sub_one_eq_mod, h]

/-- A command matches a row with its code. -/
theorem command_matches (m : String) (op : BitVec 4) (a0 a1 a2 a3 a4 : U32) :
    (commandOf op a0 a1 a2 a3 a4).matchesRow ⟨m, .cmd, 0xF, op.toNat⟩ = true := by
  show ((Machine.cmdPort op a0 a1 a2 a3 a4).toNat &&& 0xF == op.toNat) = true
  rw [cmdPort_op]
  exact beq_self_eq_true _

theorem initQuad (cpr : U32) : Statement (.initQuad cpr) := command_matches _ 0x1 cpr 0 0 0 0
theorem initAbs : Statement .initAbs := command_matches _ 0x2 0 0 0 0 0
theorem initRes : Statement .initRes := command_matches _ 0x3 0 0 0 0 0
theorem initSincos (sg so cg co k : F32) : Statement (.initSincos sg so cg co k) :=
  command_matches _ 0x4 sg so cg co k
theorem deinit : Statement .deinit := command_matches _ 0x5 0 0 0 0 0
theorem setCounts (cpr : U32) : Statement (.setCounts cpr) := command_matches _ 0x6 cpr 0 0 0 0
theorem readAngle : Statement .readAngle := command_matches _ 0x7 0 0 0 0 0
theorem isConfigured : Statement .isConfigured := command_matches _ 0x8 0 0 0 0 0
theorem rdDiag (idx : U32) : Statement (.rdDiag idx) := command_matches _ 0x9 idx 0 0 0 0
theorem reserved0 : Statement .reserved0 := command_matches _ 0x0 0 0 0 0 0
theorem reservedA : Statement .reservedA := command_matches _ 0xA 0 0 0 0 0
theorem reservedB : Statement .reservedB := command_matches _ 0xB 0 0 0 0 0
theorem reservedC : Statement .reservedC := command_matches _ 0xC 0 0 0 0 0
theorem reservedD : Statement .reservedD := command_matches _ 0xD 0 0 0 0 0
theorem reservedE : Statement .reservedE := command_matches _ 0xE 0 0 0 0 0
theorem reservedF : Statement .reservedF := command_matches _ 0xF 0 0 0 0 0
theorem tick : Statement .tick := rfl
theorem index : Statement .index := rfl
theorem sincosSample (rawSin rawCos : F32) : Statement (.sincosSample rawSin rawCos) := by
  show ((0b100 : BitVec 3).toNat &&& 0b100 == 0b100) = true
  rfl
theorem absCmd : Statement .absCmd := by
  show ((0xFFFF#16).toNat &&& 0xFFFF == 0xFFFF) = true
  rfl
theorem absReply (w : U16) : Statement (.absReply w) := by
  show (w.toNat &&& 0 == 0) = true
  rw [Nat.and_zero]
  rfl
theorem resCmd : Statement .resCmd := by
  show ((0xFFFF#16).toNat &&& 0xFFFF == 0xFFFF) = true
  rfl
theorem resReply (w : U16) : Statement (.resReply w) := by
  show (w.toNat &&& 0 == 0) = true
  rw [Nat.and_zero]
  rfl
theorem xfer (out : Option (List U16)) (n : Nat) : Statement (.xfer out n) := rfl
theorem maj5 (s0 s1 s2 s3 s4 : Bool) : Statement (.maj5 s0 s1 s2 s3 s4) := rfl
theorem parity16 (w : U16) : Statement (.parity16 w) := rfl
theorem lpf (v t k : F32) : Statement (.lpf v t k) := rfl
theorem atan2deg (s c : F32) : Statement (.atan2deg s c) := rfl
theorem wrap (a : F32) : Statement (.wrap a) := rfl

end Sys2Proof.Laws.RowMatch
end

