-- ==== Sys2Proof/Laws/Step.lean ====
section
/-! SUPPORT. What `fetch` can answer and what a step can do, each said once. -/

namespace Sys2Proof.Machine

/-- A step without an operation: nothing arrives or no source of a cycle asks, a busy block waits, or the cycle has `rst`. -/
def State.quietTo (s t : State) : Prop :=
  (∃ as, t = (s.withArrivals as).accept.finish) ∨
  (s.hid.busy = true ∧ t = s.finish) ∨
  ∃ c rest, s.env.arrivals = .ports c :: rest ∧ c.rst = true ∧ t = (s.withArrivals rest).resetAfter [] s.free

/-- One cycle before an idle block is quiet, or starts one operation in the present state, or stops. -/
theorem State.fetchCycle_cases (c : PortCycle) (rest : List Arrival) (s : State) (hs : s.env.arrivals = .ports c :: rest) :
    match s.fetchCycle c rest with
    | .quiet t => s.quietTo t
    | .operation _ s0 _ => ∃ as, s0 = s.withArrivals as
    | .fault _ | .refused _ => True := by
  unfold State.fetchCycle
  by_cases hr : c.rst = true
  · rw [if_pos hr]; exact .inr (.inr ⟨c, rest, hs, hr, rfl⟩)
  rw [if_neg hr]
  by_cases hw : (c.whileBusy && c.strobes != 0) = true
  · rw [if_pos hw]; trivial
  rw [if_neg hw]
  cases c.first with
  | none => exact .inl ⟨rest, rfl⟩
  | some src =>
    dsimp only
    cases decode s.regs.mode (c.encoding src) with
    | ok i => exact ⟨_, rfl⟩
    | error e => trivial

/-- What stands before the block is quiet, or starts one operation in the present state, or stops. -/
theorem State.fetch_cases (s : State) :
    match s.fetch with
    | .quiet t => s.quietTo t
    | .operation _ s0 _ => ∃ as, s0 = s.withArrivals as
    | .fault _ | .refused _ => True := by
  unfold State.fetch
  cases hs : s.env.arrivals with
  | nil => exact .inl ⟨s.env.arrivals, rfl⟩
  | cons a rest =>
    cases a with
    | ports c =>
      dsimp only
      by_cases hb : (!s.cmdReady && !c.rst) = true
      · rw [if_pos hb]
        by_cases hc : (c.strobes != 0) = true
        · rw [if_pos hc]; trivial
        · rw [if_neg hc]
          simp only [State.cmdReady, Bool.not_not, Bool.and_eq_true] at hb
          exact .inr (.inl ⟨hb.1, rfl⟩)
      · rw [if_neg hb]; exact s.fetchCycle_cases c rest hs
    | frame dir w =>
      dsimp only
      cases decode s.regs.mode (.frame dir w) with
      | ok i => exact ⟨_, rfl⟩
      | error e => trivial

/-- Where a step goes on, it is quiet, or one whole operation, or an operation that `rst` cut. -/
theorem step_cases (s t : State) (h : step s = .next t) :
    s.quietTo t ∨ (∃ i as, exec i (s.withArrivals as) = .next t) ∨
      ∃ i as k u, exec i (s.withArrivals as) = .next u ∧ t = (s.withArrivals as).cutByReset k u := by
  have hf := s.fetch_cases
  unfold step at h
  cases e : s.fetch with
  | quiet u => rw [e] at h hf; cases h; exact .inl hf
  | fault f => rw [e] at h; cases h
  | refused r => rw [e] at h; cases h
  | operation i s0 r =>
    rw [e] at h hf
    obtain ⟨as, rfl⟩ := hf
    cases r with
    | none => exact .inr (.inl ⟨i, as, h⟩)
    | some k =>
      dsimp only at h
      cases e : exec i (s.withArrivals as) with
      | next u => rw [e] at h; cases h; exact .inr (.inr ⟨i, as, k, u, e, rfl⟩)
      | fault f => rw [e] at h; cases h
      | refused r => rw [e] at h; cases h

/-- A step leaves every register as it was, or all of them as one operation leaves them, or all at reset: whatever stands before or
after it sees all the register writes of an operation or none (R67). This is the fence of R72, and there is no other. -/
theorem step_regs_whole (s t : State) (h : step s = .next t) :
    t.regs = s.regs ∨ (∃ i as, exec i (s.withArrivals as) = .next t) ∨ t.regs = Regs.default := by
  rcases step_cases s t h with (⟨as, rfl⟩ | ⟨_, rfl⟩ | ⟨_, _, _, _, rfl⟩) | h | ⟨_, _, _, _, _, rfl⟩
  · exact .inl rfl
  · exact .inl rfl
  · exact .inr (.inr rfl)
  · exact .inr (.inl h)
  · exact .inr (.inr rfl)

end Sys2Proof.Machine
end

