-- ==== Sys2Proof/Tests/Slice0.lean ====
section
/-! SUPPORT. The author's own tests: the well-formedness checks refuse, every constructor decodes from its word, a few vectors of
`spec/95_test_vectors.md`, and for each obligation with hypotheses a state and operands that meet them. -/

namespace Sys2Proof.Tests

open Sys2Proof.Machine

/-! ### Helpers -/

/-- A settled block in a mode, with these samples of `MISO` to come. -/
def st (m : Mode) (miso : List Bool) : State :=
  { State.reset with
    regs := { Regs.default with mode := m }
    ports := { Ports.reset with pins := Pins.ofMode m }
    env := ⟨[], miso, [], []⟩ }

/-- The draws of a clean frame: each bit five times, bit 15 first. -/
def clean (w : U16) : List Bool := (List.range 16).flatMap fun k => List.replicate 5 (w.getLsbD (15 - k))

/-- The suggested configuration with an arctangent that is 90 everywhere, as of `(1.0, 0.0)` in sequence SS. -/
def c90 : Cfg := suggestedCfg (fun _ _ => 0x42B40000#32) .halfOpen

/-- A port cycle in which nothing asks. -/
def idleCycle : PortCycle := { PortCycle.commandOnly 0 with cmdValid := false }

/-- `s` with one port cycle to come. -/
def before (c : PortCycle) (s : State) : State := s.withArrivals [.ports c]

/-! ### An ill-formed term for each check of `wellFormed` -/

theorem test_initQuad_zero_ill : (Instr.initQuad 0).wellFormed 1 = false := by decide
theorem test_initQuad_large_ill : (Instr.initQuad 1431655766).wellFormed 1 = false := by decide
theorem test_setCounts_zero_ill : (Instr.setCounts 0).wellFormed 1 = false := by decide
theorem test_setCounts_large_ill : (Instr.setCounts 1431655766).wellFormed 1 = false := by decide
theorem test_initSincos_sinGain_ill : (Instr.initSincos 0x7F800000 0 0 0 0).wellFormed 1 = false := by decide
theorem test_initSincos_sinOffset_ill : (Instr.initSincos 0 0xFF800000 0 0 0).wellFormed 1 = false := by decide
theorem test_initSincos_cosGain_ill : (Instr.initSincos 0 0 0x7FC00000 0 0).wellFormed 1 = false := by decide
theorem test_initSincos_cosOffset_ill : (Instr.initSincos 0 0 0 0x7F800001 0).wellFormed 1 = false := by decide
theorem test_sincosSample_sin_ill : (Instr.sincosSample 0x7F800000 0).wellFormed 1 = false := by decide
theorem test_sincosSample_cos_ill : (Instr.sincosSample 0 0x7FC00000).wellFormed 1 = false := by decide
theorem test_xfer_no_word_ill : (Instr.xfer none 0).wellFormed 1 = false := by decide
theorem test_xfer_too_many_ill : (Instr.xfer none 2).wellFormed 1 = false := by decide
theorem test_xfer_payload_length_ill : (Instr.xfer (some [0, 0]) 1).wellFormed 1 = false := by decide
theorem test_wrap_ill : (Instr.wrap 0x7FC00000).wellFormed 1 = false := by decide
theorem test_atan2deg_sin_ill : (Instr.atan2deg 0x7F800000 0).wellFormed 1 = false := by decide
theorem test_atan2deg_cos_ill : (Instr.atan2deg 0 0xFF800000).wellFormed 1 = false := by decide
theorem test_initSincos_filter_unchecked : (Instr.initSincos 0 0 0 0 0x7FC00000).wellFormed 1 = true := by decide

/-! ### Every constructor's decoding, from a port value written out bit by bit

The command words: `cmd_op` in bits 3:0 (R82), `cmd_a0` from bit 4 up (R81). -/

theorem test_decode_commands :
    decode .none (.command 0b0000) = .ok .reserved0 ∧
    decode .none (.command 0b0010) = .ok .initAbs ∧
    decode .none (.command 0b0011) = .ok .initRes ∧
    decode .none (.command 0b0101) = .ok .deinit ∧
    decode .none (.command 0b0111) = .ok .readAngle ∧
    decode .none (.command 0b1000) = .ok .isConfigured := by decide

theorem test_decode_reserved :
    decode .quadrature (.command 0b1010) = .ok .reservedA ∧
    decode .quadrature (.command 0b1011) = .ok .reservedB ∧
    decode .quadrature (.command 0b1100) = .ok .reservedC ∧
    decode .quadrature (.command 0b1101) = .ok .reservedD ∧
    decode .quadrature (.command 0b1110) = .ok .reservedE ∧
    decode .quadrature (.command 0b1111) = .ok .reservedF := by decide

/-- P2 lines 1, 9 and 11: `op=0x1 a0=0x00002000`, `op=0x6 a0=0x00001000`, `op=0x9 a0=0x00000001`. -/
theorem test_decode_commands_with_argument :
    decode .none (.command 0b0000_0000_0000_0000_0010_0000_0000_0000_0001) = .ok (.initQuad 0x2000) ∧
    decode .none (.command 0b0000_0000_0000_0000_0001_0000_0000_0000_0110) = .ok (.setCounts 0x1000) ∧
    decode .none (.command 0b0000_0000_0000_0000_0000_0000_0000_0001_1001) = .ok (.rdDiag 1) := by decide

/-- P3 line 1: `op=0x4 a0=0x40000000 a1=0x3F800000 a2=0x40000000 a3=0x3F800000 a4=0x3F000000`, the fields side by side. -/
theorem test_decode_initSincos :
    decode .none (.command 0x3F0000003F800000400000003F800000400000004) =
      .ok (.initSincos 0x40000000 0x3F800000 0x40000000 0x3F800000 0x3F000000) := by decide

/-- R84: the four unused argument fields of `SET_COUNTS` are not looked at. -/
theorem test_decode_ignores_unused :
    decode .none (.command 0xFFFFFFFFFFFFFFFFFFFFFFFFFFFFFFFF000010006) = .ok (.setCounts 0x1000) := by decide

/-- R85: the strobes; none and several are no operation. -/
theorem test_decode_events :
    decode .none (.event 0b001 1 2) = .ok .tick ∧ decode .none (.event 0b010 1 2) = .ok .index ∧
    decode .none (.event 0b100 1 2) = .ok (.sincosSample 1 2) ∧
    decode .none (.event 0b000 1 2) = .error .noStrobe ∧ decode .none (.event 0b101 1 2) = .error .severalStrobes := by
  decide

/-- R87, R88: the word sent is sixteen ones; a received word is read whole. -/
theorem test_decode_abs_frames :
    decode .absoluteSpi (.frame .toSensor 0b1111111111111111) = .ok .absCmd ∧
    decode .absoluteSpi (.frame .toSensor 0b1111111111111110) = .error .neverSent ∧
    decode .absoluteSpi (.frame .fromSensor 0b1000000000000001) = .ok (.absReply 0x8001) := by decide

/-- R89, R91. -/
theorem test_decode_res_frames :
    decode .resolverSpi (.frame .toSensor 0b1111111111111111) = .ok .resCmd ∧
    decode .resolverSpi (.frame .fromSensor 0b1010101111001110) = .ok (.resReply 0xABCE) ∧
    decode .quadrature (.frame .fromSensor 0b1010101111001110) = .error .noFrameInMode := by decide

/-- R80: an internal function cannot be invoked from outside. -/
theorem test_decode_internal : decode .none .internal = .error .internalFunction := by decide

theorem test_decodeTableWord :
    decodeTableWord 8 0x7 = some .readAngle ∧ decodeTableWord 40 0x20001 = some (.initQuad 8192) ∧
    decodeTableWord 16 0xFFFF = some .absCmd ∧ decodeTableWord 16 0x8001 = some (.absReply 0x8001) := by decide

theorem test_withFetchWord_runs_command : step (State.reset.withFetchWord 8 0x7) = exec .readAngle State.reset := by rfl

theorem test_withFetchWord_runs_frame :
    step (State.reset.withFetchWord 16 0x8000) = exec (.absReply 0x8000) (st .absoluteSpi []) := by rfl

/-! ### Vectors of `95_test_vectors.md` -/

/-- 2.3. -/
theorem test_parity16 :
    parity16 0xFFFF = false ∧ parity16 0x8001 = false ∧ parity16 0x8000 = true ∧ parity16 0x7FFF = true ∧
    parity16 0x1234 = true ∧ parity16 0x9234 = false := by decide

/-- A10: `TICK miso=0x9234` stores `f32:0x42CCC900` and the whole word. -/
theorem test_tick_accepts :
    (((st .absoluteSpi (clean 0x9234)).tick c90).regs.lastAngle, ((st .absoluteSpi (clean 0x9234)).tick c90).regs.spiVal) =
      (0x42CCC900#32, 0x9234#16) := by decide +kernel

/-- A12: `TICK miso=0x1234` counts one and gives the rate `K`. -/
theorem test_tick_rejects :
    (((st .absoluteSpi (clean 0x1234)).tick c90).regs.spiErrCnt, ((st .absoluteSpi (clean 0x1234)).tick c90).regs.spiErrRate) =
      (1#32, 0x3851B717#32) := by decide +kernel

/-- A4: the sentinel is a disconnect although its parity is even. -/
theorem test_absReply_sentinel :
    ((st .absoluteSpi []).receiveAbs c90 0xFFFF).out.outcome = some .disconnected := by decide +kernel

/-- Sequence AS, step 3: the second fault brings the rate from `0x3851B717` to `0x38D1B5C0`; step 4 to `0x38D1B311`. -/
theorem test_error_rate_sequence :
    rateUp c90 0x3851B717 = 0x38D1B5C0#32 ∧ rateDown c90 0x38D1B5C0 = 0x38D1B311#32 := by decide

/-- V2 and V4: `TICK miso=0xABCE` gives `f32:0x43718600`; `miso=0xABC6` is held. -/
theorem test_resReply :
    ((st .resolverSpi []).receiveRes c90 0xABCE).regs.lastAngle = 0x43718600#32 ∧
    ((st .resolverSpi []).receiveRes c90 0xABC6).regs.lastAngle = 0#32 := by decide +kernel

/-- V1, the transfer included. -/
theorem test_tick_resolver : ((st .resolverSpi (clean 0x800E)).tick c90).regs.lastAngle = 0x43340000#32 := by decide +kernel

/-- A block in `SinCosAnalog` mode with gains 1, offsets 0 and filter constant 0.5. -/
def scState : State :=
  { st .sinCosAnalog [] with
    regs := { Regs.default with
      mode := .sinCosAnalog, sinGain := 0x3F800000, cosGain := 0x3F800000, scFilterK := 0x3F000000 } }

/-- S5: half of 90.0 is `f32:0x42340000`. S2: just below `MIN_SQ`. -/
theorem test_sincosSample :
    (scState.sincosSample c90 0x3F800000 0).regs.lastAngle = 0x42340000#32 ∧
    (scState.sincosSample c90 0 0x3F7FFFFF).regs.scBelowCnt = 1#32 := by decide +kernel

/-- S3 and S4: `MAX_SQ` itself is valid, one step above is not; S7: 0.6 and 0.8 are valid; S12: overflow is above. -/
theorem test_magnitude_band :
    band (magnitudeSq 0 0x3FD33333) = .valid ∧ band (magnitudeSq 0 0x3FD33334) = .above ∧
    band (magnitudeSq 0x3F19999A 0x3F4CCCCD) = .valid ∧ band (magnitudeSq 0x60AD78EC 0) = .above := by decide

/-- I1, I2. -/
theorem test_index :
    (({ st .quadrature [] with env := ⟨[], [], [true], []⟩ } : State).indexPulse c90).ports.zeroCurrentReq = true ∧
    (({ st .quadrature [] with env := ⟨[], [], [false], []⟩ } : State).indexPulse c90).ports.zeroCurrentReq = false := by
  decide +kernel

/-- Q6 and Q11, before the wrap; Q6 wrapped. -/
theorem test_quadAngle :
    quadAngle 24575 8192 = 0x4486FE98#32 ∧ quadAngle 1534 1023 = 0x4406F4BD#32 ∧
    wrapAngle .halfOpen 0x4486FE98 = 0x43B3FA60#32 := by decide

/-- The wrap table: 360, -360, -0.0, -90 and a tiny negative angle. -/
theorem test_wrap :
    wrapAngle .halfOpen 0x43B40000 = 0#32 ∧ wrapAngle .closed 0x43B40000 = 0x43B40000#32 ∧
    wrapAngle .closed 0xC3B40000 = 0#32 ∧ wrapAngle .closed 0x80000000 = 0#32 ∧
    wrapAngle .halfOpen 0xC2B40000 = 0x43870000#32 ∧ wrapAngle .halfOpen 0xB727C5AC = 0#32 ∧
    wrapAngle .closed 0xB727C5AC = 0x43B40000#32 := by decide

/-- C6, and Q11's note: `INIT_QUAD 1023` starts the counter at 1534. -/
theorem test_counter_configuration :
    counterModulus 1431655765 = 4294967295#32 ∧ counterInit 1431655765 = 2147483647#32 ∧ counterInit 1023 = 1534#32 := by
  decide

/-- 2.11: a step toward 1, the stagnation line, and `k = -0.5` from 0.0. -/
theorem test_lpf :
    lpfStep 0x3F800000 0 0x3851B717 = 0x3F7FFCB9#32 ∧ lpfStep 0x3F7FD8F0 0x3F800000 0x3851B717 = 0x3F7FD8F0#32 ∧
    lpfStep 0 0x3F800000 0xBF000000 = 0xBF000000#32 := by decide

/-- F7, in the state after sequence AS. -/
theorem test_rdDiag :
    let r : Regs := { Regs.default with mode := .absoluteSpi, spiVal := 0xA000, spiErrCnt := 2, spiErrRate := 0x38D1B311 }
    diagValue r 0 = 0xA000#32 ∧ diagValue r 1 = 2#32 ∧ diagValue r 2 = 0x38D1B311#32 ∧ diagValue r 0xFFFFFFFF = 0#32 := by
  decide

/-! ### A witness for each obligation that has hypotheses: `witness_<Name>`, and a letter where it has several clauses -/

/-- C5 and C6: the least and the largest legal `cpr`. -/
theorem witness_InitQuadSetsModeAndCounter :
    (1 ≤ (1#32).toNat ∧ 3 * (1#32).toNat < 2 ^ 32) ∧
    (1 ≤ (1431655765#32).toNat ∧ 3 * (1431655765#32).toNat < 2 ^ 32) ∧ cmdOp 0x1 = 0x1 := by decide

theorem witness_SetCountsWritesOnlyCpr :
    (1 ≤ (1#32).toNat ∧ 3 * (1#32).toNat < 2 ^ 32) ∧
    (1 ≤ (1431655765#32).toNat ∧ 3 * (1431655765#32).toNat < 2 ^ 32) ∧ cmdOp 0x6 = 0x6 := by decide

/-- A port value for each code that a statement about a command names. -/
theorem witness_command_codes :
    cmdOp 0x2 = 0x2 ∧ cmdOp 0x3 = 0x3 ∧ cmdOp 0x4 = 0x4 ∧ cmdOp 0x5 = 0x5 ∧ cmdOp 0x8 = 0x8 ∧ cmdOp 0x9 = 0x9 := by decide

/-- C7: the values next to the legal range. -/
theorem witness_IllegalCprStillWritesCpr : (0#32).toNat = 0 ∧ 2 ^ 32 ≤ 3 * (1431655766#32).toNat := by decide

theorem witness_ModeCommandsForgetTheState :
    (match Instr.deinit with | .initQuad _ | .initAbs | .initRes | .initSincos _ _ _ _ _ | .deinit => True | _ => False) :=
  trivial

theorem witness_ModeFollowsTransitionTable : (∃ t, exec .initAbs State.reset = .next t) ∧
    (before { idleCycle with rst := true } State.reset).env.arrivals = [.ports { idleCycle with rst := true }] :=
  ⟨⟨_, rfl⟩, rfl⟩

theorem witness_ReservedCodesHaveNoEffect :
    (cmdOp 0x0).toNat = 0 ∧ 10 ≤ (cmdOp 0xA).toNat ∧ 10 ≤ (cmdOp 0xF).toNat ∧
    Instr.reserved0 ∈ [Instr.reserved0, .reservedA, .reservedB, .reservedC, .reservedD, .reservedE, .reservedF] := by decide

theorem witness_ReadAngleRespondsWrappedLastAngle :
    State.reset.regs.mode ≠ .quadrature ∧ isFinite State.reset.regs.lastAngle = true := by decide

/-- A block in `Quadrature` mode with a given `cpr`. -/
def quadState (cpr : U32) : State :=
  { st .quadrature [] with regs := { Regs.default with mode := .quadrature, cpr := cpr } }

theorem witness_ReadAngleRespondsQuadratureCount :
    ((quadState 1).regs.mode = .quadrature ∧ 1 ≤ (quadState 1).regs.cpr.toNat ∧
      3 * (quadState 1).regs.cpr.toNat < 2 ^ 32) ∧
    ((quadState 1431655765).regs.mode = .quadrature ∧ 1 ≤ (quadState 1431655765).regs.cpr.toNat ∧
      3 * (quadState 1431655765).regs.cpr.toNat < 2 ^ 32) := by decide

/-- The greatest finite angle and its negative. -/
theorem witness_WrapResultStaysInOneTurn : isFinite 0x7F7FFFFF = true ∧ isFinite 0xFF7FFFFF = true := by decide

/-- 360.0 under `closed`, the clause of the multiple; 0.0 and 359.99997, the other clause at its ends. -/
theorem witness_WrapOfNonnegativeAngleIsExactRemainder :
    (isFinite f360 = true ∧ 0 ≤ fVal f360 ∧ AngleWrap.closed = .closed ∧ 0 < fVal f360 ∧ fVal f360 % fVal f360 = 0) ∧
    (isFinite fZero = true ∧ 0 ≤ fVal fZero ∧ ¬ 0 < fVal fZero) ∧
    (isFinite 0x43B3FFFF = true ∧ 0 ≤ fVal 0x43B3FFFF ∧ fVal 0x43B3FFFF % fVal f360 ≠ 0) := by decide +kernel

/-- The least negative angle, and a negative multiple of 360. -/
theorem witness_WrapOfNegativeAngleAddsOneTurn :
    (isFinite 0x80000001 = true ∧ fVal 0x80000001 < 0) ∧ (isFinite 0xC3B40000 = true ∧ fVal 0xC3B40000 < 0) := by
  decide +kernel

theorem witness_TickWithoutSerialDecoderDoesNothing :
    State.reset.regs.mode ≠ .absoluteSpi ∧ State.reset.regs.mode ≠ .resolverSpi := by decide

theorem witness_TickAcceptsGoodAbsoluteFrame :
    (st .absoluteSpi (clean 0x8001)).regs.mode = .absoluteSpi ∧ (st .absoluteSpi (clean 0x8001)).settled ∧
    parity16 ((st .absoluteSpi (clean 0x8001)).incomingWord 0) = false ∧
    (st .absoluteSpi (clean 0x8001)).incomingWord 0 ≠ 0xFFFF#16 :=
  ⟨rfl, ⟨rfl, rfl⟩, by decide +kernel, by decide +kernel⟩

/-- A frame of odd parity. -/
theorem witness_TickRejectsBadAbsoluteFrame :
    (st .absoluteSpi (clean 0x8000)).regs.mode = .absoluteSpi ∧ (st .absoluteSpi (clean 0x8000)).settled ∧
    parity16 ((st .absoluteSpi (clean 0x8000)).incomingWord 0) = true :=
  ⟨rfl, ⟨rfl, rfl⟩, by decide +kernel⟩

/-- The sentinel. -/
theorem witness_TickRejectsBadAbsoluteFrame_sentinel :
    (st .absoluteSpi (clean 0xFFFF)).regs.mode = .absoluteSpi ∧ (st .absoluteSpi (clean 0xFFFF)).settled ∧
    (st .absoluteSpi (clean 0xFFFF)).incomingWord 0 = 0xFFFF#16 :=
  ⟨rfl, ⟨rfl, rfl⟩, by decide +kernel⟩

/-- The status bits of a word are all healthy, in the words of the obligations. -/
def healthy (w : U16) : Prop :=
  w.getLsbD cfg.resRdvelBit = cfg.resRdvelOk ∧ w.getLsbD cfg.resDosBit = cfg.resDosOk ∧
    w.getLsbD cfg.resLotBit = cfg.resLotOk

/-- Whatever the legal status parameters are, one of the sixteen status nibbles is healthy and one is not. -/
theorem status_nibbles : ∀ (a b c : Fin 4) (x y z : Bool), a ≠ b → a ≠ c → b ≠ c →
    (∃ n : Fin 16, (BitVec.ofNat 16 n).getLsbD a = x ∧ (BitVec.ofNat 16 n).getLsbD b = y ∧ (BitVec.ofNat 16 n).getLsbD c = z) ∧
    ∃ n : Fin 16, ¬ ((BitVec.ofNat 16 n).getLsbD a = x ∧ (BitVec.ofNat 16 n).getLsbD b = y ∧
      (BitVec.ofNat 16 n).getLsbD c = z) := by decide +kernel

theorem cfg_status_nibbles :
    (∃ n : Fin 16, healthy (BitVec.ofNat 16 n)) ∧ ∃ n : Fin 16, ¬ healthy (BitVec.ofNat 16 n) := by
  have h := cfg_legal.statusBits
  simp only [statusBitsDiffer, Bool.and_eq_true, bne_iff_ne] at h
  exact status_nibbles _ _ _ _ _ _ h.1.1 h.1.2 h.2

/-- A clean frame is received as it was sent. -/
theorem incomingWord_clean : ∀ n : Fin 16,
    (st .resolverSpi (clean (BitVec.ofNat 16 n))).incomingWord 0 = BitVec.ofNat 16 n := by decide +kernel

/-- Both clauses: a healthy and an unhealthy frame. -/
theorem witness_TickDecodesResolverFrame :
    (∃ s : State, s.regs.mode = .resolverSpi ∧ s.settled ∧ healthy (s.incomingWord 0)) ∧
    ∃ s : State, s.regs.mode = .resolverSpi ∧ s.settled ∧ ¬ healthy (s.incomingWord 0) := by
  obtain ⟨⟨n, hn⟩, m, hm⟩ := cfg_status_nibbles
  exact ⟨⟨_, rfl, ⟨rfl, rfl⟩, (incomingWord_clean n).symm ▸ hn⟩, _, rfl, ⟨rfl, rfl⟩, (incomingWord_clean m).symm ▸ hm⟩

/-- The two clauses within `ResolverSpi` mode; the third is any other mode. -/
theorem witness_ResolverReplyIsAcceptedWhenHealthy :
    (st .resolverSpi []).regs.mode = .resolverSpi ∧ (∃ w, healthy w) ∧ (∃ w, ¬ healthy w) ∧
    State.reset.regs.mode ≠ .resolverSpi :=
  ⟨rfl, cfg_status_nibbles.1.elim fun _ h => ⟨_, h⟩, cfg_status_nibbles.2.elim fun _ h => ⟨_, h⟩, by decide⟩

/-- The three clauses: another mode, an accepted word, and the two kinds of rejected word. -/
theorem witness_AbsoluteReplyIsAcceptedOrRejected :
    State.reset.regs.mode ≠ .absoluteSpi ∧ (st .absoluteSpi []).regs.mode = .absoluteSpi ∧
    (parity16 0x3FFF = false ∧ (0x3FFF#16 : U16) ≠ 0xFFFF#16) ∧ parity16 0x7FFF = true := by decide

theorem witness_SincosSampleInOtherModeDoesNothing : State.reset.regs.mode ≠ .sinCosAnalog := by decide

/-- The finite premises hold of `scState`; S4, S2 and S1 take the three branches at their boundaries. -/
theorem witness_SincosSampleTakesOneOfThreeBranches :
    (scState.regs.mode = .sinCosAnalog ∧ isFinite scState.regs.sinGain = true ∧ isFinite scState.regs.sinOffset = true ∧
      isFinite scState.regs.cosGain = true ∧ isFinite scState.regs.cosOffset = true) ∧
    isFinite 0 = true ∧
    (isFinite 0x3FD33334 = true ∧
      fgt (magnitudeSq (fsub (fmul 0 0x3F800000) 0) (fsub (fmul 0x3FD33334 0x3F800000) 0)) (fmul f165 f165) = true) ∧
    (isFinite 0x3F7FFFFF = true ∧
      flt (magnitudeSq (fsub (fmul 0 0x3F800000) 0) (fsub (fmul 0x3F7FFFFF 0x3F800000) 0)) (fmul fOne fOne) = true) ∧
    (isFinite 0x3F800000 = true ∧
      band (magnitudeSq (fsub (fmul 0 0x3F800000) 0) (fsub (fmul 0x3F800000 0x3F800000) 0)) = .valid) := by decide +kernel

/-- S12's overflowing input among them. -/
theorem witness_SquaredMagnitudeIsNoNaN : isFinite 0x60AD78EC = true ∧ isFinite 0 = true := by decide

theorem witness_SincosSampleAlwaysCompletes : scState.regs.mode = .sinCosAnalog := rfl

/-- A block in `SinCosAnalog` mode with a filter constant of 1. -/
def unfilteredState : State :=
  { scState with regs := { scState.regs with scFilterK := fOne } }

theorem witness_FirstUnfilteredSampleIsAccurate :
    Legal wideCfg ∧ unfilteredState.regs.mode = .sinCosAnalog ∧
    unfilteredState.regs.scFilterK = fOne ∧ unfilteredState.regs.lastAngle = fZero ∧
    isFinite (fsub (fmul 0x3F800000 unfilteredState.regs.sinGain) unfilteredState.regs.sinOffset) = true ∧
    isFinite (fsub (fmul 0 unfilteredState.regs.cosGain) unfilteredState.regs.cosOffset) = true ∧
    band (magnitudeSq (fsub (fmul 0x3F800000 unfilteredState.regs.sinGain) unfilteredState.regs.sinOffset)
      (fsub (fmul 0 unfilteredState.regs.cosGain) unfilteredState.regs.cosOffset)) = .valid :=
  ⟨wideCfg_legal, by decide +kernel⟩

/-- Each of the two words in its own mode, and in another. -/
theorem witness_SentFramesMakeOneTransfer :
    (st .absoluteSpi []).settled ∧ (st .absoluteSpi []).regs.mode = .absoluteSpi ∧ (st .resolverSpi []).settled ∧
    (st .resolverSpi []).regs.mode = .resolverSpi ∧ State.reset.settled ∧ State.reset.regs.mode = .none :=
  ⟨⟨rfl, rfl⟩, rfl, ⟨rfl, rfl⟩, rfl, ⟨rfl, rfl⟩, rfl⟩

theorem witness_XferReturnsVotedWords :
    (st .absoluteSpi []).settled ∧ (Instr.xfer (some [0x1234]) 1).wellFormed cfg.nWordsMax = true := by
  refine ⟨⟨rfl, rfl⟩, ?_⟩
  simp [Instr.wellFormed, cfg_legal.wordsMax]

/-- Two of the five samples of every bit wrong, in a frame of `0x8001`. -/
def noisy : List Bool :=
  (List.range 16).flatMap fun k => let b := (0x8001#16).getLsbD (15 - k); [!b, b, b, !b, b]

theorem witness_XferVotesEachBitOnItsFiveDraws :
    (0 : Nat) < 1 ∧ ∀ b < 16, 3 ≤ ((List.range 5).filter fun j =>
      (st .absoluteSpi noisy).misoAt (80 * 0 + 5 * (15 - b) + j) == (0x8001#16).getLsbD b).length := by decide +kernel

theorem witness_Parity16IsNumberOfOnesModTwo : (0 : Nat) < 16 ∧ (15 : Nat) < 16 := by decide

theorem witness_LpfTargetIsFixedPoint : isFinite 0x7F7FFFFF = true ∧ isFinite 0x80000000 = true := by decide

/-- The ends of both ranges. -/
theorem witness_LpfMovesRateTowardTarget :
    rateOk fZero ∧ rateOk fOne ∧ inUnit fZero = true ∧ inUnit fOne = true :=
  ⟨by simp [rateOk, fZero], by simp [rateOk, fOne], by decide +kernel, by decide +kernel⟩

/-- The arguments of A2 at the lower edge of the band, and those of A4 at the least positive cosine. -/
theorem witness_Atan2degHasRequiredProperties :
    (isFinite fOne = true ∧ isFinite fZero = true ∧ flt (magnitudeSq fOne fZero) minSq = false) ∧
    (isFinite 0x00000001 = true ∧ fgt 0x00000001 fZero = true) := by decide +kernel

theorem witness_WrapOfNonFiniteAngleCompletes : isFinite 0x7F800000 = false ∧ isFinite 0xFFC00000 = false := by decide

theorem witness_FaultySampleHoldsLastAngle : ∃ t, exec (.absReply 0x8000) (st .absoluteSpi []) = .next t ∧
    t.out.outcome = some DecodeFault.parity.outcome := ⟨_, rfl, by decide +kernel⟩

theorem witness_OnlyIndexRaisesZeroCurrent :
    ∃ t, exec .index ({ st .none [] with env := ⟨[], [], [true], []⟩ } : State) = .next t ∧
      t.ports.zeroCurrentReq = true := ⟨_, rfl, by decide +kernel⟩

theorem witness_FaultCountersStepByOne : ∃ t, exec (.absReply 0x8000) (st .absoluteSpi []) = .next t ∧
    (match Instr.absReply 0x8000 with
      | .initQuad _ | .initAbs | .initRes | .initSincos _ _ _ _ _ | .deinit => False | _ => True) := ⟨_, rfl, trivial⟩

theorem witness_ResetCycleRestoresResetState :
    (before { idleCycle with rst := true } (st .absoluteSpi [])).env.arrivals = [.ports { idleCycle with rst := true }] := rfl

/-- `rst` after ten entries of the trace of a `TICK`. -/
theorem witness_ResetDuringOperationAbandonsIt :
    let c : PortCycle := { idleCycle with strobes := 0b001, rstAfter := some 10 }
    let s := before c (st .absoluteSpi [])
    s.env.arrivals = [.ports c] ∧ s.hid.busy = false ∧ c.rst = false ∧ c.whileBusy = false ∧ c.first = some .tick ∧
      decode s.regs.mode (c.encoding .tick) = .ok .tick ∧ c.rstAfter = some 10 := by decide

/-- `rst` after the whole trace of an `INIT_ABS`, the other clause on the trace. -/
theorem witness_ResetDuringOperationAbandonsIt_modeCommand :
    let c : PortCycle := { PortCycle.commandOnly 0x2 with rstAfter := some 1 }
    let s := before c State.reset
    s.env.arrivals = [.ports c] ∧ s.hid.busy = false ∧ c.rst = false ∧ c.whileBusy = false ∧ c.first = some .command ∧
      decode s.regs.mode (c.encoding .command) = .ok .initAbs ∧ c.rstAfter = some 1 := by decide

/-- R40, R211: an `INIT_ABS` that `rst` cuts drives no pin, for its register writes are not made; uncut, its pins change in one entry. -/
theorem test_cut_initAbs :
    step (before { PortCycle.commandOnly 0x2 with rstAfter := some 1 } State.reset) =
      .next { State.reset with out := ⟨[.modeRow .none], none, []⟩ } ∧
    (∃ t, step (before (PortCycle.commandOnly 0x2) State.reset) = .next t ∧
      t.out.trace = [.modeRow .absoluteSpi] ∧ t.ports.pins = Pins.ofMode .absoluteSpi) := ⟨rfl, _, rfl, rfl, rfl⟩

/-- A command, and a frame. -/
theorem witness_StepRunsTheDecodedOperation :
    let c := PortCycle.commandOnly 0x7
    let s := before c State.reset
    (s.env.arrivals = [.ports c] ∧ s.hid.busy = false ∧ c.rst = false ∧ c.whileBusy = false ∧ c.rstAfter = none ∧
      c.first = some .command ∧ decode s.regs.mode (c.encoding .command) = .ok .readAngle) ∧
    decode (st .resolverSpi []).regs.mode (.frame .fromSensor 0x800E) = .ok (.resReply 0x800E) := by decide

/-- `TICK` and a command in one cycle: the command is taken first because the script says so, and the tick still waits. -/
theorem witness_SimultaneousArrivalsAreServedInTurn :
    let c : PortCycle := { PortCycle.commandOnly 0x7 with strobes := 0b001, order := [.command] }
    c.first = some .command ∧ c.rstAfter = none ∧ c.asks .tick = true := by decide

/-- The three clauses: a strobe in a busy cycle, a busy block before a command, and the command before the idle block. -/
theorem witness_StrobeWhileBusyIsRefusedCommandWaits :
    let c1 : PortCycle := { idleCycle with strobes := 0b001, whileBusy := true }
    let c2 := PortCycle.commandOnly 0x7
    let s2 : State := { before c2 State.reset with hid := { Hidden.idle with busy := true } }
    ((before c1 State.reset).env.arrivals = [.ports c1] ∧ c1.rst = false ∧ c1.whileBusy = true ∧ c1.strobes ≠ 0) ∧
    (s2.env.arrivals = [.ports c2] ∧ c2.rst = false ∧ s2.hid.busy = true ∧ c2.strobes = 0) ∧
    ((before c2 State.reset).hid.busy = false ∧ c2.cmdValid = true ∧ c2.rstAfter = none) := by decide

theorem witness_QuietStepChangesNothing : State.reset.env.arrivals = [] := rfl

/-- A state that meets all four invariants and steps on: an absolute-encoder frame arrives. -/
def running : State := (st .absoluteSpi []).withArrivals [.frame .fromSensor 0x8001]

theorem running_steps : ∃ t, step running = .next t := ⟨_, rfl⟩

theorem witness_EveryStepKeepsSettled : running.settled ∧ ∃ t, step running = .next t := ⟨⟨rfl, rfl⟩, running_steps⟩

theorem witness_EveryStepKeepsRatesInUnit : running.regs.ratesOk ∧ ∃ t, step running = .next t :=
  ⟨by simp [Regs.ratesOk, rateOk, running, st, State.withArrivals, Regs.default], running_steps⟩

theorem witness_EveryStepKeepsInactiveDefaults : running.regs.inactiveDefault ∧ ∃ t, step running = .next t :=
  ⟨⟨fun _ => ⟨rfl, rfl, rfl, rfl, rfl, rfl, rfl, rfl, rfl⟩, fun h => absurd rfl h⟩, running_steps⟩

theorem witness_EveryStepKeepsAngleInRange : running.regs.angleOk ∧ ∃ t, step running = .next t :=
  ⟨by simp [Regs.angleOk, running, st, State.withArrivals, Regs.default, f360], running_steps⟩

/-- A frame in the mode that reads it, and an internal function. -/
theorem witness_DecodeOfEncodeIsIdentity :
    (Instr.resReply 0xABCE).isInternal = false ∧ (Instr.resReply 0xABCE).readIn .resolverSpi = true ∧
    (Instr.wrap 0).isInternal = true := by decide

/-- Two ports that differ in an unused field, for a command without arguments and for one with one argument. -/
theorem witness_UnusedArgumentFieldsAreIgnored :
    (cmdOp 0x7 = cmdOp 0xFFFF0000F7 ∧ cmdOp 0x7 ≠ 0x1 ∧ cmdOp 0x7 ≠ 0x4 ∧ cmdOp 0x7 ≠ 0x6 ∧ cmdOp 0x7 ≠ 0x9) ∧
    (cmdOp 0x16 = cmdOp 0xFF000000016 ∧ cmdOp 0x16 ≠ 0x4 ∧ cmdA0 0x16 = cmdA0 0xFF000000016) := by decide

end Sys2Proof.Tests
end

section
/-! PROOF. The block with nothing arriving (`00_scope.md` R17, R18). -/

namespace Sys2Proof.Machine

/-- With nothing arriving the block only ends the pulses and outputs of the last operation (R48). -/
theorem State.fetch_of_arrivals_nil {s : State} (h : s.env.arrivals = []) : s.fetch = .quiet s.accept.finish := by
  unfold State.fetch
  rw [h]

theorem step_of_fetch_quiet {s t : State} (h : s.fetch = .quiet t) : step s = .next t := by
  unfold step
  rw [h]

/-- Settles O53: the step is quiet, and acceptance and end of an operation frame the registers, the pins and the inputs and leave
an empty trace. -/
theorem quietStepChangesNothing : Obligations.QuietStepChangesNothing := by
  intro s h
  have hstep : step s = .next s.accept.finish := step_of_fetch_quiet (State.fetch_of_arrivals_nil h)
  exact ⟨s.accept.finish, hstep, by simp, by simp, by simp, by simp [Out.empty]⟩

end Sys2Proof.Machine
end

section
/-! PROOF. Bounds of the arithmetic on finite numbers: a product with a factor of the unit interval, the error of one rounding,
the filter step on a rate, the angle of a serial payload. -/

namespace Sys2Proof.Machine

/-! ### Packing and reading back -/

theorem toNat_pack (neg : Bool) {m : Nat} (h : m < 2 ^ 31) :
    (pack neg m).toNat = (if neg then 2 ^ 31 else 0) + m := by
  cases neg <;> simp [pack] <;> omega

theorem fMagBits_pack (neg : Bool) {m : Nat} (h : m < 2 ^ 31) : fMagBits (pack neg m) = m := by
  rw [fMagBits, toNat_pack neg h]
  cases neg
  · simpa using h
  · simpa using h

theorem fSign_eq (a : F32) : fSign a = decide (2 ^ 31 ≤ a.toNat) := BitVec.msb_eq_decide a

theorem fSign_pack (neg : Bool) {m : Nat} (h : m < 2 ^ 31) : fSign (pack neg m) = neg := by
  rw [fSign_eq, toNat_pack neg h]
  cases neg <;> simp
  omega

theorem isFinite_iff (a : F32) : isFinite a = true ↔ fMagBits a < infBits := by
  unfold isFinite fExp infBits
  rw [decide_eq_true_iff]
  omega

theorem isFinite_pack (neg : Bool) {m : Nat} (h : m < infBits) : isFinite (pack neg m) = true := by
  have hm : m < 2 ^ 31 := h.trans (by decide)
  rwa [isFinite_iff, fMagBits_pack neg hm]

theorem isNaN_of_isFinite {a : F32} (h : isFinite a = true) : isNaN a = false := by
  have : fExp a ≠ 255 := by simp only [isFinite, decide_eq_true_eq] at h; omega
  simp [isNaN, this]

theorem isInf_of_isFinite {a : F32} (h : isFinite a = true) : isInf a = false := by
  have : fExp a ≠ 255 := by simp only [isFinite, decide_eq_true_eq] at h; omega
  simp [isInf, this]

/-! ### Magnitudes -/

theorem fMag_congr {a b : F32} (h : fMagBits a = fMagBits b) : fMag a = fMag b := by
  unfold fMag fExp fFrac
  rw [h]

/-- Among finite numbers the magnitude grows with the pattern. -/
theorem fMag_mono {a b : F32} (hb : isFinite b = true) (h : fMagBits a ≤ fMagBits b) : fMag a ≤ fMag b := by
  have ha : isFinite a = true := (isFinite_iff a).mpr (h.trans_lt ((isFinite_iff b).mp hb))
  by_contra hlt
  have hba := roundMag_mono 1 Nat.one_pos (Nat.le_of_not_ge hlt)
  rw [roundMag_fMag a ha, roundMag_fMag b hb] at hba
  exact hlt (fMag_congr (Nat.le_antisymm h hba)).le

/-- The magnitude of a pattern written as a significand and a number of dropped places, the carry included (`roundMag`). -/
theorem fMag_of_pattern (a : F32) (k r : Nat) (hr : r ≤ 2 ^ 24) (hk : 0 < k → 2 ^ 23 ≤ r)
    (h : fMagBits a = k * 2 ^ 23 + r) : fMag a = r * 2 ^ k := by
  rcases Nat.lt_or_ge r (2 ^ 23) with hlt | hge
  · have hk0 : k = 0 := by omega
    have he : fExp a = 0 := by unfold fExp; omega
    have hf : fFrac a = r := by unfold fFrac; omega
    rw [fMag, if_pos he, hf, hk0, Nat.pow_zero, Nat.mul_one]
  rcases Nat.lt_or_eq_of_le hr with hlt | heq
  · have he : fExp a = k + 1 := by unfold fExp; omega
    have hf : 2 ^ 23 + fFrac a = r := by unfold fFrac; omega
    rw [fMag, if_neg (by omega), hf, he, Nat.add_sub_cancel]
  · have he : fExp a = k + 2 := by unfold fExp; omega
    have hf : fFrac a = 0 := by unfold fFrac; omega
    have hp : (2 : Nat) ^ (k + 1) = 2 ^ k * 2 := Nat.pow_succ ..
    rw [fMag, if_neg (by omega), hf, he, heq, show k + 2 - 1 = k + 1 from rfl, hp]
    omega

theorem roundMag_le_infBits (p q : Nat) : roundMag p q ≤ infBits := min_le_right _ _

theorem roundMag_lt (p q : Nat) : roundMag p q < 2 ^ 31 := (roundMag_le_infBits p q).trans_lt (by decide)

/-- Rounding to an integer is off by at most one half. -/
theorem two_mul_roundHalfEven_le (p d : Nat) : 2 * (roundHalfEven p d * d) ≤ 2 * p + d := by
  have hp := Nat.div_add_mod' p d
  unfold roundHalfEven
  split
  · omega
  split
  · rw [Nat.add_mul]; omega
  · have h2 : p / d % 2 * d ≤ d := by
      simpa using Nat.mul_le_mul_right d (show p / d % 2 ≤ 1 by omega)
    rw [Nat.add_mul]; omega

/-- A magnitude of at most 1 grows by one rounding by at most half the last place of 1. -/
theorem fMag_pack_roundMag_le {p : Nat} (neg : Bool) (h : p ≤ 2 ^ 149) :
    fMag (pack neg (roundMag p 1)) ≤ p + 2 ^ 125 := by
  have hk : roundShift p 1 ≤ 126 := by
    have hm := roundShift_mono 1 h
    rwa [show roundShift (2 ^ 149) 1 = 126 by decide +kernel] at hm
  have hle : 2 ^ roundShift p 1 ≤ 2 ^ 126 := Nat.pow_le_pow_right (by omega) hk
  have hr := significand_le p 1 Nat.one_pos
  have herr := two_mul_roundHalfEven_le p (1 * 2 ^ roundShift p 1)
  have hbits : fMagBits (pack neg (roundMag p 1)) =
      roundShift p 1 * 2 ^ 23 + roundHalfEven p (1 * 2 ^ roundShift p 1) := by
    rw [fMagBits_pack neg (roundMag_lt p 1), roundMag_def, min_eq_left (by unfold infBits; omega)]
  rw [fMag_of_pattern _ _ _ hr (le_significand p 1) hbits]
  rw [Nat.one_mul] at herr ⊢
  omega

/-! ### Signed values -/

theorem fVal_of_fSign_false {a : F32} (h : fSign a = false) : fVal a = fMag a := by
  simp [fVal, h]

theorem fVal_of_fSign_true {a : F32} (h : fSign a = true) : fVal a = -(fMag a : Int) := by
  simp [fVal, h]

theorem fVal_pack_zero (neg : Bool) : fVal (pack neg 0) = 0 := by
  cases neg <;> decide +kernel

theorem fSign_of_lt {a : F32} (h : a.toNat < 2 ^ 31) : fSign a = false := by
  rw [fSign_eq]
  exact decide_eq_false (by omega)

theorem fMagBits_of_lt {a : F32} (h : a.toNat < 2 ^ 31) : fMagBits a = a.toNat := Nat.mod_eq_of_lt h

@[simp] theorem fMagBits_fneg (a : F32) : fMagBits (fneg a) = fMagBits a := by
  unfold fMagBits fneg
  rw [BitVec.toNat_xor, Nat.xor_mod_two_pow]
  simp

@[simp] theorem fSign_fneg (a : F32) : fSign (fneg a) = !fSign a := by
  simp [fSign, fneg]

@[simp] theorem isFinite_fneg (a : F32) : isFinite (fneg a) = isFinite a := by
  unfold isFinite fExp
  rw [fMagBits_fneg]

@[simp] theorem fVal_fneg (a : F32) : fVal (fneg a) = -fVal a := by
  have hm : fMag (fneg a) = fMag a := fMag_congr (fMagBits_fneg a)
  cases h : fSign a <;> simp [fVal, h, hm]

/-! ### Sums and differences of finite numbers -/

theorem oppositeInf_of_isFinite {a : F32} (b : F32) (h : isFinite a = true) : oppositeInf a b = false := by
  simp [oppositeInf, isInf_of_isFinite h]

theorem fadd_of_isFinite {a b : F32} (ha : isFinite a = true) (hb : isFinite b = true) : fadd a b = addNumbers a b := by
  simp [fadd, isNaN_of_isFinite ha, isNaN_of_isFinite hb, oppositeInf_of_isFinite b ha]

theorem fsub_of_isFinite {a b : F32} (ha : isFinite a = true) (hb : isFinite b = true) :
    fsub a b = addNumbers a (fneg b) := by
  simp [fsub, isNaN_of_isFinite ha, isNaN_of_isFinite hb, oppositeInf_of_isFinite (fneg b) ha]

theorem addNumbers_of_sum_zero {a b : F32} (ha : isFinite a = true) (hb : isFinite b = true) (h : fVal a + fVal b = 0) :
    addNumbers a b = pack (fSign a && fSign b) 0 := by
  simp [addNumbers, isInf_of_isFinite ha, isInf_of_isFinite hb, h]

theorem addNumbers_of_sum_ne_zero {a b : F32} (ha : isFinite a = true) (hb : isFinite b = true)
    (h : fVal a + fVal b ≠ 0) :
    addNumbers a b = pack (fVal a + fVal b < 0) (roundMag (fVal a + fVal b).natAbs 1) := by
  simp [addNumbers, isInf_of_isFinite ha, isInf_of_isFinite hb, h]

/-! ### A product with a factor in `[0.0, 1.0]` -/

theorem isFinite_fOne : isFinite fOne = true := by decide +kernel

theorem fMag_fOne : fMag fOne = 2 ^ 149 := by decide +kernel

theorem isFinite_of_fMag_le {a : F32} (h : fMag a ≤ 2 ^ 149) : isFinite a = true := by
  by_contra hinf
  simp only [isFinite, decide_eq_true_eq, Nat.not_lt] at hinf
  have hp : 2 ^ 254 ≤ 2 ^ (fExp a - 1) := Nat.pow_le_pow_right (by omega) (by omega)
  have hm := Nat.mul_le_mul (Nat.le_add_right (2 ^ 23) (fFrac a)) hp
  rw [fMag, if_neg (by omega)] at h
  omega

/-- A number in `[0.0, 1.0]` is finite, of magnitude at most 1, and 0 where its sign bit is set. -/
theorem inUnit_bounds {k : F32} (h : inUnit k = true) :
    isFinite k = true ∧ fMag k ≤ 2 ^ 149 ∧ (fSign k = true → fMag k = 0) := by
  have h1 : fVal fOne = 2 ^ 149 := by decide +kernel
  simp only [inUnit, Bool.and_eq_true, Bool.not_eq_true', decide_eq_true_eq, h1] at h
  obtain ⟨-, h0, hle⟩ := h
  have hmag : fMag k ≤ 2 ^ 149 := by
    cases hs : fSign k with
    | false => rw [fVal_of_fSign_false hs] at hle; omega
    | true => rw [fVal_of_fSign_true hs] at h0; omega
  refine ⟨isFinite_of_fMag_le hmag, hmag, fun hs => ?_⟩
  rw [fVal_of_fSign_true hs] at h0
  omega

/-- The product lies between 0 and the other factor, signs included. -/
theorem fmul_inUnit_bounds {d k : F32} (hd : isFinite d = true) (hk : inUnit k = true) :
    isFinite (fmul d k) = true ∧ min 0 (fVal d) ≤ fVal (fmul d k) ∧ fVal (fmul d k) ≤ max 0 (fVal d) := by
  obtain ⟨hfin, hle, hneg⟩ := inUnit_bounds hk
  have hm : fmul d k = pack (fSign d != fSign k) (roundMag (fMag d * fMag k) (2 ^ 149)) := by
    simp [fmul, isNaN_of_isFinite hd, isNaN_of_isFinite hfin, isInf_of_isFinite hd, isInf_of_isFinite hfin]
  have hbits : fMagBits (fmul d k) ≤ fMagBits d := by
    rw [hm, fMagBits_pack _ (roundMag_lt _ _)]
    exact roundMag_le_of_le d hd (Nat.two_pow_pos _) (Nat.mul_le_mul_left _ hle)
  have hmag : fMag (fmul d k) ≤ fMag d := fMag_mono hd hbits
  have hsign : fSign (fmul d k) = (fSign d != fSign k) := by rw [hm, fSign_pack _ (roundMag_lt _ _)]
  refine ⟨(isFinite_iff _).mpr (hbits.trans_lt ((isFinite_iff d).mp hd)), ?_⟩
  cases hs : fSign k with
  | true =>
    have h0 : fVal (fmul d k) = 0 := by
      rw [hm, hneg hs, Nat.mul_zero, roundMag_zero, fVal_pack_zero]
    omega
  | false =>
    rw [hs] at hsign
    cases hsd : fSign d with
    | false =>
      rw [fVal_of_fSign_false hsd, fVal_of_fSign_false (by simp [hsign, hsd])]
      omega
    | true =>
      rw [fVal_of_fSign_true hsd, fVal_of_fSign_true (by simp [hsign, hsd])]
      omega

/-! ### The filter step on a rate (R52, R230, R231, R234) -/

theorem rateOk.fSign_eq {r : F32} (h : rateOk r) : fSign r = false := fSign_of_lt (by unfold rateOk at h; omega)

theorem rateOk.isFinite {r : F32} (h : rateOk r) : isFinite r = true := by
  unfold rateOk at h
  rw [isFinite_iff, fMagBits_of_lt (by omega)]
  unfold infBits
  omega

theorem rateOk.fVal_bounds {r : F32} (h : rateOk r) : 0 ≤ fVal r ∧ fVal r ≤ 2 ^ 149 := by
  have hmag : fMag r ≤ fMag fOne := fMag_mono isFinite_fOne <| by
    unfold rateOk at h
    rwa [fMagBits_of_lt (by omega)]
  rw [fMag_fOne] at hmag
  rw [fVal_of_fSign_false h.fSign_eq]
  omega

/-- A sum of a rate that is at most half a last place above 1 is rounded to a rate: the half goes to the even pattern, 1. -/
theorem rateOk_fadd {r x : F32} (hr : rateOk r) (hx : isFinite x = true) (h0 : 0 ≤ fVal r + fVal x)
    (h1 : fVal r + fVal x ≤ 2 ^ 149 + 2 ^ 125) : rateOk (fadd r x) := by
  rw [fadd_of_isFinite hr.isFinite hx]
  by_cases hz : fVal r + fVal x = 0
  · rw [addNumbers_of_sum_zero hr.isFinite hx hz, hr.fSign_eq]
    exact Nat.zero_le _
  · have hpos : ¬ fVal r + fVal x < 0 := by omega
    have hmono := roundMag_mono 1 Nat.one_pos (show (fVal r + fVal x).natAbs ≤ 2 ^ 149 + 2 ^ 125 by omega)
    rw [show roundMag (2 ^ 149 + 2 ^ 125) 1 = 0x3F800000 by decide +kernel] at hmono
    rw [addNumbers_of_sum_ne_zero hr.isFinite hx hz, rateOk, toNat_pack _ (roundMag_lt _ _)]
    simpa [hpos] using hmono

/-- The step toward 1 is short of 1, but for the rounding of the difference. -/
theorem fsub_fOne_rate_bounds {r : F32} (hr : rateOk r) :
    isFinite (fsub fOne r) = true ∧ 0 ≤ fVal (fsub fOne r) ∧ fVal (fsub fOne r) ≤ 2 ^ 149 + 2 ^ 125 - fVal r := by
  have h1 : fVal fOne = 2 ^ 149 := by decide +kernel
  obtain ⟨h0, hle⟩ := hr.fVal_bounds
  have hfin : isFinite (fneg r) = true := by simpa using hr.isFinite
  have hsum : fVal fOne + fVal (fneg r) = 2 ^ 149 - fVal r := by rw [h1, fVal_fneg]; ring
  rw [fsub_of_isFinite isFinite_fOne hr.isFinite]
  by_cases hz : fVal fOne + fVal (fneg r) = 0
  · rw [addNumbers_of_sum_zero isFinite_fOne hfin hz, fVal_pack_zero]
    exact ⟨isFinite_pack _ (by decide), by omega, by omega⟩
  · rw [addNumbers_of_sum_ne_zero isFinite_fOne hfin hz, hsum, decide_eq_false (by omega : ¬ 2 ^ 149 - fVal r < 0)]
    have hp : (2 ^ 149 - fVal r).natAbs ≤ 2 ^ 149 := by omega
    have hbits : roundMag (2 ^ 149 - fVal r).natAbs 1 ≤ 0x3F800000 :=
      roundMag_le_of_le fOne isFinite_fOne Nat.one_pos (by rwa [fMag_fOne])
    have herr := fMag_pack_roundMag_le false hp
    rw [fVal_of_fSign_false (fSign_pack false (roundMag_lt _ _))]
    exact ⟨isFinite_pack _ (hbits.trans_lt (by decide)), by omega, by omega⟩

/-- The step toward 0 is the rate itself, negated: no rounding. -/
theorem fVal_fsub_fZero_rate {r : F32} (hr : rateOk r) :
    isFinite (fsub fZero r) = true ∧ fVal (fsub fZero r) = -fVal r := by
  have h0 : isFinite fZero = true := by decide
  have hfin : isFinite (fneg r) = true := by simpa using hr.isFinite
  have hsum : fVal fZero + fVal (fneg r) = -fVal r := by
    rw [fVal_fneg, show fVal fZero = 0 by decide]
    ring
  rw [fsub_of_isFinite h0 hr.isFinite]
  by_cases hz : fVal fZero + fVal (fneg r) = 0
  · rw [addNumbers_of_sum_zero h0 hfin hz, fVal_pack_zero]
    exact ⟨isFinite_pack _ (by decide), by omega⟩
  · have hpos := hr.fVal_bounds.1
    have habs : (-fVal r).natAbs = fMag r := by rw [fVal_of_fSign_false hr.fSign_eq]; omega
    rw [addNumbers_of_sum_ne_zero h0 hfin hz, hsum, habs, roundMag_fMag r hr.isFinite,
      decide_eq_true (by omega : -fVal r < 0)]
    have hbits := (isFinite_iff r).mp hr.isFinite
    have hlt : fMagBits r < 2 ^ 31 := hbits.trans (by decide)
    rw [fVal_of_fSign_true (fSign_pack true hlt), fMag_congr (fMagBits_pack true hlt), ← fVal_of_fSign_false hr.fSign_eq]
    exact ⟨isFinite_pack _ hbits, rfl⟩

/-- A filter step from a rate toward 0 or 1 ends at a rate. -/
theorem rateOk_lpfStep {r t k : F32} (hr : rateOk r) (hk : inUnit k = true) (hfin : isFinite (fsub t r) = true)
    (hlo : -fVal r ≤ fVal (fsub t r)) (hhi : fVal (fsub t r) ≤ 2 ^ 149 + 2 ^ 125 - fVal r) : rateOk (lpfStep r t k) := by
  obtain ⟨hpfin, hplo, hphi⟩ := fmul_inUnit_bounds hfin hk
  obtain ⟨h0, h1⟩ := hr.fVal_bounds
  exact rateOk_fadd hr hpfin (by omega) (by omega)

theorem rateOk_rateUp {c : Cfg} (hc : inUnit c.errFilterK = true) {r : F32} (hr : rateOk r) : rateOk (rateUp c r) := by
  obtain ⟨hfin, hlo, hhi⟩ := fsub_fOne_rate_bounds hr
  have h0 := hr.fVal_bounds.1
  exact rateOk_lpfStep hr hc hfin (by omega) hhi

theorem rateOk_rateDown {c : Cfg} (hc : inUnit c.errFilterK = true) {r : F32} (hr : rateOk r) :
    rateOk (rateDown c r) := by
  obtain ⟨hfin, hval⟩ := fVal_fsub_fZero_rate hr
  obtain ⟨h0, h1⟩ := hr.fVal_bounds
  exact rateOk_lpfStep hr hc hfin (by omega) (by omega)

/-! ### The angle of a serial payload (R135, R153) -/

/-- A finite number without sign has its own pattern as magnitude bits. -/
theorem finite_of_toNat_lt {a : F32} (h : a.toNat < infBits) :
    isFinite a = true ∧ fSign a = false ∧ fMagBits a = a.toNat := by
  have hlt : a.toNat < 2 ^ 31 := h.trans (by decide)
  refine ⟨?_, fSign_of_lt hlt, fMagBits_of_lt hlt⟩
  rwa [isFinite_iff, fMagBits_of_lt hlt]

theorem fMag_mono_toNat {a b : F32} (hb : b.toNat < infBits) (h : a.toNat ≤ b.toNat) : fMag a ≤ fMag b := by
  obtain ⟨hfin, -, hbits⟩ := finite_of_toNat_lt hb
  obtain ⟨-, -, habits⟩ := finite_of_toNat_lt (h.trans_lt hb)
  exact fMag_mono hfin (by rwa [habits, hbits])

theorem toNat_u2f (n : U32) : (u2f n).toNat = roundMag (n.toNat * 2 ^ 149) 1 := by
  simp [u2f, toNat_pack false (roundMag_lt _ _)]

theorem toNat_u2f_mono {n m : U32} (h : n.toNat ≤ m.toNat) : (u2f n).toNat ≤ (u2f m).toNat := by
  rw [toNat_u2f, toNat_u2f]
  exact roundMag_mono 1 Nat.one_pos (Nat.mul_le_mul_right _ h)

theorem toNat_fmul {a b : F32} (ha : a.toNat < infBits) (hb : b.toNat < infBits) :
    (fmul a b).toNat = roundMag (fMag a * fMag b) (2 ^ 149) := by
  obtain ⟨hfa, hsa, -⟩ := finite_of_toNat_lt ha
  obtain ⟨hfb, hsb, -⟩ := finite_of_toNat_lt hb
  simp [fmul, isNaN_of_isFinite hfa, isNaN_of_isFinite hfb, isInf_of_isFinite hfa, isInf_of_isFinite hfb, hsa, hsb,
    toNat_pack false (roundMag_lt _ _)]

theorem toNat_fmul_mono {a a' b : F32} (ha : a'.toNat < infBits) (hb : b.toNat < infBits) (h : a.toNat ≤ a'.toNat) :
    (fmul a b).toNat ≤ (fmul a' b).toNat := by
  rw [toNat_fmul (h.trans_lt ha) hb, toNat_fmul ha hb]
  exact roundMag_mono _ (Nat.two_pow_pos _) (Nat.mul_le_mul_right _ (fMag_mono_toNat ha h))

theorem toNat_fdiv {a b : F32} (ha : a.toNat < infBits) (hb : b.toNat < infBits) (hz : isZero b = false) :
    (fdiv a b).toNat = roundMag (fMag a * 2 ^ 149) (fMag b) := by
  obtain ⟨hfa, hsa, -⟩ := finite_of_toNat_lt ha
  obtain ⟨hfb, hsb, -⟩ := finite_of_toNat_lt hb
  simp [fdiv, isNaN_of_isFinite hfa, isNaN_of_isFinite hfb, isInf_of_isFinite hfa, isInf_of_isFinite hfb, hsa, hsb, hz,
    toNat_pack false (roundMag_lt _ _)]

theorem toNat_fdiv_mono {a a' b : F32} (ha : a'.toNat < infBits) (hb : b.toNat < infBits) (hz : isZero b = false)
    (hpos : 0 < fMag b) (h : a.toNat ≤ a'.toNat) : (fdiv a b).toNat ≤ (fdiv a' b).toNat := by
  rw [toNat_fdiv (h.trans_lt ha) hb hz, toNat_fdiv ha hb hz]
  exact roundMag_mono _ hpos (Nat.mul_le_mul_right _ (fMag_mono_toNat ha h))

theorem absPayload_le (w : U16) : (absPayload w).toNat ≤ (16383#32).toNat := by
  simpa [absPayload] using Nat.and_le_right

theorem resPayload_le (w : U16) : (resPayload w).toNat ≤ (4095#32).toNat := by
  simp [resPayload]
  omega

/-- The angle of a payload grows with the payload. -/
theorem toNat_payloadAngle_mono {n m : U32} {d : F32} (h : n.toNat ≤ m.toNat) (hm : (u2f m).toNat < infBits)
    (hp : (fmul (u2f m) f360).toNat < infBits) (hd : d.toNat < infBits) (hz : isZero d = false) (hpos : 0 < fMag d) :
    (fdiv (fmul (u2f n) f360) d).toNat ≤ (fdiv (fmul (u2f m) f360) d).toNat :=
  toNat_fdiv_mono hp hd hz hpos (toNat_fmul_mono hm (by decide) (toNat_u2f_mono h))

/-- The angle of the greatest payload is below 360, and the others are at most that. -/
theorem absAngle_lt (w : U16) : (absAngle w).toNat < f360.toNat :=
  (toNat_payloadAngle_mono (absPayload_le w) (by decide +kernel) (by decide +kernel) (by decide +kernel)
    (by decide +kernel) (by decide +kernel)).trans_lt (by decide +kernel)

theorem resAngle_lt (w : U16) : (resAngle w).toNat < f360.toNat :=
  (toNat_payloadAngle_mono (resPayload_le w) (by decide +kernel) (by decide +kernel) (by decide +kernel)
    (by decide +kernel) (by decide +kernel)).trans_lt (by decide +kernel)

end Sys2Proof.Machine
end

section
/-! PROOF. What an operation may write into the registers and put on its trace, said once for all 29 rows of the opcode table. -/

namespace Sys2Proof.Machine

/-! ### The register writes of the block (`10_state.md` R34; R201 to R205, R188, R135, R136, R153, R168 to R170) -/

/-- The ways in which one operation may write the registers `r`. -/
inductive Regs.Written (c : Cfg) (r : Regs) : Regs → Prop
  | kept : Written c r r
  | counts (cpr : U32) : Written c r { r with cpr := cpr }
  | toDefault : Written c r Regs.default
  | toQuad (cpr : U32) : Written c r { Regs.default with mode := .quadrature, cpr := cpr }
  | toAbs : Written c r { Regs.default with mode := .absoluteSpi }
  | toRes : Written c r { Regs.default with mode := .resolverSpi }
  | toSincos (sg so cg co k : F32) : Written c r
      { Regs.default with
        mode := .sinCosAnalog, sinGain := sg, sinOffset := so, cosGain := cg, cosOffset := co, scFilterK := k }
  | absAccepted (hm : r.mode = .absoluteSpi) (w : U16) : Written c r
      { r with spiVal := w, lastAngle := absAngle w, spiErrRate := rateDown c r.spiErrRate }
  | absRejected (hm : r.mode = .absoluteSpi) (w : U16) (n : U32) : Written c r
      { r with spiVal := w, spiErrCnt := n, spiErrRate := rateUp c r.spiErrRate }
  | resAccepted (hm : r.mode = .resolverSpi) (w : U16) : Written c r { r with lastAngle := resAngle w }
  | scBelow (hm : r.mode = .sinCosAnalog) (n : U32) : Written c r
      { r with scBelowCnt := n, scBelowRate := rateUp c r.scBelowRate }
  | scAbove (hm : r.mode = .sinCosAnalog) (n : U32) : Written c r
      { r with scAboveCnt := n, scAboveRate := rateUp c r.scAboveRate }
  | scValid (hm : r.mode = .sinCosAnalog) (a : F32) : Written c r
      { r with scAboveRate := rateDown c r.scAboveRate, scBelowRate := rateDown c r.scBelowRate, lastAngle := a }

/-! ### Frames of the shared operations -/

@[simp] theorem State.acts_out (as : List PinAct) (s : State) :
    (s.acts as).out = { s.out with trace := s.out.trace ++ as } := by rw [State.acts_eq]

@[simp] theorem State.drawIndexPin_regs (s : State) : s.drawIndexPin.2.regs = s.regs := by
  rw [State.drawIndexPin_eq]; rfl

@[simp] theorem State.drawIndexPin_trace (s : State) :
    s.drawIndexPin.2.out.trace = s.out.trace ++ [.sampleIndexPin s.indexPinNext] := by
  rw [State.drawIndexPin_eq]; rfl

@[simp] theorem State.drawQcnt_regs (s : State) : s.drawQcnt.2.regs = s.regs := by
  rw [State.drawQcnt_eq]; rfl

@[simp] theorem State.drawQcnt_trace (s : State) :
    s.drawQcnt.2.out.trace = s.out.trace ++ [.readQcnt s.qcntNext] := by
  rw [State.drawQcnt_eq]; rfl

@[simp] theorem State.xfer_regs (c : Cfg) (out : Option (List U16)) (n : Nat) (s : State) :
    (s.xfer c out n).2.regs = s.regs := by
  rw [State.xfer_eq]; simp

@[simp] theorem State.xfer_trace (c : Cfg) (out : Option (List U16)) (n : Nat) (s : State) :
    (s.xfer c out n).2.out.trace = s.out.trace ++ xferActs c (wordsSent out n) s.misoAt := by
  rw [State.xfer_eq]; simp

@[simp] theorem State.xferWord_regs (c : Cfg) (out : Option (List U16)) (s : State) :
    (s.xferWord c out).2.regs = s.regs := State.xfer_regs c out 1 s

@[simp] theorem State.xferWord_trace (c : Cfg) (out : Option (List U16)) (s : State) :
    (s.xferWord c out).2.out.trace = s.out.trace ++ xferActs c (wordsSent out 1) s.misoAt := State.xfer_trace c out 1 s

@[simp] theorem State.raiseFault_trace (c : Cfg) (f : DecodeFault) (s : State) :
    (s.raiseFault c f).out.trace = s.out.trace := by
  obtain ⟨r, k, e, -⟩ := s.raiseFault_cases c f
  rw [e]

@[simp] theorem State.receiveAbs_trace (c : Cfg) (w : U16) (s : State) : (s.receiveAbs c w).out.trace = s.out.trace := by
  cases h : absAccepted w with
  | true => rw [State.receiveAbs_accepted c w s h]
  | false => rw [State.receiveAbs_rejected c w s h, State.raiseFault_trace, State.withRegs_out]

@[simp] theorem State.receiveRes_trace (c : Cfg) (w : U16) (s : State) : (s.receiveRes c w).out.trace = s.out.trace := by
  cases h : resHealthy c w with
  | true => rw [State.receiveRes_healthy c w s h]
  | false => rw [State.receiveRes_unhealthy c w s h]

@[simp] theorem State.respondAngle_regs (c : Cfg) (a : F32) (s : State) : (s.respondAngle c a).regs = s.regs := by
  obtain ⟨v, k, e, -⟩ := s.respondAngle_cases c a
  rw [e, State.respond_regs]

@[simp] theorem State.respondAngle_trace (c : Cfg) (a : F32) (s : State) :
    (s.respondAngle c a).out.trace = s.out.trace ++ [.pulse .rspValid] := by
  obtain ⟨v, k, e, -⟩ := s.respondAngle_cases c a
  rw [e, State.respond_out]

/-- The counter is configured by one pulse, whatever `cpr` is (R186, U3). -/
@[simp] theorem State.configCounterFor_trace (cpr : U32) (s : State) :
    (s.configCounterFor cpr).out.trace = s.out.trace ++ [.pulse .qcfgValid] := by
  unfold State.configCounterFor
  split <;> simp

/-! ### What the decoders write -/

/-- An absolute-encoder frame is accepted or rejected, and either way `SPI_VAL` takes it. -/
theorem State.receiveAbs_written (c : Cfg) (w : U16) (s : State) (hm : s.regs.mode = .absoluteSpi) :
    s.regs.Written c (s.receiveAbs c w).regs := by
  cases h : absAccepted w with
  | true => rw [State.receiveAbs_accepted c w s h]; exact .absAccepted hm w
  | false =>
    have hf : (if isSentinel w then DecodeFault.disconnect else .parity) = .parity ∨
        (if isSentinel w then DecodeFault.disconnect else .parity) = .disconnect := by
      cases isSentinel w
      · exact .inl rfl
      · exact .inr rfl
    obtain ⟨n, k, e, -⟩ := State.raiseFault_abs c _ hf (s.withRegs { s.regs with spiVal := w })
    rw [State.receiveAbs_rejected c w s h, e]
    exact .absRejected hm w n

theorem State.receiveRes_written (c : Cfg) (w : U16) (s : State) (hm : s.regs.mode = .resolverSpi) :
    s.regs.Written c (s.receiveRes c w).regs := by
  cases h : resHealthy c w with
  | true => rw [State.receiveRes_healthy c w s h]; exact .resAccepted hm w
  | false => rw [State.receiveRes_unhealthy c w s h]; exact .kept

/-- The tracker of a signal below its band (R169). -/
theorem State.raiseFault_belowMin_written (c : Cfg) (s : State) (hm : s.regs.mode = .sinCosAnalog) :
    s.regs.Written c (s.raiseFault c .signalBelowMin).regs := by
  obtain ⟨r, k, e, ⟨h, -⟩ | ⟨h, -⟩ | ⟨-, n, -, rfl⟩ | ⟨h, -⟩⟩ := s.raiseFault_cases c .signalBelowMin
  · simp at h
  · cases h
  · rw [e]; exact .scBelow hm n
  · cases h

/-- The tracker of a signal above its band (R168). -/
theorem State.raiseFault_aboveMax_written (c : Cfg) (s : State) (hm : s.regs.mode = .sinCosAnalog) :
    s.regs.Written c (s.raiseFault c .signalAboveMax).regs := by
  obtain ⟨r, k, e, ⟨h, -⟩ | ⟨h, -⟩ | ⟨h, -⟩ | ⟨-, n, -, rfl⟩⟩ := s.raiseFault_cases c .signalAboveMax
  · simp at h
  · cases h
  · cases h
  · rw [e]; exact .scAbove hm n

/-! ### The three events -/

/-- A sample in another mode does nothing (R174). -/
theorem State.sincosSample_of_mode_ne (c : Cfg) (a b : F32) (s : State) (hm : s.regs.mode ≠ .sinCosAnalog) :
    s.sincosSample c a b = s := if_neg hm

/-- A sample in its own mode takes one of the three branches (R166). -/
theorem State.sincosSample_cases (c : Cfg) (a b : F32) (s : State) (hm : s.regs.mode = .sinCosAnalog) :
    s.sincosSample c a b = s.raiseFault c .signalAboveMax ∨ s.sincosSample c a b = s.raiseFault c .signalBelowMin ∨
      ∃ sn cs, s.sincosSample c a b = s.acceptSincos c sn cs := by
  unfold State.sincosSample
  rw [if_pos hm]
  dsimp only
  split
  · exact .inl rfl
  · exact .inr (.inl rfl)
  · exact .inr (.inr ⟨_, _, rfl⟩)

theorem State.sincosSample_written (c : Cfg) (a b : F32) (s : State) :
    s.regs.Written c (s.sincosSample c a b).regs := by
  by_cases hm : s.regs.mode = .sinCosAnalog
  · rcases s.sincosSample_cases c a b hm with e | e | ⟨sn, cs, e⟩
    · rw [e]; exact s.raiseFault_aboveMax_written c hm
    · rw [e]; exact s.raiseFault_belowMin_written c hm
    · rw [e, State.acceptSincos_eq]; exact .scValid hm _
  · rw [s.sincosSample_of_mode_ne c a b hm]; exact .kept

@[simp] theorem State.sincosSample_trace (c : Cfg) (a b : F32) (s : State) :
    (s.sincosSample c a b).out.trace = s.out.trace := by
  by_cases hm : s.regs.mode = .sinCosAnalog
  · rcases s.sincosSample_cases c a b hm with e | e | ⟨sn, cs, e⟩
    · rw [e, State.raiseFault_trace]
    · rw [e, State.raiseFault_trace]
    · rw [e, State.acceptSincos_eq]
  · rw [s.sincosSample_of_mode_ne c a b hm]

/-- The event `INDEX` writes no register in any mode (R189, R190). -/
@[simp] theorem State.indexPulse_regs (c : Cfg) (s : State) : (s.indexPulse c).regs = s.regs := by
  unfold State.indexPulse
  dsimp only
  split <;> simp

/-- `TICK` in the two modes that have a serial decoder, and in the others (R209). -/
theorem State.tick_abs (c : Cfg) (s : State) (hm : s.regs.mode = .absoluteSpi) :
    s.tick c = (s.xferWord c (some [absCmdWord])).2.receiveAbs c (s.xferWord c (some [absCmdWord])).1 := by
  unfold State.tick
  rw [hm]

theorem State.tick_res (c : Cfg) (s : State) (hm : s.regs.mode = .resolverSpi) :
    s.tick c = ((s.controlLines c).xferWord c none).2.receiveRes c ((s.controlLines c).xferWord c none).1 := by
  unfold State.tick
  rw [hm]

theorem State.tick_other (c : Cfg) (s : State) (ha : s.regs.mode ≠ .absoluteSpi) (hr : s.regs.mode ≠ .resolverSpi) :
    s.tick c = s := by
  unfold State.tick
  cases hm : s.regs.mode with
  | absoluteSpi => exact absurd hm ha
  | resolverSpi => exact absurd hm hr
  | none | quadrature | sinCosAnalog => rfl

theorem State.tick_written (c : Cfg) (s : State) (hp : s.hid.resPos = .idle) : s.regs.Written c (s.tick c).regs := by
  by_cases ha : s.regs.mode = .absoluteSpi
  · have h := (s.xferWord c (some [absCmdWord])).2.receiveAbs_written c (s.xferWord c (some [absCmdWord])).1 (by simpa using ha)
    rw [s.tick_abs c ha]
    simpa using h
  by_cases hr : s.regs.mode = .resolverSpi
  · have h := ((s.controlLines c).xferWord c none).2.receiveRes_written c ((s.controlLines c).xferWord c none).1
      (by simpa [State.controlLines_eq c s hp] using hr)
    rw [s.tick_res c hr]
    simpa [State.controlLines_eq c s hp] using h
  · rw [s.tick_other c ha hr]; exact .kept

/-! ### Entries of a trace that are no mode's row -/

/-- No entry of the trace changes the row of pins of a mode. -/
def noModeRow (tr : List PinAct) : Prop := ∀ a ∈ tr, a.isModeRow = false

@[simp] theorem noModeRow_nil : noModeRow [] := by simp [noModeRow]

@[simp] theorem noModeRow_cons (a : PinAct) (as : List PinAct) :
    noModeRow (a :: as) ↔ a.isModeRow = false ∧ noModeRow as := by simp [noModeRow]

@[simp] theorem noModeRow_append (as bs : List PinAct) : noModeRow (as ++ bs) ↔ noModeRow as ∧ noModeRow bs := by
  simp [noModeRow, or_imp, forall_and]

@[simp] theorem noModeRow_xferActs (c : Cfg) (ws : List U16) (x : Nat → Bool) : noModeRow (xferActs c ws x) :=
  xferActs_noModeRow c ws x

@[simp] theorem noModeRow_controlActs (c : Cfg) : noModeRow (controlActs c) := by
  simp [noModeRow, controlActs, PinAct.isModeRow]

theorem State.tick_noModeRow (c : Cfg) (s : State) (hp : s.hid.resPos = .idle) (ht : noModeRow s.out.trace) :
    noModeRow (s.tick c).out.trace := by
  by_cases ha : s.regs.mode = .absoluteSpi
  · rw [s.tick_abs c ha]; simpa using ht
  by_cases hr : s.regs.mode = .resolverSpi
  · rw [s.tick_res c hr]; simpa [State.controlLines_eq c s hp] using ht
  · rw [s.tick_other c ha hr]; exact ht

theorem State.indexPulse_noModeRow (c : Cfg) (s : State) (ht : noModeRow s.out.trace) :
    noModeRow (s.indexPulse c).out.trace := by
  unfold State.indexPulse
  dsimp only
  split <;> simpa [PinAct.isModeRow] using ht

/-! ### Every operation -/

/-- The trace drives no pin until its last entry, the row of a new mode (R211). -/
def EndsInModeRow (tr : List PinAct) : Prop :=
  ∃ before m, tr = before ++ [.modeRow m] ∧ drivesNoPin before = true ∧ noModeRow before

/-- The trace of an operation: `INIT_*` and `DEINIT` end with the row of the new mode, no other operation shows one (R200, R211). -/
def Traced (i : Instr) (tr : List PinAct) : Prop :=
  match i with
  | .initQuad _ | .initAbs | .initRes | .initSincos _ _ _ _ _ | .deinit => EndsInModeRow tr
  | _ => noModeRow tr

/-- The operation completes, writes the registers in one of the ways of `Regs.Written`, and leaves a trace of the kind `p`. -/
def Completes (i : Instr) (s : State) (p : List PinAct → Prop) : Prop :=
  ∃ u, exec i s = .next u ∧ s.regs.Written cfg u.regs ∧ p u.out.trace

@[simp] theorem Out.empty_trace : Out.empty.trace = [] := rfl

/-- An operation that only responds, hands a value over or does nothing. -/
theorem completes_of_regs_eq {i : Instr} {s : State} (u : State) (he : exec i s = .next u.finish) (hr : u.regs = s.regs)
    (ht : noModeRow u.out.trace) : Completes i s noModeRow :=
  ⟨u.finish, he, hr ▸ .kept, ht⟩

/-- `READ_ANGLE` in `Quadrature` mode draws one count and responds with its angle (R187). -/
theorem exec_readAngle_quadrature (s : State) (hm : s.regs.mode = .quadrature) (hc : cprLegal s.regs.cpr = true) :
    exec .readAngle s = .next (s.accept.drawQcnt.2.respondAngle cfg
      (quadAngle s.accept.drawQcnt.1 s.accept.drawQcnt.2.regs.cpr)).finish := by
  have hc' : cprLegal s.accept.drawQcnt.2.regs.cpr = true := by simpa using hc
  show execReadAngle s = _
  unfold execReadAngle
  dsimp only
  rw [State.accept_regs, hm]
  exact if_pos hc'

/-- The same with an illegal `CPR`: any value (U3; log 12). -/
theorem exec_readAngle_illegalCpr (s : State) (hm : s.regs.mode = .quadrature) (hc : ¬ cprLegal s.regs.cpr = true) :
    exec .readAngle s = .next (s.accept.drawQcnt.2.takeFree.2.respond s.accept.drawQcnt.2.takeFree.1).finish := by
  have hc' : ¬ cprLegal s.accept.drawQcnt.2.regs.cpr = true := by simpa using hc
  show execReadAngle s = _
  unfold execReadAngle
  dsimp only
  rw [State.accept_regs, hm]
  exact if_neg hc'

/-- `READ_ANGLE` in the other modes responds with `LAST_ANGLE` (R206). -/
theorem exec_readAngle_cached (s : State) (hm : s.regs.mode ≠ .quadrature) :
    exec .readAngle s = .next (s.accept.respondAngle cfg s.regs.lastAngle).finish := by
  show execReadAngle s = _
  unfold execReadAngle
  dsimp only
  rw [State.accept_regs]
  split
  · contradiction
  all_goals rfl

theorem readAngle_completes (s : State) : Completes .readAngle s noModeRow := by
  by_cases hm : s.regs.mode = .quadrature
  · by_cases hc : cprLegal s.regs.cpr = true
    · exact completes_of_regs_eq _ (exec_readAngle_quadrature s hm hc) (by simp) (by simp [PinAct.isModeRow])
    · exact completes_of_regs_eq _ (exec_readAngle_illegalCpr s hm hc) (by simp) (by simp [PinAct.isModeRow])
  · exact completes_of_regs_eq _ (exec_readAngle_cached s hm) (by simp) (by simp [PinAct.isModeRow])

/-- An operation that is accepted and ends at once. -/
theorem completes_of_noEffect {i : Instr} {s : State} (he : exec i s = .next s.accept.finish) : Completes i s noModeRow :=
  completes_of_regs_eq _ he rfl noModeRow_nil

/-- A frame sent makes a transfer in the mode whose `TICK` sends it, and does nothing elsewhere (log 16). -/
theorem absCmd_completes (s : State) : Completes .absCmd s noModeRow := by
  by_cases hm : s.regs.mode = .absoluteSpi
  · exact completes_of_regs_eq ((s.accept.xferWord cfg (some [absCmdWord])).2.giveResult
      [zext16 (s.accept.xferWord cfg (some [absCmdWord])).1]) (if_pos hm) (by simp) (by simp)
  · exact completes_of_noEffect (if_neg hm)

theorem resCmd_completes (s : State) : Completes .resCmd s noModeRow := by
  by_cases hm : s.regs.mode = .resolverSpi
  · exact completes_of_regs_eq ((s.accept.xferWord cfg none).2.giveResult
      [zext16 (s.accept.xferWord cfg none).1]) (if_pos hm) (by simp) (by simp)
  · exact completes_of_noEffect (if_neg hm)

/-- A frame received is decoded in the mode whose `TICK` receives it, and does nothing elsewhere (log 16). -/
theorem absReply_completes (w : U16) (s : State) : Completes (.absReply w) s noModeRow := by
  by_cases hm : s.regs.mode = .absoluteSpi
  · exact ⟨(s.accept.receiveAbs cfg w).finish, if_pos hm, s.accept.receiveAbs_written cfg w hm, by simp⟩
  · exact completes_of_noEffect (if_neg hm)

theorem resReply_completes (w : U16) (s : State) : Completes (.resReply w) s noModeRow := by
  by_cases hm : s.regs.mode = .resolverSpi
  · exact ⟨(s.accept.receiveRes cfg w).finish, if_pos hm, s.accept.receiveRes_written cfg w hm, by simp⟩
  · exact completes_of_noEffect (if_neg hm)

theorem wrap_completes (a : F32) (s : State) : Completes (.wrap a) s noModeRow := by
  by_cases hf : isFinite a = true
  · exact completes_of_regs_eq (s.accept.giveResult [wrapAngle cfg.angleWrap a]) (if_pos hf) rfl noModeRow_nil
  · exact completes_of_regs_eq (s.accept.takeFree.2.giveResult [s.accept.takeFree.1]) (if_neg hf) rfl noModeRow_nil

theorem xfer_completes (out : Option (List U16)) (n : Nat) (s : State) : Completes (.xfer out n) s noModeRow :=
  completes_of_regs_eq ((s.accept.xfer cfg out n).2.giveResult ((s.accept.xfer cfg out n).1.map zext16)) rfl
    (by simp) (by simp)

theorem initQuad_completes (cpr : U32) (s : State) : Completes (.initQuad cpr) s EndsInModeRow :=
  ⟨((s.accept.configCounterFor cpr).enterMode { Regs.default with mode := .quadrature, cpr := cpr }).finish,
    rfl, .toQuad cpr, [.pulse .qcfgValid], .quadrature, by simp [State.enterMode_eq], rfl, by simp [PinAct.isModeRow]⟩

/-- A mode command whose registers are `r` and which does nothing before its end. -/
theorem completes_of_enterMode {i : Instr} {s : State} (r : Regs) (he : exec i s = .next (s.accept.enterMode r).finish)
    (hw : s.regs.Written cfg r) : Completes i s EndsInModeRow :=
  ⟨(s.accept.enterMode r).finish, he, hw, [], r.mode, rfl, rfl, noModeRow_nil⟩

/-- Every operation completes in every state, with its register writes and its trace as said above. -/
theorem exec_completes (i : Instr) (s : State) : Completes i s (Traced i) := by
  cases i with
  | initQuad cpr => exact initQuad_completes cpr s
  | initAbs => exact completes_of_enterMode _ rfl .toAbs
  | initRes => exact completes_of_enterMode _ rfl .toRes
  | initSincos sg so cg co k => exact completes_of_enterMode _ rfl (.toSincos sg so cg co k)
  | deinit => exact completes_of_enterMode _ rfl .toDefault
  | setCounts cpr => exact ⟨_, rfl, .counts cpr, noModeRow_nil⟩
  | readAngle => exact readAngle_completes s
  | isConfigured | rdDiag idx => exact completes_of_regs_eq _ rfl rfl (by simp [PinAct.isModeRow])
  | reserved0 | reservedA | reservedB | reservedC | reservedD | reservedE | reservedF =>
    exact completes_of_noEffect rfl
  | tick =>
    exact ⟨_, rfl, s.accept.tick_written cfg rfl, s.accept.tick_noModeRow cfg rfl noModeRow_nil⟩
  | index =>
    exact completes_of_regs_eq _ rfl (s.accept.indexPulse_regs cfg) (s.accept.indexPulse_noModeRow cfg noModeRow_nil)
  | sincosSample a b => exact ⟨_, rfl, s.accept.sincosSample_written cfg a b, show noModeRow _ by simp⟩
  | absCmd => exact absCmd_completes s
  | absReply w => exact absReply_completes w s
  | resCmd => exact resCmd_completes s
  | resReply w => exact resReply_completes w s
  | xfer out n => exact xfer_completes out n s
  | maj5 _ _ _ _ _ | parity16 _ | lpf _ _ _ | atan2deg _ _ => exact completes_of_regs_eq _ rfl rfl noModeRow_nil
  | wrap a => exact wrap_completes a s

theorem exec_written {i : Instr} {s t : State} (h : exec i s = .next t) : s.regs.Written cfg t.regs := by
  obtain ⟨u, he, hw, -⟩ := exec_completes i s
  obtain rfl : u = t := by simpa [he] using h
  exact hw

end Sys2Proof.Machine
end

section
/-! PROOF. The state over the steps of a run (`10_state.md`, `70_reset_and_hazards.md` R280, R281): the invariants of the registers,
and `rst` in an idle cycle and inside an operation. -/

namespace Sys2Proof.Machine

/-! ### What a step may write -/

/-- A step writes the registers as one operation may write them: a quiet step not at all, and `rst` as `DEINIT` does (R280). -/
theorem step_written {s t : State} (h : step s = .next t) : s.regs.Written cfg t.regs := by
  rcases step_regs_whole s t h with e | ⟨i, as, e⟩ | e
  · rw [e]; exact .kept
  · exact exec_written (s := s.withArrivals as) e
  · rw [e]; exact .toDefault

/-! ### The invariants at reset and over a register write -/

theorem Regs.default_ratesOk : Regs.default.ratesOk := by
  simp [Regs.ratesOk, Regs.default, rateOk]

theorem Regs.default_inactiveDefault : Regs.default.inactiveDefault := by
  simp [Regs.inactiveDefault, Regs.default]

theorem Regs.default_angleOk : Regs.default.angleOk := rfl

/-- Settles O47. -/
theorem invariantsHoldAtReset : Obligations.InvariantsHoldAtReset :=
  ⟨⟨rfl, rfl⟩, Regs.default_ratesOk, Regs.default_inactiveDefault, Regs.default_angleOk⟩

/-- A rate is written by one filter step toward 0 or 1, or to its default (R200, R231). -/
theorem Regs.Written.ratesOk {c : Cfg} {r r' : Regs} (hc : inUnit c.errFilterK = true) (h : r.Written c r')
    (hr : r.ratesOk) : r'.ratesOk := by
  obtain ⟨hspi, hbelow, habove⟩ := hr
  cases h with
  | kept => exact ⟨hspi, hbelow, habove⟩
  | counts cpr => exact ⟨hspi, hbelow, habove⟩
  | toDefault | toQuad _ | toAbs | toRes | toSincos _ _ _ _ _ => exact Regs.default_ratesOk
  | absAccepted _ w => exact ⟨rateOk_rateDown hc hspi, hbelow, habove⟩
  | absRejected _ w n => exact ⟨rateOk_rateUp hc hspi, hbelow, habove⟩
  | resAccepted _ w => exact ⟨hspi, hbelow, habove⟩
  | scBelow _ n => exact ⟨hspi, rateOk_rateUp hc hbelow, habove⟩
  | scAbove _ n => exact ⟨hspi, hbelow, rateOk_rateUp hc habove⟩
  | scValid _ a => exact ⟨hspi, rateOk_rateDown hc hbelow, rateOk_rateDown hc habove⟩

/-- A register of one mode is written by that mode's operations only, and on leaving the mode to its default (R50). -/
theorem Regs.Written.inactiveDefault {c : Cfg} {r r' : Regs} (h : r.Written c r') (hr : r.inactiveDefault) :
    r'.inactiveDefault := by
  obtain ⟨hsc, habs⟩ := hr
  cases h with
  | kept => exact ⟨hsc, habs⟩
  | counts cpr => exact ⟨hsc, habs⟩
  | toDefault => exact Regs.default_inactiveDefault
  | toQuad cpr => simp [Regs.inactiveDefault, Regs.default]
  | toAbs => simp [Regs.inactiveDefault, Regs.default]
  | toRes => simp [Regs.inactiveDefault, Regs.default]
  | toSincos sg so cg co k => simp [Regs.inactiveDefault, Regs.default]
  | absAccepted hm w => exact ⟨hsc, fun hne => absurd hm hne⟩
  | absRejected hm w n => exact ⟨hsc, fun hne => absurd hm hne⟩
  | resAccepted hm w => exact ⟨hsc, habs⟩
  | scBelow hm n => exact ⟨fun hne => absurd hm hne, habs⟩
  | scAbove hm n => exact ⟨fun hne => absurd hm hne, habs⟩
  | scValid hm a => exact ⟨fun hne => absurd hm hne, habs⟩

/-- `angleOk` reads two registers only. -/
theorem Regs.angleOk_congr {r r' : Regs} (hm : r'.mode = r.mode) (ha : r'.lastAngle = r.lastAngle) (h : r.angleOk) :
    r'.angleOk := by
  unfold Regs.angleOk at *
  rwa [hm, ha]

theorem Regs.angleOk_of_serial {r : Regs} (hm : r.mode = .absoluteSpi ∨ r.mode = .resolverSpi)
    (ha : r.lastAngle.toNat < f360.toNat) : r.angleOk := by
  unfold Regs.angleOk
  rcases hm with e | e <;> rwa [e]

theorem Regs.angleOk_of_sinCos {r : Regs} (hm : r.mode = .sinCosAnalog) : r.angleOk := by
  unfold Regs.angleOk
  rw [hm]
  trivial

/-- `LAST_ANGLE` is written by the decoder of the mode, or to its default (R24). -/
theorem Regs.Written.angleOk {c : Cfg} {r r' : Regs} (h : r.Written c r') (hr : r.angleOk) : r'.angleOk := by
  cases h with
  | kept => exact hr
  | counts cpr => exact Regs.angleOk_congr rfl rfl hr
  | toDefault => exact Regs.default_angleOk
  | toQuad cpr => exact rfl
  | toAbs => exact Regs.angleOk_of_serial (.inl rfl) (by decide)
  | toRes => exact Regs.angleOk_of_serial (.inr rfl) (by decide)
  | toSincos sg so cg co k => exact Regs.angleOk_of_sinCos rfl
  | absAccepted hm w => exact Regs.angleOk_of_serial (.inl hm) (absAngle_lt w)
  | absRejected hm w n => exact Regs.angleOk_congr rfl rfl hr
  | resAccepted hm w => exact Regs.angleOk_of_serial (.inr hm) (resAngle_lt w)
  | scBelow hm n => exact Regs.angleOk_of_sinCos hm
  | scAbove hm n => exact Regs.angleOk_of_sinCos hm
  | scValid hm a => exact Regs.angleOk_of_sinCos hm

/-! ### The invariants over a step -/

/-- Settles O55: `ERR_FILTER_K` is legal, so the filter keeps a rate in the unit interval. -/
theorem everyStepKeepsRatesInUnit : Obligations.EveryStepKeepsRatesInUnit :=
  fun _ _ hs h => (step_written h).ratesOk cfg_errFilterK_inUnit hs

/-- Settles O56. -/
theorem everyStepKeepsInactiveDefaults : Obligations.EveryStepKeepsInactiveDefaults :=
  fun _ _ hs h => (step_written h).inactiveDefault hs

/-- Settles O57. -/
theorem everyStepKeepsAngleInRange : Obligations.EveryStepKeepsAngleInRange :=
  fun _ _ hs h => (step_written h).angleOk hs

/-! ### `rst` -/

/-- The first cycle of the ports is looked at by an idle block, and by any block where `rst` is 1 (R40, R262). -/
theorem State.fetch_of_ports {s : State} {c : PortCycle} {rest : List Arrival} (hs : s.env.arrivals = .ports c :: rest)
    (h : s.hid.busy = false ∨ c.rst = true) : s.fetch = s.fetchCycle c rest := by
  have hb : ¬ (!s.cmdReady && !c.rst) = true := by
    rcases h with h | h <;> simp [State.cmdReady, h]
  unfold State.fetch
  rw [hs]
  exact if_neg hb

/-- An idle block accepts what the source taken first presents, for a run to its end or to the `rst` of that cycle. -/
theorem State.fetchCycle_operation {s : State} {c : PortCycle} {rest : List Arrival} {src : Source} {i : Instr}
    (hr : c.rst = false) (hw : c.whileBusy = false) (hf : c.first = some src)
    (hd : decode s.regs.mode (c.encoding src) = .ok i) :
    s.fetchCycle c rest = .operation i (s.withArrivals (c.remaining src rest)) c.rstAfter := by
  simp [State.fetchCycle, hr, hw, hf, hd]

/-- Nothing of a cycle survives an `rst` inside its operation (log 6). -/
theorem PortCycle.remaining_of_rstAfter {c : PortCycle} {k : Nat} (h : c.rstAfter = some k) (src : Source)
    (rest : List Arrival) : c.remaining src rest = rest := by
  simp [PortCycle.remaining, h]

theorem step_of_fetch_cut {s s0 u : State} {i : Instr} {k : Nat} (hf : s.fetch = .operation i s0 (some k))
    (he : exec i s0 = .next u) : step s = .next (s0.cutByReset k u) := by
  unfold step
  rw [hf]
  dsimp only
  rw [he]

/-- Settles O48: the cycle is quiet, with the reset state after it. -/
theorem resetCycleRestoresResetState : Obligations.ResetCycleRestoresResetState := by
  intro s c rest hs hr
  have hfetch : s.fetch = .quiet ((s.withArrivals rest).resetAfter [] s.free) :=
    (State.fetch_of_ports hs (.inr hr)).trans (if_pos hr)
  exact ⟨_, step_of_fetch_quiet hfetch, rfl, rfl, rfl, rfl⟩

/-- The part of a trace shown before a cut drives no pin if the whole drives none. -/
theorem drivesNoPin_take (k : Nat) {tr : List PinAct} (h : drivesNoPin tr = true) : drivesNoPin (tr.take k) = true := by
  unfold drivesNoPin at *
  rw [List.all_eq_true] at *
  exact fun a ha => h a (List.mem_of_mem_take ha)

/-- A mode command that is cut has moved no pin, since only its last entry does (R211). -/
theorem drivesNoPin_cutTrace {tr : List PinAct} (k : Nat) (h : EndsInModeRow tr) : drivesNoPin (cutTrace k tr) = true := by
  obtain ⟨before, m, rfl, hd, hn⟩ := h
  rw [cutTrace_append_modeRow k before m hn]
  exact drivesNoPin_take k hd

/-- Settles O49: every operation completes, so its trace is there to be cut; the state after the cut is the reset state whatever the
operation wrote, and the trace shown depends on whether the operation is a mode command. -/
theorem resetDuringOperationAbandonsIt : Obligations.ResetDuringOperationAbandonsIt := by
  intro s c rest src i k hs hb hr hw hf hd hk
  have hfetch : s.fetch = .operation i (s.withArrivals rest) (some k) := by
    rw [State.fetch_of_ports hs (.inl hb), State.fetchCycle_operation hr hw hf hd,
      PortCycle.remaining_of_rstAfter hk, hk]
  obtain ⟨u, he, -, htr⟩ := exec_completes i (s.withArrivals rest)
  refine ⟨_, u, he, step_of_fetch_cut hfetch he, rfl, rfl, rfl, rfl, rfl, ?_⟩
  cases i with
  | initQuad _ | initAbs | initRes | initSincos _ _ _ _ _ | deinit => exact drivesNoPin_cutTrace k htr
  | _ => exact cutTrace_of_noModeRow k _ htr

end Sys2Proof.Machine
end

section
/-! PROOF. The decoder and the encoder of the ports (`30_encoding.md` R80 to R85, R87 to R91, R93, R96). -/

namespace Sys2Proof.Machine

/-! ### The fields of the command port (R81) -/

open BitVec (extractLsb'_append_eq_of_add_le extractLsb'_append_eq_left extractLsb'_append_eq_right)

@[simp] theorem cmdOp_cmdPort (op : BitVec 4) (a0 a1 a2 a3 a4 : U32) : cmdOp (cmdPort op a0 a1 a2 a3 a4) = op := by
  rw [cmdOp, cmdPort, extractLsb'_append_eq_of_add_le, extractLsb'_append_eq_of_add_le, extractLsb'_append_eq_of_add_le,
    extractLsb'_append_eq_of_add_le, extractLsb'_append_eq_right] <;> decide

@[simp] theorem cmdA0_cmdPort (op : BitVec 4) (a0 a1 a2 a3 a4 : U32) : cmdA0 (cmdPort op a0 a1 a2 a3 a4) = a0 := by
  rw [cmdA0, cmdPort, extractLsb'_append_eq_of_add_le, extractLsb'_append_eq_of_add_le, extractLsb'_append_eq_of_add_le,
    extractLsb'_append_eq_of_add_le, extractLsb'_append_eq_left] <;> decide

@[simp] theorem cmdA1_cmdPort (op : BitVec 4) (a0 a1 a2 a3 a4 : U32) : cmdA1 (cmdPort op a0 a1 a2 a3 a4) = a1 := by
  rw [cmdA1, cmdPort, extractLsb'_append_eq_of_add_le, extractLsb'_append_eq_of_add_le, extractLsb'_append_eq_of_add_le,
    extractLsb'_append_eq_left] <;> decide

@[simp] theorem cmdA2_cmdPort (op : BitVec 4) (a0 a1 a2 a3 a4 : U32) : cmdA2 (cmdPort op a0 a1 a2 a3 a4) = a2 := by
  rw [cmdA2, cmdPort, extractLsb'_append_eq_of_add_le, extractLsb'_append_eq_of_add_le,
    extractLsb'_append_eq_left] <;> decide

@[simp] theorem cmdA3_cmdPort (op : BitVec 4) (a0 a1 a2 a3 a4 : U32) : cmdA3 (cmdPort op a0 a1 a2 a3 a4) = a3 := by
  rw [cmdA3, cmdPort, extractLsb'_append_eq_of_add_le (by decide), extractLsb'_append_eq_left]

@[simp] theorem cmdA4_cmdPort (op : BitVec 4) (a0 a1 a2 a3 a4 : U32) : cmdA4 (cmdPort op a0 a1 a2 a3 a4) = a4 := by
  rw [cmdA4, cmdPort, extractLsb'_append_eq_left]

/-! ### What a command code reads (R82, R84, R93) -/

/-- A command is read from its code and the argument fields of that code, and from nothing else (R84). -/
theorem decodeCommand_congr {p q : BitVec 164} (hop : cmdOp p = cmdOp q)
    (h0 : cmdOp p = 0x1 ∨ cmdOp p = 0x4 ∨ cmdOp p = 0x6 ∨ cmdOp p = 0x9 → cmdA0 p = cmdA0 q)
    (h4 : cmdOp p = 0x4 → cmdA1 p = cmdA1 q ∧ cmdA2 p = cmdA2 q ∧ cmdA3 p = cmdA3 q ∧ cmdA4 p = cmdA4 q) :
    decodeCommand p = decodeCommand q := by
  have code {c : BitVec 4} (h : (cmdOp p).toNat = c.toNat) : cmdOp p = c := BitVec.eq_of_toNat_eq h
  unfold decodeCommand
  rw [← hop]
  split
  case h_1 h => rw [h0 (.inl (code h))]
  case h_4 h =>
    obtain ⟨h1, h2, h3, h4⟩ := h4 (code h)
    rw [h0 (.inr (.inl (code h))), h1, h2, h3, h4]
  case h_6 h => rw [h0 (.inr (.inr (.inl (code h))))]
  case h_9 h => rw [h0 (.inr (.inr (.inr (code h))))]
  all_goals rfl

/-- The codes of R93 are read as the reserved operations. -/
theorem decodeCommand_reserved {p : BitVec 164} (h : (cmdOp p).toNat = 0 ∨ 10 ≤ (cmdOp p).toNat) :
    decodeCommand p ∈
      [Instr.reserved0, .reservedA, .reservedB, .reservedC, .reservedD, .reservedE, .reservedF] := by
  unfold decodeCommand
  split
  case h_1 | h_2 | h_3 | h_4 | h_5 | h_6 | h_7 | h_8 | h_9 => omega
  all_goals simp

/-- Settles O59: the fields that both commands read agree. -/
theorem unusedArgumentFieldsAreIgnored : Obligations.UnusedArgumentFieldsAreIgnored := by
  intro p q hop
  constructor
  · intro n1 n4 n6 n9
    refine decodeCommand_congr hop ?_ fun h => absurd h n4
    rintro (h | h | h | h) <;> contradiction
  · exact fun n4 ha => decodeCommand_congr hop (fun _ => ha) fun h => absurd h n4

/-! ### Decoding what the encoder makes -/

/-- A command is read back in every mode: the port holds its code and the operands in their fields (R82, R84, R93). -/
theorem decode_encode_of_cmd {i : Instr} (h : i.row.format = .cmd) (m : Mode) : decode m (encode i) = .ok i := by
  cases i with
  | initQuad _ | initAbs | initRes | initSincos _ _ _ _ _ | deinit | setCounts _ | readAngle | isConfigured | rdDiag _
  | reserved0 | reservedA | reservedB | reservedC | reservedD | reservedE | reservedF =>
    simp [encode, commandOf, decode, decodeCommand]
  | _ => cases h

/-- An event is read back in every mode (R85). -/
theorem decode_encode_of_event {i : Instr} (h : i.row.format = .event) (m : Mode) : decode m (encode i) = .ok i := by
  cases i with
  | tick | index | sincosSample _ _ => rfl
  | _ => cases h

/-- A frame is read back in the mode whose sensor it belongs to (R87 to R91, R96). -/
theorem decode_encode_of_frame {i : Instr} (h : i.row.format = .frame) {m : Mode} (hm : i.readIn m = true) :
    decode m (encode i) = .ok i := by
  cases i with
  | absCmd | absReply _ | resCmd | resReply _ =>
    obtain rfl := eq_of_beq hm
    rfl
  | _ => cases h

/-- The functions of R80 that have no encoding are those of the internal rows. -/
theorem Instr.isInternal_iff (i : Instr) : i.isInternal = true ↔ i.row.format = .internal := by
  cases i <;> simp [Instr.isInternal, Instr.row]

theorem encode_of_isInternal {i : Instr} (h : i.isInternal = true) : encode i = .internal := by
  cases i with
  | xfer _ _ | maj5 _ _ _ _ _ | parity16 _ | lpf _ _ _ | atan2deg _ _ | wrap _ => rfl
  | _ => cases h

/-- Settles O58, by the format of the operation's row. -/
theorem decodeOfEncodeIsIdentity : Obligations.DecodeOfEncodeIsIdentity := by
  intro m i
  constructor
  · intro hint hm
    cases hf : i.row.format with
    | cmd => exact decode_encode_of_cmd hf m
    | event => exact decode_encode_of_event hf m
    | frame => exact decode_encode_of_frame hf hm
    | internal => simp [(Instr.isInternal_iff i).mpr hf] at hint
  · intro hint
    rw [encode_of_isInternal hint]
    exact ⟨rfl, rfl⟩

/-- Settles O60: the decoder is run on each of the seven port values. -/
theorem specPortValuesDecode : Obligations.SpecPortValuesDecode :=
  ⟨rfl, rfl, rfl, rfl, rfl, rfl, rfl⟩

end Sys2Proof.Machine
end

section
/-! PROOF. The four frame formats run on their own, and the reserved codes (`30_encoding.md` R87 to R91, R93; log 16). -/

namespace Sys2Proof.Machine

/-- An accepted operation that writes only registers and outputs ends with the pins as they were and the pulses of the operation
before over (R48). -/
theorem State.accept_finish_leaving (s : State) (r : Regs) (o : Out) :
    ({ s.accept with regs := r, out := o } : State).finish =
      s.leaving r (s.ports.ended s.ports.pins s.ports.rspData) o := rfl

/-- The same where free values were used. -/
theorem State.accept_finish_leaving_free (s : State) (r : Regs) (o : Out) (k : Nat) :
    ({ s.accept with regs := r, out := o, free := k } : State).finish =
      { s.leaving r (s.ports.ended s.ports.pins s.ports.rspData) o with free := k } := rfl

/-- An operation that is accepted and ends at once. -/
theorem leaves_of_noEffect {i : Instr} {s : State} (he : exec i s = .next s.accept.finish) :
    ∃ d, exec i s = .next (s.leaving s.regs (s.ports.ended s.ports.pins d) Out.empty) :=
  ⟨s.ports.rspData, he.trans (congrArg _ (s.accept_finish_leaving s.regs Out.empty))⟩

/-! ### The words sent (R87, R91, R133, R150) -/

/-- A one-word transfer of a settled block, run on its own and handing its word over. -/
theorem State.xferWord_leaving {s : State} (hs : s.settled) (c : Cfg) (out : Option (List U16)) :
    ((s.accept.xferWord c out).2.giveResult [zext16 (s.accept.xferWord c out).1]).finish =
      (s.afterMiso 80).leaving s.regs (s.ports.ended s.ports.pins s.ports.rspData)
        ⟨xferActs c (wordsSent out 1) s.misoAt, none, [zext16 (s.incomingWord 0)]⟩ := by
  obtain ⟨-, hpins⟩ := hs
  have hfold := foldl_xferActs c (wordsSent out 1) s.misoAt s.regs.mode
  rw [← hpins] at hfold
  have hmiso : s.accept.misoAt = s.misoAt := funext s.misoAt_accept
  rw [State.xferWord_eq, State.acts_eq, hmiso]
  simp only [State.afterMiso_ports, State.accept_ports, hfold]
  rfl

/-- Settles O29: both words sent are the all-ones word, so the two rows share the transfer of one word. -/
theorem sentFramesMakeOneTransfer : Obligations.SentFramesMakeOneTransfer := by
  intro s hs
  constructor
  · split
    · next hm =>
      exact ⟨s.ports.rspData, (if_pos hm).trans (congrArg _ (State.xferWord_leaving hs cfg (some [absCmdWord])))⟩
    · next hm => exact leaves_of_noEffect (if_neg hm)
  · split
    · next hm => exact ⟨s.ports.rspData, (if_pos hm).trans (congrArg _ (State.xferWord_leaving hs cfg none))⟩
    · next hm => exact leaves_of_noEffect (if_neg hm)

/-! ### The words received (R88, R89, R133 to R136, R152 to R154) -/

theorem absAccepted_iff (w : U16) : absAccepted w = true ↔ parity16 w = false ∧ w ≠ 0xFFFF#16 := by
  simp [absAccepted, isSentinel, absSentinel]

theorem resHealthy_iff (c : Cfg) (w : U16) : resHealthy c w = true ↔
    w.getLsbD c.resRdvelBit = c.resRdvelOk ∧ w.getLsbD c.resDosBit = c.resDosOk ∧ w.getLsbD c.resLotBit = c.resLotOk := by
  simp [resHealthy, and_assoc]

/-- A received word is decoded in the mode whose `TICK` receives it (log 16). -/
theorem exec_absReply {s : State} (w : U16) (hm : s.regs.mode = .absoluteSpi) :
    exec (.absReply w) s = .next (s.accept.receiveAbs cfg w).finish := if_pos hm

theorem exec_resReply {s : State} (w : U16) (hm : s.regs.mode = .resolverSpi) :
    exec (.resReply w) s = .next (s.accept.receiveRes cfg w).finish := if_pos hm

/-- The fault of a rejected absolute-encoder frame: the sentinel goes before the parity (R132, R136). -/
theorem State.receiveAbs_rejected_eq (c : Cfg) {w : U16} (s : State) (h : absAccepted w = false) :
    ∃ n k, s.receiveAbs c w = { s with
        regs := { s.regs with spiVal := w, spiErrCnt := n, spiErrRate := rateUp c s.regs.spiErrRate }
        out := { s.out with outcome := some (if w = 0xFFFF#16 then .disconnected else .parityError) }
        free := k } ∧
      countsOneMore s.regs.spiErrCnt n ∧ (s.regs.spiErrCnt ≠ 0xFFFFFFFF#32 → k = s.free) := by
  rw [State.receiveAbs_rejected c w s h]
  by_cases hw : w = 0xFFFF#16
  · have hs : isSentinel w = true := by rw [hw]; rfl
    rw [hs, if_pos hw]
    exact State.raiseFault_abs c .disconnect (.inr rfl) (s.withRegs { s.regs with spiVal := w })
  · have hs : isSentinel w = false := beq_eq_false_iff_ne.mpr hw
    rw [hs, if_neg hw]
    exact State.raiseFault_abs c .parity (.inl rfl) (s.withRegs { s.regs with spiVal := w })

/-- Settles O30: the mode decides whether the word is decoded, parity and sentinel whether it is accepted. -/
theorem absoluteReplyIsAcceptedOrRejected : Obligations.AbsoluteReplyIsAcceptedOrRejected := by
  intro s w angle
  split
  · next hm => exact leaves_of_noEffect (if_neg hm)
  next hm =>
  rw [not_not] at hm
  rw [exec_absReply w hm]
  split
  · next ha =>
    refine ⟨s.ports.rspData, ?_⟩
    rw [State.receiveAbs_accepted cfg w s.accept ((absAccepted_iff w).mpr ha), State.accept_finish_leaving]
    rfl
  · next ha =>
    have hr : absAccepted w = false := by rwa [← absAccepted_iff, Bool.not_eq_true] at ha
    obtain ⟨n, j, e, hn, hj⟩ := State.receiveAbs_rejected_eq cfg s.accept hr
    refine ⟨n, j, s.ports.rspData, hn, hj, ?_⟩
    rw [e, State.accept_finish_leaving_free]
    rfl

/-- Settles O31: the mode decides whether the word is decoded, its status bits whether it is accepted. -/
theorem resolverReplyIsAcceptedWhenHealthy : Obligations.ResolverReplyIsAcceptedWhenHealthy := by
  intro s w angle
  split
  · next hm => exact leaves_of_noEffect (if_neg hm)
  next hm =>
  rw [not_not] at hm
  rw [exec_resReply w hm]
  split
  · next hh =>
    refine ⟨s.ports.rspData, ?_⟩
    rw [State.receiveRes_healthy cfg w s.accept ((resHealthy_iff cfg w).mpr hh), State.accept_finish_leaving]
    rfl
  · next hh =>
    have hu : resHealthy cfg w = false := by rwa [← resHealthy_iff, Bool.not_eq_true] at hh
    refine ⟨s.ports.rspData, ?_⟩
    rw [State.receiveRes_unhealthy cfg w s.accept hu, State.accept_finish_leaving]
    rfl

/-! ### The reserved codes (R93) -/

theorem exec_reserved {i : Instr}
    (h : i ∈ [Instr.reserved0, .reservedA, .reservedB, .reservedC, .reservedD, .reservedE, .reservedF]) (s : State) :
    exec i s = .next s.accept.finish := by
  simp only [List.mem_cons, List.not_mem_nil, or_false] at h
  rcases h with rfl | rfl | rfl | rfl | rfl | rfl | rfl <;> rfl

/-- Settles O10: the codes are read as the reserved operations, and these are accepted and end at once. -/
theorem reservedCodesHaveNoEffect : Obligations.ReservedCodesHaveNoEffect :=
  ⟨fun _ _ h => ⟨_, decodeCommand_reserved h, rfl⟩, fun s _ h => leaves_of_noEffect (exec_reserved h s)⟩

end Sys2Proof.Machine
end

section
/-! PROOF. The serial transfer and the vote, run on their own (`40_transport.md` R110, R112, R113). -/

namespace Sys2Proof.Machine

/-! ### The vote (R113) -/

theorem sum_map_toNat_eq_count_true (l : List Bool) : (l.map Bool.toNat).sum = l.count true := by
  induction l with
  | nil => rfl
  | cons b l ih => cases b <;> simp [ih, Nat.add_comm]

theorem maj5_eq_count (s0 s1 s2 s3 s4 : Bool) :
    maj5 s0 s1 s2 s3 s4 = decide (2 < [s0, s1, s2, s3, s4].count true) := by
  rw [← sum_map_toNat_eq_count_true]
  simp [maj5, Nat.add_assoc]

/-- The five draws of a bit, in the order of the transfer. -/
def drawsAt (x : Nat → Bool) (k : Nat) : List Bool := (List.range 5).map fun j => x (k + j)

@[simp] theorem length_drawsAt (x : Nat → Bool) (k : Nat) : (drawsAt x k).length = 5 := by simp [drawsAt]

theorem voteAt_eq_count (x : Nat → Bool) (k : Nat) : voteAt x k = decide (2 < (drawsAt x k).count true) :=
  maj5_eq_count ..

theorem count_drawsAt (x : Nat → Bool) (k : Nat) (b : Bool) :
    (drawsAt x k).count b = ((List.range 5).filter fun j => x (k + j) == b).length := by
  rw [drawsAt, List.count, List.countP_map, List.countP_eq_length_filter]
  rfl

/-- Three draws of five decide the vote, whatever the other two are: fewer than three are left for the other level. -/
theorem voteAt_eq_of_three_agree {x : Nat → Bool} {k : Nat} {b : Bool} (h : 3 ≤ (drawsAt x k).count b) :
    voteAt x k = b := by
  have hsum := List.count_true_add_count_false (drawsAt x k)
  rw [length_drawsAt] at hsum
  rw [voteAt_eq_count]
  cases b with
  | true => exact decide_eq_true h
  | false => exact decide_eq_false (by omega)

/-- Settles O35: the sum of the five samples as numbers is the count of the high ones. -/
theorem maj5CountsHighSamples : Obligations.Maj5CountsHighSamples := by
  intro s s0 s1 s2 s3 s4
  refine ⟨s.ports.rspData, ?_⟩
  have hz : zext1 (maj5 s0 s1 s2 s3 s4) = if 2 < [s0, s1, s2, s3, s4].count true then 1 else 0 := by
    simp [maj5_eq_count, zext1]
  rw [← hz]
  rfl

/-! ### The transfer (R110, R112) -/

/-- A transfer run on its own, in every state: `80 * n` samples are used, the pins take the writes of the trace of R110 in order, and
the words voted are the result. -/
theorem exec_xfer (s : State) (out : Option (List U16)) (n : Nat) :
    exec (.xfer out n) s = .next ((s.afterMiso (80 * n)).leaving s.regs
      (s.ports.ended ((xferActs cfg (wordsSent out n) s.misoAt).foldl Pins.act s.ports.pins) s.ports.rspData)
      ⟨xferActs cfg (wordsSent out n) s.misoAt, none, ((List.range n).map s.incomingWord).map zext16⟩) := by
  have hmiso : s.accept.misoAt = s.misoAt := funext s.misoAt_accept
  show execXfer out n s = _
  rw [execXfer, State.xfer_eq, State.acts_eq, hmiso]
  rfl

/-- The pins of a settled block are those of its mode, and a transfer leaves them as they were (R116, R211). -/
theorem State.settled.foldl_xferActs {s : State} (hs : s.settled) (c : Cfg) (ws : List U16) (x : Nat → Bool) :
    (xferActs c ws x).foldl Pins.act s.ports.pins = s.ports.pins := by
  obtain ⟨-, hpins⟩ := hs
  rw [hpins, Machine.foldl_xferActs]

/-- A payload of the length of the count goes out whole; without one, all words are the idle line (R91, R110). -/
theorem wordsSent_of_wellFormed {out : Option (List U16)} {n k : Nat} (h : (Instr.xfer out n).wellFormed k = true) :
    wordsSent out n = out.getD (List.replicate n 0xFFFF#16) := by
  cases out with
  | none => rfl
  | some ws =>
    simp only [Instr.wellFormed, Bool.and_eq_true, beq_iff_eq] at h
    obtain ⟨-, hlen⟩ := h
    simp [wordsSent, ← hlen]

/-- Settles O33: the general run of a transfer, with the pins of a settled block and the words of a payload as long as the count. -/
theorem xferReturnsVotedWords : Obligations.XferReturnsVotedWords := by
  intro s out n hs hwf
  refine ⟨s.ports.rspData, ?_⟩
  rw [exec_xfer, hs.foldl_xferActs, wordsSent_of_wellFormed hwf, List.map_map]
  rfl

/-- Each bit of a word received is the vote on its own five draws (R112). -/
theorem getLsbD_incomingWord (s : State) (i : Nat) {b : Nat} (hb : b < 16) :
    (s.incomingWord i).getLsbD b = voteAt s.misoAt (80 * i + 5 * (15 - b)) := by
  rw [← votedWord_eq_incomingWord, getLsbD_votedWord]
  simp [hb, voteAt, Nat.add_assoc]

/-- Settles O34: a bit is the vote on its draws, and three of them that agree decide it. -/
theorem xferVotesEachBitOnItsFiveDraws : Obligations.XferVotesEachBitOnItsFiveDraws := by
  intro s out n i hi
  refine ⟨_, s.incomingWord i, exec_xfer s out n, ?_, ?_, ?_⟩
  · simp [State.leaving, hi, zext16]
  · intro b hb
    rw [getLsbD_incomingWord s i hb, voteAt_eq_count, count_drawsAt]
    simp
  · intro w hagree
    refine BitVec.eq_of_getLsbD_eq fun b hb => ?_
    rw [getLsbD_incomingWord s i hb]
    exact voteAt_eq_of_three_agree ((count_drawsAt ..).symm ▸ hagree b hb)

end Sys2Proof.Machine
end

section
/-! PROOF. The absolute encoder (`41_abs_as5047p.md` R130, R133 to R136; R251): a `TICK` in its mode, the parity of a word. -/

namespace Sys2Proof.Machine

/-! ### `TICK` in `AbsoluteSpi` mode (R133 to R136) -/

/-- A one-word transfer of an accepted operation of a settled block: 80 samples are used, the trace is there, and the pins, the
hidden state and all else are as at acceptance (R116). -/
theorem State.xferWord_accept {s : State} (hs : s.settled) (c : Cfg) (out : Option (List U16)) :
    s.accept.xferWord c out = (s.incomingWord 0,
      { (s.afterMiso 80).accept with out := ⟨xferActs c (wordsSent out 1) s.misoAt, none, []⟩ }) := by
  have hmiso : s.accept.misoAt = s.misoAt := funext s.misoAt_accept
  rw [State.xferWord_eq, State.acts_eq, hmiso]
  simp only [State.afterMiso_ports, State.accept_ports, hs.foldl_xferActs]
  rfl

/-- The word received from the absolute encoder is decoded in the state that the transfer of one all-ones word leaves (R133). -/
theorem exec_tick_abs {s : State} (hm : s.regs.mode = .absoluteSpi) (hs : s.settled) :
    exec .tick s = .next (({ (s.afterMiso 80).accept with
      out := ⟨xferActs cfg [0xFFFF#16] s.misoAt, none, []⟩ } : State).receiveAbs cfg (s.incomingWord 0)).finish := by
  show Host.Outcome.next (s.accept.tick cfg).finish = _
  rw [s.accept.tick_abs cfg hm, State.xferWord_accept hs]
  rfl

/-- Settles O20: a word of even parity that is not the sentinel is an accepted one. -/
theorem tickAcceptsGoodAbsoluteFrame : Obligations.TickAcceptsGoodAbsoluteFrame := by
  intro s hm hs w angle hpar hsent
  refine ⟨s.ports.rspData, ?_⟩
  rw [exec_tick_abs hm hs, State.receiveAbs_accepted cfg _ _ ((absAccepted_iff w).mpr ⟨hpar, hsent⟩)]
  exact congrArg _ ((s.afterMiso 80).accept_finish_leaving _ _)

/-- Settles O21: a word of odd parity, and the sentinel, is a rejected one. -/
theorem tickRejectsBadAbsoluteFrame : Obligations.TickRejectsBadAbsoluteFrame := by
  intro s hm hs w hbad
  have hr : absAccepted w = false := by
    rw [Bool.eq_false_iff, ne_eq, absAccepted_iff]
    rintro ⟨hpar, hsent⟩
    rcases hbad with hodd | heq
    · exact absurd (hpar.symm.trans hodd) Bool.false_ne_true
    · exact hsent heq
  obtain ⟨n, k, e, hn, hk⟩ := State.receiveAbs_rejected_eq cfg
    { (s.afterMiso 80).accept with out := ⟨xferActs cfg [0xFFFF#16] s.misoAt, none, []⟩ } hr
  refine ⟨n, k, s.ports.rspData, hn, hk, ?_⟩
  rw [exec_tick_abs hm hs, e]
  exact congrArg _ ((s.afterMiso 80).accept_finish_leaving_free _ _ k)

/-! ### The parity of a word (R130) -/

/-- The exclusive or of the levels `f b` over the places `b` of a list. -/
def xorOver (f : Nat → Bool) (l : List Nat) : Bool := l.foldr (fun b x => f b ^^ x) false

theorem xorOver_cons (f : Nat → Bool) (b : Nat) (l : List Nat) : xorOver f (b :: l) = (f b ^^ xorOver f l) := rfl

/-- The order of the places does not matter. -/
theorem xorOver_perm (f : Nat → Bool) {l l' : List Nat} (h : l.Perm l') : xorOver f l = xorOver f l' :=
  have : LeftCommutative fun b x => f b ^^ x := ⟨fun b b' x => Bool.xor_left_comm (f b) (f b') x⟩
  h.foldr_eq false

/-- The four folds of `PARITY16` bring each of the sixteen bits to bit 0 once, in the order of the list below. -/
theorem parity16_eq_xorOver (w : U16) : parity16 w = xorOver w.getLsbD (List.range 16) := by
  have hperm : [0, 8, 4, 12, 2, 10, 6, 14, 1, 9, 5, 13, 3, 11, 7, 15].Perm (List.range 16) := by decide
  rw [← xorOver_perm _ hperm]
  simp only [parity16, BitVec.getLsbD_xor, BitVec.getLsbD_ushiftRight, xorOver, List.foldr_cons, List.foldr_nil,
    Bool.xor_false, Bool.xor_assoc, Nat.reduceAdd]

/-- The exclusive or is the number of ones modulo 2. -/
theorem xorOver_eq_length_filter (f : Nat → Bool) (l : List Nat) : xorOver f l = decide ((l.filter f).length % 2 = 1) := by
  induction l with
  | nil => rfl
  | cons b l ih =>
    rw [xorOver_cons, ih]
    cases hb : f b with
    | false => simp [hb]
    | true =>
      have hodd (m : Nat) : decide ((m + 1) % 2 = 1) = !decide (m % 2 = 1) := by
        rw [← decide_not, decide_eq_decide]
        omega
      simp [hb, hodd]

theorem xorOver_xor (f g : Nat → Bool) (l : List Nat) :
    xorOver (fun b => f b ^^ g b) l = (xorOver f l ^^ xorOver g l) := by
  induction l with
  | nil => rfl
  | cons b l ih =>
    simp only [xorOver_cons, ih, Bool.xor_assoc, Bool.xor_left_comm]

/-- The parity of an exclusive or is the exclusive or of the parities. -/
theorem parity16_xor (v w : U16) : parity16 (v ^^^ w) = (parity16 v ^^ parity16 w) := by
  have hbits : (v ^^^ w).getLsbD = fun b => v.getLsbD b ^^ w.getLsbD b := funext fun b => BitVec.getLsbD_xor
  rw [parity16_eq_xorOver, parity16_eq_xorOver, parity16_eq_xorOver, hbits, xorOver_xor]

theorem parity16_one_shiftLeft : ∀ k < 16, parity16 (1#16 <<< k) = true := by decide

theorem zext1_decide_odd (m : Nat) : zext1 (decide (m % 2 = 1)) = BitVec.ofNat 32 (m % 2) := by
  rcases Nat.mod_two_eq_zero_or_one m with h | h <;> rw [h] <;> rfl

/-- Settles O36: the value is the number of ones modulo 2; a flipped bit adds a word of one bit, whose parity is 1. -/
theorem parity16IsNumberOfOnesModTwo : Obligations.Parity16IsNumberOfOnesModTwo := by
  constructor
  · intro s w
    refine ⟨s.ports.rspData, ?_⟩
    rw [← zext1_decide_odd, ← xorOver_eq_length_filter, ← parity16_eq_xorOver]
    rfl
  · intro w k hk
    rw [parity16_xor, parity16_one_shiftLeft k hk, Bool.xor_true]

end Sys2Proof.Machine
end

section
/-! PROOF. The angle of a serial frame has no rounding error (`41_abs_as5047p.md` R135, `42_resolver_ad2s1205.md` R153). -/

namespace Sys2Proof.Machine

/-- A pattern written as a significand and a number of dropped places is a finite number of that magnitude. -/
theorem exact_of_pattern {a : F32} {k r : Nat} (hr : r < 2 ^ 24) (hk : k ≤ 253) (hfull : 0 < k → 2 ^ 23 ≤ r)
    (h : a.toNat = roundMag (r * 2 ^ k) 1) : a.toNat < infBits ∧ fMag a = r * 2 ^ k := by
  have hlt : k * 2 ^ 23 + r < infBits := by unfold infBits; omega
  rw [roundMag_pattern k r hr hfull hlt.le] at h
  have ha : a.toNat < infBits := h.trans_lt hlt
  obtain ⟨-, -, hbits⟩ := finite_of_toNat_lt ha
  exact ⟨ha, fMag_of_pattern a k r hr.le hfull (hbits.trans h)⟩

/-- A number of units of at most 24 significant bits in the range of binary32 is rounded to itself: its significand is shifted up
until it is full or no place is left. -/
theorem exact_of_significand {a : F32} {k r : Nat} (hr : r < 2 ^ 24) (hk : k ≤ 253)
    (h : a.toNat = roundMag (r * 2 ^ k) 1) : a.toNat < infBits ∧ fMag a = r * 2 ^ k := by
  induction k generalizing r with
  | zero => exact exact_of_pattern hr hk (by omega) h
  | succ k ih =>
    rcases Nat.lt_or_ge r (2 ^ 23) with hlow | hfull
    · have hshift : r * 2 ^ (k + 1) = 2 * r * 2 ^ k := by rw [Nat.pow_succ]; ring
      rw [hshift] at h ⊢
      exact ih (by omega) (by omega) h
    · exact exact_of_pattern hr hk (fun _ => hfull) h

/-- The same for a ratio that is such a number of units. -/
theorem exact_of_ratio {a : F32} {k r p q : Nat} (hr : r < 2 ^ 24) (hk : k ≤ 253) (hq : 0 < q) (hp : p = r * 2 ^ k * q)
    (h : a.toNat = roundMag p q) : a.toNat < infBits ∧ fMag a = r * 2 ^ k := by
  rw [hp, roundMag_mul_right _ _ hq] at h
  exact exact_of_significand hr hk h

theorem fMag_f360 : fMag f360 = 360 * 2 ^ 149 := by decide +kernel

/-- None of the three roundings of a payload's angle is off: the payload times 360 keeps at most 24 significant bits, and the
divisor is a power of two. -/
theorem fMag_payloadAngle {n : U32} {d : F32} {j : Nat} (hn : n.toNat * 360 < 2 ^ 24) (hd : d.toNat < infBits)
    (hz : isZero d = false) (hj : j ≤ 149) (hm : fMag d = 2 ^ j * 2 ^ 149) :
    fMag (fdiv (fmul (u2f n) f360) d) * 2 ^ j = n.toNat * fMag f360 := by
  obtain ⟨hun, hu⟩ := exact_of_significand (k := 149) (show n.toNat < 2 ^ 24 by omega) (by omega) (toNat_u2f n)
  have hprod : fMag (u2f n) * fMag f360 = n.toNat * 360 * 2 ^ 149 * 2 ^ 149 := by
    rw [hu, fMag_f360]; ring
  obtain ⟨hmn, hp⟩ := exact_of_ratio hn (by omega) (Nat.two_pow_pos 149) hprod (toNat_fmul hun (by decide))
  have hj149 : 2 ^ (149 - j) * 2 ^ j = 2 ^ 149 := by rw [← Nat.pow_add, Nat.sub_add_cancel hj]
  have hquot : fMag (fmul (u2f n) f360) * 2 ^ 149 = n.toNat * 360 * 2 ^ (149 - j) * fMag d := by
    rw [hp, hm, ← Nat.mul_assoc, Nat.mul_assoc _ _ (2 ^ j), hj149]
  have hdpos : 0 < fMag d := hm ▸ Nat.mul_pos (Nat.two_pow_pos j) (Nat.two_pow_pos 149)
  obtain ⟨-, hq⟩ := exact_of_ratio hn (by omega) hdpos hquot (toNat_fdiv hmn hd hz)
  rw [hq, fMag_f360, Nat.mul_assoc _ _ (2 ^ j), hj149, Nat.mul_assoc]

theorem toNat_absPayload (w : U16) : (absPayload w).toNat = w.toNat % 16384 := by
  have hmask : w.toNat &&& 16383 = w.toNat % 2 ^ 14 := Nat.and_two_pow_sub_one_eq_mod w.toNat 14
  have hle : w.toNat &&& 16383 < 2 ^ 32 := Nat.and_le_right.trans_lt (by decide)
  rw [absPayload, BitVec.toNat_setWidth, BitVec.toNat_and]
  exact (Nat.mod_eq_of_lt hle).trans hmask

theorem toNat_resPayload (w : U16) : (resPayload w).toNat = w.toNat / 16 := by
  have hle : w.toNat / 16 < 2 ^ 32 := by omega
  rw [resPayload, BitVec.toNat_setWidth, BitVec.toNat_ushiftRight, Nat.shiftRight_eq_div_pow]
  exact Nat.mod_eq_of_lt hle

/-- Neither the angle nor 360 has a sign, so their values are their magnitudes. -/
theorem fVal_payloadAngle {n : U32} {d : F32} {j : Nat}
    (h : fMag (fdiv (fmul (u2f n) f360) d) * 2 ^ j = n.toNat * fMag f360)
    (hlt : (fdiv (fmul (u2f n) f360) d).toNat < f360.toNat) :
    fVal (fdiv (fmul (u2f n) f360) d) * (2 ^ j : Nat) = n.toNat * fVal f360 := by
  rw [fVal_of_fSign_false (fSign_of_lt (hlt.trans (by decide))), fVal_of_fSign_false (show fSign f360 = false by decide)]
  exact_mod_cast h

/-- The angle of an absolute-encoder frame is `payload * 360 / 16384`, exactly (R135). -/
theorem fVal_absAngle (w : U16) : fVal (absAngle w) * 16384 = (w.toNat % 16384 : Nat) * fVal f360 := by
  have hn : (absPayload w).toNat * 360 < 2 ^ 24 := by rw [toNat_absPayload]; omega
  have hmag := fMag_payloadAngle (d := f16384) (j := 14) hn (by decide) (by decide) (by decide) (by decide +kernel)
  rw [← toNat_absPayload]
  exact fVal_payloadAngle hmag (absAngle_lt w)

/-- The angle of a resolver frame is `payload * 360 / 4096`, exactly (R153). -/
theorem fVal_resAngle (w : U16) : fVal (resAngle w) * 4096 = (w.toNat / 16 : Nat) * fVal f360 := by
  have hn : (resPayload w).toNat * 360 < 2 ^ 24 := by rw [toNat_resPayload]; omega
  have hmag := fMag_payloadAngle (d := f4096) (j := 12) hn (by decide) (by decide) (by decide) (by decide +kernel)
  rw [← toNat_resPayload]
  exact fVal_payloadAngle hmag (resAngle_lt w)

/-- Settles O32: both angles are exact, and both lie below 360. -/
theorem serialAnglesAreExact : Obligations.SerialAnglesAreExact := fun w =>
  ⟨fVal_absAngle w, fVal_resAngle w, absAngle_lt w, resAngle_lt w⟩

end Sys2Proof.Machine
end

section
/-! PROOF. The resolver (`42_resolver_ad2s1205.md` R150 to R154): a `TICK` in its mode. -/

namespace Sys2Proof.Machine

/-- The control-line sequence of an accepted operation of a settled block: its trace is there, and the pins are back in the row of
`MODE` (R151, R211). -/
theorem State.controlLines_accept {s : State} (hs : s.settled) (c : Cfg) :
    s.accept.controlLines c = { s.accept with out := ⟨controlActs c, none, []⟩ } := by
  obtain ⟨-, hpins⟩ := hs
  have hfold : (controlActs c).foldl Pins.act s.ports.pins = s.ports.pins := by rw [hpins, foldl_controlActs]
  rw [State.controlLines_eq c s.accept rfl, State.acts_eq]
  simp only [State.accept_ports, hfold]
  rfl

/-- A one-word transfer of an accepted operation that has left a trace: the transfer's trace joins it, and all else is as in a
transfer that begins the operation (R110, R150). -/
theorem State.xferWord_accept_after {s : State} (hs : s.settled) (c : Cfg) (out : Option (List U16)) (tr : List PinAct) :
    ({ s.accept with out := ⟨tr, none, []⟩ } : State).xferWord c out = (s.incomingWord 0,
      { (s.afterMiso 80).accept with out := ⟨tr ++ xferActs c (wordsSent out 1) s.misoAt, none, []⟩ }) := by
  have hmiso : ({ s.accept with out := ⟨tr, none, []⟩ } : State).misoAt = s.misoAt :=
    funext (State.misoAt_congr _ _ rfl rfl)
  rw [State.xferWord_eq, State.acts_eq, hmiso]
  simp only [State.afterMiso_ports, State.accept_ports, hs.foldl_xferActs]
  rfl

/-- The word received from the resolver is decoded in the state that the control-line sequence and the transfer of one idle word
leave (R150). -/
theorem exec_tick_res {s : State} (hm : s.regs.mode = .resolverSpi) (hs : s.settled) :
    exec .tick s = .next (({ (s.afterMiso 80).accept with
      out := ⟨controlActs cfg ++ xferActs cfg [0xFFFF#16] s.misoAt, none, []⟩ } : State).receiveRes cfg
        (s.incomingWord 0)).finish := by
  show Host.Outcome.next (s.accept.tick cfg).finish = _
  rw [s.accept.tick_res cfg hm, State.controlLines_accept hs, State.xferWord_accept_after hs]
  rfl

/-- Settles O22: the status bits of the word received decide whether the frame is accepted. -/
theorem tickDecodesResolverFrame : Obligations.TickDecodesResolverFrame := by
  intro s hm hs w angle healthy trace
  constructor
  · intro hh
    refine ⟨s.ports.rspData, ?_⟩
    rw [exec_tick_res hm hs, State.receiveRes_healthy cfg _ _ ((resHealthy_iff cfg w).mpr hh)]
    exact congrArg _ ((s.afterMiso 80).accept_finish_leaving _ _)
  · intro hh
    have hu : resHealthy cfg w = false := Bool.eq_false_iff.mpr (mt (resHealthy_iff cfg w).mp hh)
    refine ⟨s.ports.rspData, ?_⟩
    rw [exec_tick_res hm hs, State.receiveRes_unhealthy cfg _ _ hu]
    exact congrArg _ ((s.afterMiso 80).accept_finish_leaving _ _)

end Sys2Proof.Machine
end

section
/-! PROOF. The arithmetic of a sin/cos sample: finite signals give a squared magnitude that is no NaN, and one unfiltered step
from 0 is its target (`43_sincos.md` R167, R170; `50_diagnostics.md` R230). -/

namespace Sys2Proof.Machine

/-! ### No NaN (R12, R167) -/

/-- A pattern up to the infinity's is no NaN. -/
theorem isNaN_pack (neg : Bool) {m : Nat} (h : m ≤ infBits) : isNaN (pack neg m) = false := by
  have hbits : fMagBits (pack neg m) = m := fMagBits_pack neg (h.trans_lt (by decide))
  have hexp : m / 2 ^ 23 = 255 → m % 2 ^ 23 = 0 := by unfold infBits at h; omega
  simpa [isNaN, fExp, fFrac, hbits] using hexp

theorem isZero_of_isInf {a : F32} (h : isInf a = true) : isZero a = false := by
  simp only [isInf, fExp, Bool.and_eq_true, beq_iff_eq] at h
  have : fMagBits a ≠ 0 := by omega
  simpa [isZero] using this

/-- A product that is no invalid operation is a magnitude up to the infinity's, under the sign of the factors. -/
theorem fmul_eq_pack {a b : F32} (ha : isNaN a = false) (hb : isNaN b = false) (hab : (isInf a && isZero b) = false)
    (hba : (isZero a && isInf b) = false) : ∃ m ≤ infBits, fmul a b = pack (fSign a != fSign b) m := by
  simp only [fmul, ha, hb, hab, hba, Bool.or_self, Bool.false_eq_true, if_false]
  split
  · exact ⟨infBits, le_rfl, rfl⟩
  · exact ⟨_, roundMag_le_infBits _ _, rfl⟩

theorem isNaN_fmul_of_isFinite {a b : F32} (ha : isFinite a = true) (hb : isFinite b = true) :
    isNaN (fmul a b) = false := by
  obtain ⟨m, hm, e⟩ := fmul_eq_pack (isNaN_of_isFinite ha) (isNaN_of_isFinite hb) (by simp [isInf_of_isFinite ha])
    (by simp [isInf_of_isFinite hb])
  rw [e, isNaN_pack _ hm]

/-- A square is no NaN and carries no sign: no number is an infinity and a zero at once. -/
theorem fmul_self_nonneg {a : F32} (ha : isNaN a = false) : isNaN (fmul a a) = false ∧ fSign (fmul a a) = false := by
  have hinf : (isInf a && isZero a) = false := by
    cases h : isInf a with
    | false => rfl
    | true => simp [isZero_of_isInf h]
  obtain ⟨m, hm, e⟩ := fmul_eq_pack ha ha hinf (by rwa [Bool.and_comm])
  rw [e, isNaN_pack _ hm, fSign_pack _ (hm.trans_lt (by decide))]
  simp

theorem isNaN_addNumbers {a b : F32} (ha : isNaN a = false) (hb : isNaN b = false) : isNaN (addNumbers a b) = false := by
  unfold addNumbers
  split
  · exact ha
  split
  · exact hb
  dsimp only
  split
  · exact isNaN_pack _ (Nat.zero_le _)
  · exact isNaN_pack _ (roundMag_le_infBits _ _)

/-- An infinity that has a finite number taken from it is still an infinity, and no NaN. -/
theorem isNaN_fsub_of_isFinite {a b : F32} (ha : isNaN a = false) (hb : isFinite b = true) : isNaN (fsub a b) = false := by
  have hneg : isFinite (fneg b) = true := by rwa [isFinite_fneg]
  have hopp : oppositeInf a (fneg b) = false := by simp [oppositeInf, isInf_of_isFinite hneg]
  have e : fsub a b = addNumbers a (fneg b) := by simp [fsub, ha, isNaN_of_isFinite hb, hopp]
  rw [e]
  exact isNaN_addNumbers ha (isNaN_of_isFinite hneg)

theorem fSign_addNumbers {a b : F32} (ha : fSign a = false) (hb : fSign b = false) : fSign (addNumbers a b) = false := by
  unfold addNumbers
  split
  · exact ha
  split
  · exact hb
  dsimp only
  split
  · rw [fSign_pack _ (by decide), ha, Bool.false_and]
  · rw [fSign_pack _ (roundMag_lt _ _), fVal_of_fSign_false ha, fVal_of_fSign_false hb]
    exact decide_eq_false (by omega)

/-- A sum without a sign in it is no NaN and carries none. -/
theorem fadd_nonneg {a b : F32} (ha : isNaN a = false ∧ fSign a = false) (hb : isNaN b = false ∧ fSign b = false) :
    isNaN (fadd a b) = false ∧ fSign (fadd a b) = false := by
  obtain ⟨hna, hsa⟩ := ha
  obtain ⟨hnb, hsb⟩ := hb
  have e : fadd a b = addNumbers a b := by simp [fadd, oppositeInf, hna, hnb, hsa, hsb]
  rw [e]
  exact ⟨isNaN_addNumbers hna hnb, fSign_addNumbers hsa hsb⟩

/-- A calibrated signal is no NaN; it may be an infinity (R167). -/
theorem isNaN_calibrated {raw gain offset : F32} (hr : isFinite raw = true) (hg : isFinite gain = true)
    (ho : isFinite offset = true) : isNaN (fsub (fmul raw gain) offset) = false :=
  isNaN_fsub_of_isFinite (isNaN_fmul_of_isFinite hr hg) ho

/-- Settles O26: the two signals are no NaN, so the magnitude is a sum of two squares without NaN or sign. -/
theorem squaredMagnitudeIsNoNaN : Obligations.SquaredMagnitudeIsNoNaN :=
  fun _ _ _ _ _ _ hrs hrc hsg hso hcg hco =>
    fadd_nonneg (fmul_self_nonneg (isNaN_calibrated hrs hsg hso)) (fmul_self_nonneg (isNaN_calibrated hrc hcg hco))

/-! ### The filter without memory (R170 f, R230) -/

theorem pack_fMagBits (a : F32) : pack (fSign a) (fMagBits a) = a := by
  apply BitVec.eq_of_toNat_eq
  have hlt : fMagBits a < 2 ^ 31 := Nat.mod_lt _ (by decide)
  rw [toNat_pack _ hlt, fSign_eq]
  unfold fMagBits
  by_cases h : 2 ^ 31 ≤ a.toNat
  · rw [decide_eq_true h, if_pos rfl]; omega
  · rw [decide_eq_false h, if_neg Bool.false_ne_true]; omega

/-- Rounding the value of a finite number other than 0 gives that number back. -/
theorem pack_roundMag_fVal {a : F32} (ha : isFinite a = true) (h : fVal a ≠ 0) :
    pack (fVal a < 0) (roundMag (fVal a).natAbs 1) = a := by
  have habs : (fVal a).natAbs = fMag a := by cases hs : fSign a <;> simp [fVal, hs]
  have hsign : decide (fVal a < 0) = fSign a := by
    cases hs : fSign a with
    | false => rw [fVal_of_fSign_false hs]; exact decide_eq_false (by omega)
    | true => rw [fVal_of_fSign_true hs] at h ⊢; exact decide_eq_true (by omega)
  rw [habs, hsign, roundMag_fMag a ha, pack_fMagBits]

theorem isFinite_fZero : isFinite fZero = true := by decide

theorem fVal_fZero : fVal fZero = 0 := by decide

/-- A finite number of value 0 is one of the two zeros. -/
theorem pack_zero_of_fVal {a : F32} (ha : isFinite a = true) (h : fVal a = 0) : pack (fSign a) 0 = a := by
  have hmag : fMag a = 0 := by cases hs : fSign a <;> simpa [fVal, hs] using h
  have hbits := roundMag_fMag a ha
  rw [hmag, roundMag_zero] at hbits
  rw [hbits, pack_fMagBits]

/-- The difference from `+0.0` is the number itself, `-0.0` included. -/
theorem fsub_fZero {a : F32} (ha : isFinite a = true) : fsub a fZero = a := by
  have hneg : isFinite (fneg fZero) = true := by decide
  have hsum : fVal a + fVal (fneg fZero) = fVal a := by rw [fVal_fneg, fVal_fZero, neg_zero, add_zero]
  rw [fsub_of_isFinite ha isFinite_fZero]
  by_cases h : fVal a = 0
  · rw [addNumbers_of_sum_zero ha hneg (hsum.trans h), show fSign (fneg fZero) = true by decide, Bool.and_true,
      pack_zero_of_fVal ha h]
  · rw [addNumbers_of_sum_ne_zero ha hneg (by rwa [hsum]), hsum, pack_roundMag_fVal ha h]

/-- A product with `1.0` is the other factor: no rounding. -/
theorem fmul_fOne {a : F32} (ha : isFinite a = true) : fmul a fOne = a := by
  have e : fmul a fOne = pack (fSign a != fSign fOne) (roundMag (fMag a * fMag fOne) (2 ^ 149)) := by
    simp [fmul, isNaN_of_isFinite ha, isInf_of_isFinite ha, isNaN_of_isFinite isFinite_fOne,
      isInf_of_isFinite isFinite_fOne]
  rw [e, fMag_fOne, roundMag_mul_right _ _ (Nat.two_pow_pos _), roundMag_fMag a ha, show fSign fOne = false by decide,
    Bool.bne_false, pack_fMagBits]

/-- A sum with `+0.0` keeps the value; `-0.0` becomes `+0.0`. -/
theorem fadd_fZero_left {a : F32} (ha : isFinite a = true) : isFinite (fadd fZero a) = true ∧ fVal (fadd fZero a) = fVal a := by
  have hsum : fVal fZero + fVal a = fVal a := by rw [fVal_fZero, zero_add]
  rw [fadd_of_isFinite isFinite_fZero ha]
  by_cases h : fVal a = 0
  · rw [addNumbers_of_sum_zero isFinite_fZero ha (hsum.trans h), fVal_pack_zero]
    exact ⟨isFinite_pack _ (by decide), h.symm⟩
  · rw [addNumbers_of_sum_ne_zero isFinite_fZero ha (by rwa [hsum]), hsum, pack_roundMag_fVal ha h]
    exact ⟨ha, rfl⟩

/-- From `+0.0` with a filter constant of 1 one step ends at the target. -/
theorem lpfStep_fZero_fOne {t : F32} (ht : isFinite t = true) :
    isFinite (lpfStep fZero t fOne) = true ∧ fVal (lpfStep fZero t fOne) = fVal t := by
  rw [lpfStep, fsub_fZero ht, fmul_fOne ht]
  exact fadd_fZero_left ht

end Sys2Proof.Machine
end

section
/-! PROOF. `SINCOS_SAMPLE` and `ATAN2DEG` (`43_sincos.md` R166 to R174; log 9, log 11, log 13). -/

namespace Sys2Proof.Machine

/-! ### The three branches of a sample (R166, R168 to R170) -/

/-- The sample's branch is chosen by the two comparisons of its squared magnitude, above first (R166, R171). -/
theorem State.sincosSample_eq (c : Cfg) (rs rc : F32) {s : State} (hm : s.regs.mode = .sinCosAnalog) :
    let sn := fsub (fmul rs s.regs.sinGain) s.regs.sinOffset
    let cs := fsub (fmul rc s.regs.cosGain) s.regs.cosOffset
    s.sincosSample c rs rc =
      if fgt (magnitudeSq sn cs) maxSq then s.raiseFault c .signalAboveMax
      else if flt (magnitudeSq sn cs) minSq then s.raiseFault c .signalBelowMin
      else s.acceptSincos c sn cs := by
  simp only [State.sincosSample, if_pos hm, band]
  generalize fsub (fmul rs s.regs.sinGain) s.regs.sinOffset = sn
  generalize fsub (fmul rc s.regs.cosGain) s.regs.cosOffset = cs
  cases fgt (magnitudeSq sn cs) maxSq <;> cases flt (magnitudeSq sn cs) minSq <;> rfl

/-- A counter after one more fault is one more, with nothing used up, unless it is at its top (R26, U1; log 11). -/
theorem State.countFault_cases (cnt : U32) (s : State) : ∃ n k, s.countFault cnt = (n, { s with free := k }) ∧
    countsOneMore cnt n ∧ (cnt ≠ 0xFFFFFFFF#32 → k = s.free) := by
  by_cases h : cnt = 0xFFFFFFFF#32
  · exact ⟨_, _, by rw [State.countFault_eq, if_pos h], fun h' => absurd h h', fun h' => absurd h h'⟩
  · exact ⟨_, s.free, by rw [State.countFault_eq, if_neg h], fun _ => rfl, fun _ => rfl⟩

/-- What the fail-safe hold of a signal above its band writes, value by value (R168, R231, R251). -/
theorem State.raiseFault_aboveMax (c : Cfg) (s : State) :
    ∃ n k, s.raiseFault c .signalAboveMax = { s with
        regs := { s.regs with scAboveCnt := n, scAboveRate := rateUp c s.regs.scAboveRate }
        out := { s.out with outcome := some .aboveMax }
        free := k } ∧
      countsOneMore s.regs.scAboveCnt n ∧ (s.regs.scAboveCnt ≠ 0xFFFFFFFF#32 → k = s.free) := by
  obtain ⟨n, k, e, h⟩ := (s.giveOutcome DecodeFault.signalAboveMax.outcome).countFault_cases s.regs.scAboveCnt
  exact ⟨n, k, by simp only [State.raiseFault, State.giveOutcome_regs, e]; rfl, h⟩

/-- What the fail-safe hold of a signal below its band writes, value by value (R169, R231, R251). -/
theorem State.raiseFault_belowMin (c : Cfg) (s : State) :
    ∃ n k, s.raiseFault c .signalBelowMin = { s with
        regs := { s.regs with scBelowCnt := n, scBelowRate := rateUp c s.regs.scBelowRate }
        out := { s.out with outcome := some .belowMin }
        free := k } ∧
      countsOneMore s.regs.scBelowCnt n ∧ (s.regs.scBelowCnt ≠ 0xFFFFFFFF#32 → k = s.free) := by
  obtain ⟨n, k, e, h⟩ := (s.giveOutcome DecodeFault.signalBelowMin.outcome).countFault_cases s.regs.scBelowCnt
  exact ⟨n, k, by simp only [State.raiseFault, State.giveOutcome_regs, e]; rfl, h⟩

/-! ### The operation (R166, R173, R174) -/

theorem exec_sincosSample (rs rc : F32) (s : State) :
    exec (.sincosSample rs rc) s = .next (s.accept.sincosSample cfg rs rc).finish := by rfl

/-- Settles O24: the sample is accepted and ends at once. -/
theorem sincosSampleInOtherModeDoesNothing : Obligations.SincosSampleInOtherModeDoesNothing := fun s rs rc hm =>
  leaves_of_noEffect (by rw [exec_sincosSample, s.accept.sincosSample_of_mode_ne cfg rs rc hm])

/-- Settles O25: each branch writes what its shared operation writes, and acceptance and end frame the rest. -/
theorem sincosSampleTakesOneOfThreeBranches : Obligations.SincosSampleTakesOneOfThreeBranches := by
  intro s rs rc hm _ _ _ _ _ _ sn cs m k f
  have he : exec (.sincosSample rs rc) s = .next (State.finish
      (if fgt m (fmul f165 f165) then s.accept.raiseFault cfg .signalAboveMax
        else if flt m (fmul fOne fOne) then s.accept.raiseFault cfg .signalBelowMin
        else s.accept.acceptSincos cfg sn cs)) := by
    rw [exec_sincosSample, State.sincosSample_eq cfg rs rc (s := s.accept) hm]
    rfl
  rw [he]
  split
  · obtain ⟨n, j, e, hn, hj⟩ := s.accept.raiseFault_aboveMax cfg
    refine ⟨n, j, s.ports.rspData, hn, hj, ?_⟩
    rw [e, State.accept_finish_leaving_free]
    rfl
  split
  · obtain ⟨n, j, e, hn, hj⟩ := s.accept.raiseFault_belowMin cfg
    refine ⟨n, j, s.ports.rspData, hn, hj, ?_⟩
    rw [e, State.accept_finish_leaving_free]
    rfl
  · refine ⟨s.ports.rspData, ?_⟩
    rw [State.acceptSincos_eq, State.accept_finish_leaving]
    rfl

/-- Settles O28: whichever branch the comparisons take, also with a NaN, it writes only the two trackers and the angle. -/
theorem sincosSampleAlwaysCompletes : Obligations.SincosSampleAlwaysCompletes := by
  intro s rs rc hm
  rw [exec_sincosSample]
  rcases s.accept.sincosSample_cases cfg rs rc hm with h | h | ⟨sn, cs, h⟩
  · obtain ⟨n, j, e, -, -⟩ := s.accept.raiseFault_aboveMax cfg
    rw [h, e, State.accept_finish_leaving_free]
    exact ⟨_, _, n, _, _, .aboveMax, j, _, rfl⟩
  · obtain ⟨n, j, e, -, -⟩ := s.accept.raiseFault_belowMin cfg
    rw [h, e, State.accept_finish_leaving_free]
    exact ⟨n, _, _, _, _, .belowMin, j, _, rfl⟩
  · rw [h, State.acceptSincos_eq, State.accept_finish_leaving]
    exact ⟨_, _, _, _, _, _, s.free, _, rfl⟩

/-! ### The angle of a sample (R170, R172) -/

/-- Not above the band and not below it (R166). -/
theorem band_eq_valid_iff (m : F32) : band m = .valid ↔ fgt m maxSq = false ∧ flt m minSq = false := by
  unfold band
  cases fgt m maxSq <;> cases flt m minSq <;> simp

/-- A2 and A3 of R172 for every legal configuration, on a valid pair of finite signals. -/
theorem Legal.atan2deg_of_valid {c : Cfg} (hc : Legal c) {sn cs : F32} (hs : isFinite sn = true) (hcs : isFinite cs = true)
    (hb : band (magnitudeSq sn cs) = .valid) :
    isFinite (c.atan2deg sn cs) = true ∧ angleClose c sn cs (fReal (c.atan2deg sn cs)) := by
  obtain ⟨-, hlow⟩ := (band_eq_valid_iff _).mp hb
  have hcase : atanRangeCase sn cs = true := by simp [atanRangeCase, hs, hcs, hlow]
  have hrange := hc.atanRange _ _ hcase
  rw [inHalfTurn, Bool.and_eq_true] at hrange
  exact ⟨hrange.1, hc.atanClose _ _ hcase⟩

/-- A valid sample leaves one filter step toward its angle (R170). -/
theorem State.sincosSample_lastAngle (c : Cfg) (rs rc : F32) {s : State} (hm : s.regs.mode = .sinCosAnalog) :
    let sn := fsub (fmul rs s.regs.sinGain) s.regs.sinOffset
    let cs := fsub (fmul rc s.regs.cosGain) s.regs.cosOffset
    band (magnitudeSq sn cs) = .valid →
      (s.sincosSample c rs rc).regs.lastAngle = lpfStep s.regs.lastAngle (c.atan2deg sn cs) s.regs.scFilterK := by
  intro sn cs hb
  obtain ⟨hhigh, hlow⟩ := (band_eq_valid_iff _).mp hb
  have e : s.sincosSample c rs rc = s.acceptSincos c sn cs := (State.sincosSample_eq c rs rc hm).trans
    ((if_neg (Bool.eq_false_iff.mp hhigh)).trans (if_neg (Bool.eq_false_iff.mp hlow)))
  rw [e, State.acceptSincos_eq]

/-- Settles O27: the unfiltered step from 0 ends at the arctangent, which A2 and A3 bound. -/
theorem firstUnfilteredSampleIsAccurate : Obligations.FirstUnfilteredSampleIsAccurate := by
  intro c s rs rc hc hm hk ha sn cs hs hcs hb
  obtain ⟨hfin, hclose⟩ := hc.atan2deg_of_valid hs hcs hb
  obtain ⟨hlfin, hval⟩ := lpfStep_fZero_fOne hfin
  rw [State.sincosSample_lastAngle c rs rc hm hb, ha, hk]
  refine ⟨hlfin, ?_⟩
  rwa [fReal, hval]

/-! ### `ATAN2DEG` run on its own (R172; log 9, log 19) -/

theorem exec_atan2deg (sn cs : F32) (s : State) :
    exec (.atan2deg sn cs) s =
      .next (s.leaving s.regs (s.ports.ended s.ports.pins s.ports.rspData) ⟨[], none, [cfg.atan2deg sn cs]⟩) := by rfl

/-- Settles O40: the result is the configured arctangent, of which A2 to A4 are known. -/
theorem atan2degHasRequiredProperties : Obligations.Atan2degHasRequiredProperties := by
  intro s sn cs
  refine ⟨cfg.atan2deg sn cs, s.ports.rspData, exec_atan2deg sn cs s, rfl, fun hs hc hmin => ?_, ?_⟩
  · obtain ⟨hrange, hclose⟩ := cfg_atan2deg_band sn cs hs hc hmin
    simp only [inHalfTurn, Bool.and_eq_true, decide_eq_true_eq] at hrange
    exact ⟨hrange.1, hrange.2, hclose⟩
  · rintro rfl hc hpos
    exact cfg_atan2deg_zero cs hc hpos

end Sys2Proof.Machine
end

section
/-! PROOF. Quadrature (`44_quadrature.md` R186 to R190, R206): the count that `READ_ANGLE` responds with, `CPR`, and the event `INDEX`,
the only operation that raises `ZERO_CURRENT_REQ`. -/

namespace Sys2Proof.Machine

/-! ### The angle of a count (R187) -/

theorem isZero_eq_false_of_fMag_pos {a : F32} (h : 0 < fMag a) : isZero a = false := by
  rw [isZero, beq_eq_false_iff_ne]
  intro hz
  have := fMag_of_pattern a 0 0 (by omega) (by omega) (by omega)
  omega

/-- Dividing a number without sign by a number of at least 1 does not make it greater. -/
theorem toNat_fdiv_le {a b : F32} (ha : a.toNat < infBits) (hb : b.toNat < infBits) (h1 : 2 ^ 149 ≤ fMag b) :
    (fdiv a b).toNat ≤ a.toNat := by
  have hpos : 0 < fMag b := (Nat.two_pow_pos 149).trans_le h1
  obtain ⟨hfin, -, hbits⟩ := finite_of_toNat_lt ha
  rw [toNat_fdiv ha hb (isZero_eq_false_of_fMag_pos hpos), ← hbits]
  exact roundMag_le_of_le a hfin hpos (Nat.mul_le_mul_left _ h1)

theorem toNat_u2f_lt (n : U32) : (u2f n).toNat < infBits :=
  (toNat_u2f_mono (m := 0xFFFFFFFF#32) (Nat.le_of_lt_succ n.isLt)).trans_lt (by decide +kernel)

theorem le_fMag_u2f {n : U32} (h : 1 ≤ n.toNat) : 2 ^ 149 ≤ fMag (u2f n) := by
  have hone : fMag (u2f 1#32) = 2 ^ 149 := by decide +kernel
  rw [← hone]
  exact fMag_mono_toNat (toNat_u2f_lt n) (toNat_u2f_mono h)

/-- The angle of a count is a finite number without sign: the greatest count times 360 is finite, and a divisor of at least 1 does not
make it greater (R187). -/
theorem quadAngle_lt (n : U32) {cpr : U32} (h : 1 ≤ cpr.toNat) : (quadAngle n cpr).toNat < infBits := by
  have hprod : (fmul (u2f n) f360).toNat < infBits :=
    (toNat_fmul_mono (toNat_u2f_lt 0xFFFFFFFF#32) (by decide) (toNat_u2f_mono (Nat.le_of_lt_succ n.isLt))).trans_lt
      (by decide +kernel)
  exact (toNat_fdiv_le hprod (toNat_u2f_lt cpr) (le_fMag_u2f h)).trans_lt hprod

/-! ### `READ_ANGLE` in `Quadrature` mode (R187, R206) -/

theorem State.respondAngle_of_isFinite (c : Cfg) {a : F32} (h : isFinite a = true) (s : State) :
    s.respondAngle c a = s.respond (wrapAngle c.angleWrap a) := if_pos h

/-- An accepted operation that draws one count and responds. -/
theorem State.drawQcnt_respond_finish (v : U32) (s : State) :
    (s.accept.drawQcnt.2.respond v).finish =
      s.afterQcnt.leaving s.regs (s.ports.responded v) ⟨[.readQcnt s.qcntNext, .pulse .rspValid], none, []⟩ := by
  rw [State.drawQcnt_eq]
  rfl

/-- With a legal `CPR` the response is the wrap of the angle of the count drawn. -/
theorem exec_readAngle_count {s : State} (hm : s.regs.mode = .quadrature) (hc : cprLegal s.regs.cpr = true)
    (hfin : isFinite (quadAngle s.qcntNext s.regs.cpr) = true) :
    exec .readAngle s = .next (s.afterQcnt.leaving s.regs
      (s.ports.responded (wrapAngle cfg.angleWrap (quadAngle s.qcntNext s.regs.cpr)))
      ⟨[.readQcnt s.qcntNext, .pulse .rspValid], none, []⟩) := by
  have hdraw : s.accept.drawQcnt.1 = s.qcntNext := by rw [State.drawQcnt_eq]; rfl
  rw [exec_readAngle_quadrature s hm hc, hdraw, State.drawQcnt_regs, State.accept_regs,
    State.respondAngle_of_isFinite cfg hfin, State.drawQcnt_respond_finish]

/-- Settles O14: the angle of the count drawn is finite, so the response is its wrap. -/
theorem readAngleRespondsQuadratureCount : Obligations.ReadAngleRespondsQuadratureCount := by
  intro s hm h1 h3
  have hc : cprLegal s.regs.cpr = true := decide_eq_true ⟨h1, h3⟩
  obtain ⟨hfin, hsign, -⟩ := finite_of_toNat_lt (quadAngle_lt s.qcntNext h1)
  exact ⟨hfin, hsign, [.readQcnt s.qcntNext, .pulse .rspValid], rfl, by simp, exec_readAngle_count hm hc hfin⟩

/-! ### `CPR` (R188, R186; U3, log 12) -/

/-- `SET_COUNTS` writes `CPR`, whatever its operand is. -/
theorem exec_setCounts (cpr : U32) (s : State) :
    exec (.setCounts cpr) s = .next
      (s.leaving { s.regs with cpr := cpr } (s.ports.ended s.ports.pins s.ports.rspData) Out.empty) := by rfl

/-- Settles O5: the code is read as the operation, and the operation is its one register write. -/
theorem setCountsWritesOnlyCpr : Obligations.SetCountsWritesOnlyCpr :=
  ⟨fun m p h => by simp [decode, decodeCommand, h], fun s cpr _ _ => ⟨_, exec_setCounts cpr s⟩⟩

/-- The counter outputs of an illegal `cpr` are two free values. -/
theorem State.configCounterFor_illegal {cpr : U32} (h : ¬ cprLegal cpr = true) (s : State) :
    s.configCounterFor cpr =
      ({ s with free := s.free + 2 } : State).configCounter (Config.freeWord s.free) (Config.freeWord (s.free + 1)) :=
  if_neg h

/-- `INIT_QUAD` in which the configuration of the counter used some free values. -/
theorem exec_initQuad {cpr m i : U32} {k : Nat} {s : State}
    (h : s.accept.configCounterFor cpr = ({ s.accept with free := k } : State).configCounter m i) :
    exec (.initQuad cpr) s = .next { s.leaving { Regs.default with mode := .quadrature, cpr := cpr }
      { s.ports.ended (Pins.ofMode .quadrature) s.ports.rspData with qcfgValid := true, qcfgModulus := m, qcfgInit := i }
      ⟨[.pulse .qcfgValid, .modeRow .quadrature], none, []⟩ with free := k } := by
  show Host.Outcome.next ((s.accept.configCounterFor cpr).enterMode _).finish = _
  rw [h]
  rfl

/-- Settles O6: the two free values are the counter outputs, and the rest is as for a legal `cpr`. -/
theorem illegalCprStillWritesCpr : Obligations.IllegalCprStillWritesCpr := by
  intro s cpr hbad
  have hillegal : ¬ cprLegal cpr = true := by
    rw [cprLegal, decide_eq_true_iff]
    omega
  exact ⟨⟨_, _, _, _, _, exec_initQuad (State.configCounterFor_illegal hillegal s.accept)⟩, _, exec_setCounts cpr s⟩

/-! ### `INDEX` (R189, R190) -/

/-- The whole of `INDEX`: the wait, one sample of the pin, and the pulse when the sample is 1. -/
theorem exec_index (s : State) :
    exec .index s = .next (s.afterIndexPin.leaving s.regs
      { s.ports.ended s.ports.pins s.ports.rspData with zeroCurrentReq := s.indexPinNext }
      ⟨[.wait cfg.tDebounce, .sampleIndexPin s.indexPinNext] ++
        (if s.indexPinNext then [.pulse .zeroCurrentReq] else []), none, []⟩) := by
  have hnext (h h' : Hidden) (a : PinAct) : (((s.accept.withHid h).act a).withHid h').indexPinNext = s.indexPinNext := rfl
  show Host.Outcome.next (s.accept.indexPulse cfg).finish = _
  rw [State.indexPulse]
  dsimp only
  rw [State.drawIndexPin_eq, hnext]
  cases s.indexPinNext with
  | true => rfl
  | false => rfl

/-- Settles O23: the strobe is read alike in every mode, and the event does the same in every mode. -/
theorem indexPulsesZeroCurrentOnlyWhenPinHigh : Obligations.IndexPulsesZeroCurrentOnlyWhenPinHigh :=
  ⟨fun _ _ _ => rfl, fun s => ⟨_, exec_index s⟩⟩

/-! ### What an operation shows of `ZERO_CURRENT_REQ` (R190) -/

/-- The port `ZERO_CURRENT_REQ` and the number of its pulses in the trace so far. -/
def State.zeroCurrentShown (s : State) : Bool × Nat :=
  (s.ports.zeroCurrentReq, s.out.trace.count (.pulse .zeroCurrentReq))

@[simp] theorem State.zeroCurrentShown_accept (s : State) : s.accept.zeroCurrentShown = (false, 0) := rfl
@[simp] theorem State.zeroCurrentShown_finish (s : State) : s.finish.zeroCurrentShown = s.zeroCurrentShown := rfl
@[simp] theorem State.zeroCurrentShown_withHid (h : Hidden) (s : State) :
    (s.withHid h).zeroCurrentShown = s.zeroCurrentShown := rfl
@[simp] theorem State.zeroCurrentShown_withRegs (r : Regs) (s : State) :
    (s.withRegs r).zeroCurrentShown = s.zeroCurrentShown := rfl
@[simp] theorem State.zeroCurrentShown_giveResult (ws : List U32) (s : State) :
    (s.giveResult ws).zeroCurrentShown = s.zeroCurrentShown := rfl
@[simp] theorem State.zeroCurrentShown_takeFree (s : State) :
    s.takeFree.2.zeroCurrentShown = s.zeroCurrentShown := rfl

/-- Registers, the outcome and the free values do not touch it. Cite this where a register holds an angle: by `rfl` the kernel would
compute the angle. -/
theorem State.zeroCurrentShown_written (r : Regs) (o : Option DecodeOutcome) (k : Nat) (s : State) :
    ({ s with regs := r, out := { s.out with outcome := o }, free := k } : State).zeroCurrentShown =
      s.zeroCurrentShown := rfl

/-- Trace entries other than the pulse leave what is shown. -/
theorem State.zeroCurrentShown_acts {as : List PinAct} (h : .pulse .zeroCurrentReq ∉ as) (s : State) :
    (s.acts as).zeroCurrentShown = s.zeroCurrentShown := by
  simp [State.zeroCurrentShown, State.acts_eq, List.count_append, List.count_eq_zero_of_not_mem h]

@[simp] theorem State.zeroCurrentShown_respond (v : U32) (s : State) :
    (s.respond v).zeroCurrentShown = s.zeroCurrentShown := by
  simp [State.zeroCurrentShown]

@[simp] theorem State.zeroCurrentShown_respondAngle (c : Cfg) (a : F32) (s : State) :
    (s.respondAngle c a).zeroCurrentShown = s.zeroCurrentShown := by
  obtain ⟨v, k, e, -⟩ := s.respondAngle_cases c a
  rw [e, State.zeroCurrentShown_respond]
  rfl

@[simp] theorem State.zeroCurrentShown_drawQcnt (s : State) :
    s.drawQcnt.2.zeroCurrentShown = s.zeroCurrentShown := by
  rw [State.drawQcnt_eq]
  exact s.afterQcnt.zeroCurrentShown_acts (as := [.readQcnt s.qcntNext]) (by simp)

@[simp] theorem State.zeroCurrentShown_configCounter (m i : U32) (s : State) :
    (s.configCounter m i).zeroCurrentShown = s.zeroCurrentShown := by
  simp [State.zeroCurrentShown]

@[simp] theorem State.zeroCurrentShown_configCounterFor (cpr : U32) (s : State) :
    (s.configCounterFor cpr).zeroCurrentShown = s.zeroCurrentShown := by
  unfold State.configCounterFor
  split <;> simp

@[simp] theorem State.zeroCurrentShown_enterMode (r : Regs) (s : State) :
    (s.enterMode r).zeroCurrentShown = s.zeroCurrentShown := by
  simp [State.zeroCurrentShown, State.enterMode_eq]

theorem pulse_notMem_xferActs (o : Strobe) (c : Cfg) (ws : List U16) (x : Nat → Bool) : .pulse o ∉ xferActs c ws x := by
  simp [xferActs, wordActs, bitActs]

@[simp] theorem State.zeroCurrentShown_xfer (c : Cfg) (out : Option (List U16)) (n : Nat) (s : State) :
    (s.xfer c out n).2.zeroCurrentShown = s.zeroCurrentShown := by
  rw [State.xfer_eq, State.zeroCurrentShown_withHid, State.zeroCurrentShown_acts (pulse_notMem_xferActs _ _ _ _)]
  rfl

@[simp] theorem State.zeroCurrentShown_xferWord (c : Cfg) (out : Option (List U16)) (s : State) :
    (s.xferWord c out).2.zeroCurrentShown = s.zeroCurrentShown := s.zeroCurrentShown_xfer c out 1

@[simp] theorem State.zeroCurrentShown_raiseFault (c : Cfg) (f : DecodeFault) (s : State) :
    (s.raiseFault c f).zeroCurrentShown = s.zeroCurrentShown := by
  obtain ⟨r, k, e, -⟩ := s.raiseFault_cases c f
  rw [e, State.zeroCurrentShown_written]

@[simp] theorem State.zeroCurrentShown_receiveAbs (c : Cfg) (w : U16) (s : State) :
    (s.receiveAbs c w).zeroCurrentShown = s.zeroCurrentShown := by
  cases h : absAccepted w with
  | true => rw [State.receiveAbs_accepted c w s h]; exact s.zeroCurrentShown_written ..
  | false => rw [State.receiveAbs_rejected c w s h, State.zeroCurrentShown_raiseFault, State.zeroCurrentShown_withRegs]

@[simp] theorem State.zeroCurrentShown_receiveRes (c : Cfg) (w : U16) (s : State) :
    (s.receiveRes c w).zeroCurrentShown = s.zeroCurrentShown := by
  cases h : resHealthy c w with
  | true => rw [State.receiveRes_healthy c w s h]; exact s.zeroCurrentShown_written ..
  | false => rw [State.receiveRes_unhealthy c w s h]; exact s.zeroCurrentShown_written ..

@[simp] theorem State.zeroCurrentShown_sincosSample (c : Cfg) (a b : F32) (s : State) :
    (s.sincosSample c a b).zeroCurrentShown = s.zeroCurrentShown := by
  by_cases hm : s.regs.mode = .sinCosAnalog
  · rcases s.sincosSample_cases c a b hm with e | e | ⟨sn, cs, e⟩
    · rw [e, State.zeroCurrentShown_raiseFault]
    · rw [e, State.zeroCurrentShown_raiseFault]
    · rw [e, State.acceptSincos_eq]; exact s.zeroCurrentShown_written ..
  · rw [s.sincosSample_of_mode_ne c a b hm]

theorem State.zeroCurrentShown_controlLines (c : Cfg) {s : State} (h : s.hid.resPos = .idle) :
    (s.controlLines c).zeroCurrentShown = s.zeroCurrentShown := by
  rw [State.controlLines_eq c s h, State.zeroCurrentShown_acts (by simp [controlActs])]

theorem State.zeroCurrentShown_tick (c : Cfg) {s : State} (hp : s.hid.resPos = .idle) :
    (s.tick c).zeroCurrentShown = s.zeroCurrentShown := by
  by_cases ha : s.regs.mode = .absoluteSpi
  · rw [s.tick_abs c ha]; simp
  by_cases hr : s.regs.mode = .resolverSpi
  · rw [s.tick_res c hr]; simp [State.zeroCurrentShown_controlLines c hp]
  · rw [s.tick_other c ha hr]

/-! ### Only `INDEX` raises `ZERO_CURRENT_REQ` (R190) -/

/-- The operation completes, and shows no pulse of `ZERO_CURRENT_REQ`. -/
def RaisesNoZeroCurrent (i : Instr) (s : State) : Prop := ∃ u, exec i s = .next u ∧ u.zeroCurrentShown = (false, 0)

theorem raisesNoZeroCurrent_of_finish {i : Instr} {s : State} (u : State) (he : exec i s = .next u.finish)
    (hu : u.zeroCurrentShown = (false, 0)) : RaisesNoZeroCurrent i s :=
  ⟨u.finish, he, u.zeroCurrentShown_finish.trans hu⟩

theorem raisesNoZeroCurrent_of_noEffect {i : Instr} {s : State} (he : exec i s = .next s.accept.finish) : RaisesNoZeroCurrent i s :=
  raisesNoZeroCurrent_of_finish _ he s.zeroCurrentShown_accept

theorem readAngle_raisesNoZeroCurrent (s : State) : RaisesNoZeroCurrent .readAngle s := by
  by_cases hm : s.regs.mode = .quadrature
  · by_cases hc : cprLegal s.regs.cpr = true
    · exact raisesNoZeroCurrent_of_finish _ (exec_readAngle_quadrature s hm hc) (by simp)
    · exact raisesNoZeroCurrent_of_finish _ (exec_readAngle_illegalCpr s hm hc) (by simp)
  · exact raisesNoZeroCurrent_of_finish _ (exec_readAngle_cached s hm) (by simp)

/-- A frame is sent or received in its own mode and does nothing elsewhere (log 16). -/
theorem absCmd_raisesNoZeroCurrent (s : State) : RaisesNoZeroCurrent .absCmd s := by
  by_cases hm : s.regs.mode = .absoluteSpi
  · exact raisesNoZeroCurrent_of_finish ((s.accept.xferWord cfg (some [absCmdWord])).2.giveResult
      [zext16 (s.accept.xferWord cfg (some [absCmdWord])).1]) (if_pos hm) (by simp)
  · exact raisesNoZeroCurrent_of_noEffect (if_neg hm)

theorem resCmd_raisesNoZeroCurrent (s : State) : RaisesNoZeroCurrent .resCmd s := by
  by_cases hm : s.regs.mode = .resolverSpi
  · exact raisesNoZeroCurrent_of_finish ((s.accept.xferWord cfg none).2.giveResult
      [zext16 (s.accept.xferWord cfg none).1]) (if_pos hm) (by simp)
  · exact raisesNoZeroCurrent_of_noEffect (if_neg hm)

theorem absReply_raisesNoZeroCurrent (w : U16) (s : State) : RaisesNoZeroCurrent (.absReply w) s := by
  by_cases hm : s.regs.mode = .absoluteSpi
  · exact raisesNoZeroCurrent_of_finish _ (exec_absReply w hm) (by simp)
  · exact raisesNoZeroCurrent_of_noEffect (if_neg hm)

theorem resReply_raisesNoZeroCurrent (w : U16) (s : State) : RaisesNoZeroCurrent (.resReply w) s := by
  by_cases hm : s.regs.mode = .resolverSpi
  · exact raisesNoZeroCurrent_of_finish _ (exec_resReply w hm) (by simp)
  · exact raisesNoZeroCurrent_of_noEffect (if_neg hm)

theorem wrap_raisesNoZeroCurrent (a : F32) (s : State) : RaisesNoZeroCurrent (.wrap a) s := by
  by_cases hf : isFinite a = true
  · exact raisesNoZeroCurrent_of_finish (s.accept.giveResult [wrapAngle cfg.angleWrap a]) (if_pos hf) (by simp)
  · exact raisesNoZeroCurrent_of_finish (s.accept.takeFree.2.giveResult [s.accept.takeFree.1]) (if_neg hf) (by simp)

theorem raisesNoZeroCurrent_of_ne_index {i : Instr} (hi : i ≠ .index) (s : State) : RaisesNoZeroCurrent i s := by
  cases i with
  | initQuad _ | initAbs | initRes | initSincos _ _ _ _ _ | deinit | setCounts _ =>
    exact raisesNoZeroCurrent_of_finish _ rfl (by simp)
  | readAngle => exact readAngle_raisesNoZeroCurrent s
  | isConfigured | rdDiag _ => exact raisesNoZeroCurrent_of_finish _ rfl (by simp)
  | reserved0 | reservedA | reservedB | reservedC | reservedD | reservedE | reservedF =>
    exact raisesNoZeroCurrent_of_noEffect rfl
  | tick => exact raisesNoZeroCurrent_of_finish _ rfl (s.accept.zeroCurrentShown_tick cfg rfl)
  | index => exact absurd rfl hi
  | sincosSample rs rc => exact raisesNoZeroCurrent_of_finish _ (exec_sincosSample rs rc s) (by simp)
  | absCmd => exact absCmd_raisesNoZeroCurrent s
  | absReply w => exact absReply_raisesNoZeroCurrent w s
  | resCmd => exact resCmd_raisesNoZeroCurrent s
  | resReply w => exact resReply_raisesNoZeroCurrent w s
  | xfer out n =>
    exact raisesNoZeroCurrent_of_finish
      ((s.accept.xfer cfg out n).2.giveResult ((s.accept.xfer cfg out n).1.map zext16)) rfl (by simp)
  | maj5 _ _ _ _ _ | parity16 _ | lpf _ _ _ | atan2deg _ _ => exact raisesNoZeroCurrent_of_finish _ rfl (by simp)
  | wrap a => exact wrap_raisesNoZeroCurrent a s

/-- Settles O44: `INDEX` pulses when its sample is 1, and no other operation raises the port. -/
theorem onlyIndexRaisesZeroCurrent : Obligations.OnlyIndexRaisesZeroCurrent := by
  intro i s t h
  by_cases hi : i = .index
  · subst hi
    obtain rfl := Host.Outcome.next.inj ((exec_index s).symm.trans h)
    cases hp : s.indexPinNext <;> simp [State.leaving]
  · obtain ⟨u, he, hu⟩ := raisesNoZeroCurrent_of_ne_index hi s
    obtain rfl := Host.Outcome.next.inj (he.symm.trans h)
    obtain ⟨hport, hcount⟩ := Prod.mk.inj hu
    simp [hport, hcount, hi]

end Sys2Proof.Machine
end

section
/-! PROOF. `MODE` and the pins over every operation and every step (`45_mode_facade.md` R200 to R205, R209 to R212; R39, R48). -/

namespace Sys2Proof.Machine

/-! ### What keeps `MODE` and its row of pins (R210, R211) -/

/-- `MODE` stays, and the pins stay where they are in the row of `MODE`. -/
def State.KeepsMode (s u : State) : Prop :=
  u.regs.mode = s.regs.mode ∧ (s.ports.pins = Pins.ofMode s.regs.mode → u.ports.pins = s.ports.pins)

theorem State.KeepsMode.of_eq {s u : State} (hm : u.regs.mode = s.regs.mode) (hp : u.ports.pins = s.ports.pins) :
    s.KeepsMode u := ⟨hm, fun _ => hp⟩

theorem State.KeepsMode.trans {s u v : State} (h : s.KeepsMode u) (h' : u.KeepsMode v) : s.KeepsMode v := by
  obtain ⟨hm, hp⟩ := h
  obtain ⟨hm', hp'⟩ := h'
  refine ⟨hm'.trans hm, fun hs => ?_⟩
  have hu : u.ports.pins = Pins.ofMode u.regs.mode := by rw [hp hs, hm, hs]
  rw [hp' hu, hp hs]

/-- Trace entries after which the row of `MODE` is again what it was. -/
theorem State.keepsMode_acts {as : List PinAct} {s : State}
    (h : as.foldl Pins.act (Pins.ofMode s.regs.mode) = Pins.ofMode s.regs.mode) : s.KeepsMode (s.acts as) := by
  refine ⟨s.acts_regs as ▸ rfl, fun hs => ?_⟩
  rw [State.acts_eq]
  exact hs ▸ h

theorem State.keepsMode_xfer (c : Cfg) (out : Option (List U16)) (n : Nat) (s : State) :
    s.KeepsMode (s.xfer c out n).2 := by
  have hacts : (s.afterMiso (80 * n)).KeepsMode ((s.afterMiso (80 * n)).acts (xferActs c (wordsSent out n) s.misoAt)) :=
    State.keepsMode_acts (foldl_xferActs c _ _ _)
  rw [State.xfer_eq]
  exact hacts

theorem State.keepsMode_xferWord (c : Cfg) (out : Option (List U16)) (s : State) : s.KeepsMode (s.xferWord c out).2 :=
  s.keepsMode_xfer c out 1

theorem State.keepsMode_controlLines (c : Cfg) {s : State} (h : s.hid.resPos = .idle) : s.KeepsMode (s.controlLines c) := by
  rw [State.controlLines_eq c s h]
  exact State.keepsMode_acts (foldl_controlActs c _)

/-- The fail-safe hold leaves `MODE` and the pins, whatever the fault (R251). -/
theorem State.keepsMode_raiseFault (c : Cfg) (f : DecodeFault) (s : State) : s.KeepsMode (s.raiseFault c f) := by
  obtain ⟨r, k, e, hr⟩ := s.raiseFault_cases c f
  rw [e]
  rcases hr with ⟨-, n, -, rfl⟩ | ⟨-, rfl, -⟩ | ⟨-, n, -, rfl⟩ | ⟨-, n, -, rfl⟩ <;> exact .of_eq rfl rfl

/-- The registers that an accepted sample writes, and the outputs, do not touch it. Cite this for a computed angle: by `rfl` the kernel
would compute the angle. -/
theorem State.keepsMode_decoded (a spiRate belowRate aboveRate : F32) (w : U16) (o : Out) (s : State) :
    s.KeepsMode { s with
      regs := { s.regs with
        lastAngle := a, spiVal := w, spiErrRate := spiRate, scBelowRate := belowRate, scAboveRate := aboveRate }
      out := o } := .of_eq rfl rfl

theorem State.keepsMode_receiveAbs (c : Cfg) (w : U16) (s : State) : s.KeepsMode (s.receiveAbs c w) := by
  cases h : absAccepted w with
  | true =>
    rw [State.receiveAbs_accepted c w s h]
    exact s.keepsMode_decoded ..
  | false =>
    obtain ⟨n, k, e, -⟩ := State.receiveAbs_rejected_eq c s h
    rw [e]
    exact .of_eq rfl rfl

theorem State.keepsMode_receiveRes (c : Cfg) (w : U16) (s : State) : s.KeepsMode (s.receiveRes c w) := by
  cases h : resHealthy c w with
  | true =>
    rw [State.receiveRes_healthy c w s h]
    exact s.keepsMode_decoded ..
  | false => rw [State.receiveRes_unhealthy c w s h]; exact .of_eq rfl rfl

/-- A `TICK` moves pins during its transfer only (R116, R209). -/
theorem State.keepsMode_tick (c : Cfg) {s : State} (hp : s.hid.resPos = .idle) : s.KeepsMode (s.tick c) := by
  by_cases ha : s.regs.mode = .absoluteSpi
  · rw [s.tick_abs c ha]
    exact (s.keepsMode_xferWord c _).trans (State.keepsMode_receiveAbs c _ _)
  by_cases hr : s.regs.mode = .resolverSpi
  · rw [s.tick_res c hr]
    exact ((State.keepsMode_controlLines c hp).trans (State.keepsMode_xferWord c _ _)).trans
      (State.keepsMode_receiveRes c _ _)
  · rw [s.tick_other c ha hr]
    exact .of_eq rfl rfl

theorem State.keepsMode_indexPulse (c : Cfg) (s : State) : s.KeepsMode (s.indexPulse c) := by
  refine .of_eq (s.indexPulse_regs c ▸ rfl) ?_
  unfold State.indexPulse
  dsimp only
  rw [State.drawIndexPin_eq]
  split <;> rfl

theorem State.keepsMode_sincosSample (c : Cfg) (a b : F32) (s : State) : s.KeepsMode (s.sincosSample c a b) := by
  by_cases hm : s.regs.mode = .sinCosAnalog
  · rcases s.sincosSample_cases c a b hm with e | e | ⟨sn, cs, e⟩
    · rw [e]; exact s.keepsMode_raiseFault c _
    · rw [e]; exact s.keepsMode_raiseFault c _
    · rw [e, State.acceptSincos_eq]; exact s.keepsMode_decoded ..
  · rw [s.sincosSample_of_mode_ne c a b hm]; exact .of_eq rfl rfl

theorem State.keepsMode_drawQcnt (s : State) : s.KeepsMode s.drawQcnt.2 := by
  rw [State.drawQcnt_eq]
  exact .of_eq rfl rfl

theorem State.keepsMode_respondAngle (c : Cfg) (a : F32) (s : State) : s.KeepsMode (s.respondAngle c a) := by
  obtain ⟨v, k, e, -⟩ := s.respondAngle_cases c a
  rw [e]
  exact .of_eq rfl rfl

theorem State.keepsMode_giveResult (ws : List U32) (s : State) : s.KeepsMode (s.giveResult ws) := .of_eq rfl rfl

/-! ### The mode and the pins after every operation (R210, R211) -/

/-- The transition table of R210: the registers that a mode command leaves; no other operation is one. -/
def modeRegs : Instr → Option Regs
  | .initQuad cpr => some { Regs.default with mode := .quadrature, cpr := cpr }
  | .initAbs => some { Regs.default with mode := .absoluteSpi }
  | .initRes => some { Regs.default with mode := .resolverSpi }
  | .initSincos sg so cg co k => some
      { Regs.default with
        mode := .sinCosAnalog, sinGain := sg, sinOffset := so, cosGain := cg, cosOffset := co, scFilterK := k }
  | .deinit => some Regs.default
  | _ => none

/-- An operation that is no mode command keeps `MODE` and its row. -/
def RunsInMode (i : Instr) (s : State) : Prop := ∃ u, exec i s = .next u.finish ∧ s.accept.KeepsMode u

theorem runsInMode_of_eq {i : Instr} {s : State} (u : State) (he : exec i s = .next u.finish) (hm : u.regs.mode = s.regs.mode)
    (hp : u.ports.pins = s.ports.pins) : RunsInMode i s := ⟨u, he, .of_eq hm hp⟩

theorem runsInMode_of_noEffect {i : Instr} {s : State} (he : exec i s = .next s.accept.finish) : RunsInMode i s :=
  runsInMode_of_eq _ he rfl rfl

theorem readAngle_runsInMode (s : State) : RunsInMode .readAngle s := by
  by_cases hm : s.regs.mode = .quadrature
  · by_cases hc : cprLegal s.regs.cpr = true
    · exact ⟨_, exec_readAngle_quadrature s hm hc, s.accept.keepsMode_drawQcnt.trans (State.keepsMode_respondAngle cfg _ _)⟩
    · exact ⟨_, exec_readAngle_illegalCpr s hm hc, s.accept.keepsMode_drawQcnt.trans (.of_eq rfl rfl)⟩
  · exact ⟨_, exec_readAngle_cached s hm, State.keepsMode_respondAngle cfg _ _⟩

theorem absCmd_runsInMode (s : State) : RunsInMode .absCmd s := by
  by_cases hm : s.regs.mode = .absoluteSpi
  · exact ⟨(s.accept.xferWord cfg (some [absCmdWord])).2.giveResult [zext16 (s.accept.xferWord cfg (some [absCmdWord])).1],
      if_pos hm, (s.accept.keepsMode_xferWord cfg (some [absCmdWord])).trans (State.keepsMode_giveResult _ _)⟩
  · exact runsInMode_of_noEffect (if_neg hm)

theorem resCmd_runsInMode (s : State) : RunsInMode .resCmd s := by
  by_cases hm : s.regs.mode = .resolverSpi
  · exact ⟨(s.accept.xferWord cfg none).2.giveResult [zext16 (s.accept.xferWord cfg none).1],
      if_pos hm, (s.accept.keepsMode_xferWord cfg none).trans (State.keepsMode_giveResult _ _)⟩
  · exact runsInMode_of_noEffect (if_neg hm)

theorem absReply_runsInMode (w : U16) (s : State) : RunsInMode (.absReply w) s := by
  by_cases hm : s.regs.mode = .absoluteSpi
  · exact ⟨_, exec_absReply w hm, s.accept.keepsMode_receiveAbs cfg w⟩
  · exact runsInMode_of_noEffect (if_neg hm)

theorem resReply_runsInMode (w : U16) (s : State) : RunsInMode (.resReply w) s := by
  by_cases hm : s.regs.mode = .resolverSpi
  · exact ⟨_, exec_resReply w hm, s.accept.keepsMode_receiveRes cfg w⟩
  · exact runsInMode_of_noEffect (if_neg hm)

theorem wrap_runsInMode (a : F32) (s : State) : RunsInMode (.wrap a) s := by
  by_cases hf : isFinite a = true
  · exact runsInMode_of_eq (s.accept.giveResult [wrapAngle cfg.angleWrap a]) (if_pos hf) rfl rfl
  · exact runsInMode_of_eq (s.accept.takeFree.2.giveResult [s.accept.takeFree.1]) (if_neg hf) rfl rfl

theorem exec_runsInMode {i : Instr} (h : modeRegs i = none) (s : State) : RunsInMode i s := by
  cases i with
  | initQuad _ | initAbs | initRes | initSincos _ _ _ _ _ | deinit => cases h
  | setCounts _ | isConfigured | rdDiag _ => exact runsInMode_of_eq _ rfl rfl rfl
  | readAngle => exact readAngle_runsInMode s
  | reserved0 | reservedA | reservedB | reservedC | reservedD | reservedE | reservedF => exact runsInMode_of_noEffect rfl
  | tick => exact ⟨_, rfl, State.keepsMode_tick cfg rfl⟩
  | index => exact ⟨_, rfl, s.accept.keepsMode_indexPulse cfg⟩
  | sincosSample rs rc => exact ⟨_, exec_sincosSample rs rc s, s.accept.keepsMode_sincosSample cfg rs rc⟩
  | absCmd => exact absCmd_runsInMode s
  | absReply w => exact absReply_runsInMode w s
  | resCmd => exact resCmd_runsInMode s
  | resReply w => exact resReply_runsInMode w s
  | xfer out n =>
    exact ⟨(s.accept.xfer cfg out n).2.giveResult ((s.accept.xfer cfg out n).1.map zext16), rfl,
      (s.accept.keepsMode_xfer cfg out n).trans (State.keepsMode_giveResult _ _)⟩
  | maj5 _ _ _ _ _ | parity16 _ | lpf _ _ _ | atan2deg _ _ => exact runsInMode_of_eq _ rfl rfl rfl
  | wrap a => exact wrap_runsInMode a s

/-- A mode command ends with its registers and their row of pins, from every state (R200, R211, R212). -/
theorem exec_modeRegs {i : Instr} {r : Regs} (h : modeRegs i = some r) (s : State) :
    ∃ u : State, exec i s = .next (u.enterMode r).finish := by
  cases i with
  | initQuad cpr => cases h; exact ⟨s.accept.configCounterFor cpr, rfl⟩
  | initAbs | initRes | initSincos _ _ _ _ _ | deinit => cases h; exact ⟨s.accept, rfl⟩
  | _ => cases h

/-- The mode after an operation (R210). -/
def nextMode (i : Instr) (m : Mode) : Mode := ((modeRegs i).map Regs.mode).getD m

/-- Every operation leaves the block idle and in its next mode, and the pins in the row of that mode if they were in the row of the
present one (R39, R210, R211). -/
theorem exec_nextMode {i : Instr} {s t : State} (h : exec i s = .next t) :
    t.regs.mode = nextMode i s.regs.mode ∧ (s.ports.pins = Pins.ofMode s.regs.mode → t.settled) := by
  unfold nextMode
  cases hr : modeRegs i with
  | some r =>
    obtain ⟨u, e⟩ := exec_modeRegs hr s
    obtain rfl := Host.Outcome.next.inj (e.symm.trans h)
    exact ⟨rfl, fun _ => ⟨rfl, rfl⟩⟩
  | none =>
    obtain ⟨u, e, hm, hp⟩ := exec_runsInMode hr s
    obtain rfl := Host.Outcome.next.inj (e.symm.trans h)
    refine ⟨hm, fun hs => ⟨rfl, ?_⟩⟩
    exact ((hp hs).trans hs).trans (congrArg Pins.ofMode hm.symm)

/-- Settles O54: a quiet step moves no pin, an operation leaves the row of its next mode, and `rst` leaves that of `None`. -/
theorem everyStepKeepsSettled : Obligations.EveryStepKeepsSettled := by
  intro s t hs h
  obtain ⟨-, hpins⟩ := hs
  rcases step_cases s t h with (⟨as, rfl⟩ | ⟨-, rfl⟩ | ⟨_, _, -, -, rfl⟩) | ⟨i, as, e⟩ | ⟨_, _, _, _, -, rfl⟩
  · exact ⟨rfl, hpins⟩
  · exact ⟨rfl, hpins⟩
  · exact ⟨rfl, rfl⟩
  · obtain ⟨-, hsettled⟩ := exec_nextMode e
    exact hsettled hpins
  · exact ⟨rfl, rfl⟩

/-- Settles O8: the table is that of `modeRegs`, and a cycle with `rst` ends at the default registers. -/
theorem modeFollowsTransitionTable : Obligations.ModeFollowsTransitionTable := by
  constructor
  · intro i s t h
    obtain ⟨hm, -⟩ := exec_nextMode h
    rw [hm]
    cases i <;> rfl
  · intro s c rest hs hr
    obtain ⟨t, he, hregs, -⟩ := resetCycleRestoresResetState s c rest hs hr
    exact ⟨t, he, by rw [hregs]; rfl⟩

/-! ### The mode commands (R201 to R205, R212) -/

/-- Settles O7: the registers and the row of pins of a mode command are its own. -/
theorem modeCommandsForgetTheState : Obligations.ModeCommandsForgetTheState := by
  intro i hi s s'
  have hr : ∃ r, modeRegs i = some r := by
    cases i with
    | initQuad _ | initAbs | initRes | initSincos _ _ _ _ _ | deinit => exact ⟨_, rfl⟩
    | _ => exact hi.elim
  obtain ⟨r, hr⟩ := hr
  obtain ⟨u, e⟩ := exec_modeRegs hr s
  obtain ⟨u', e'⟩ := exec_modeRegs hr s'
  exact ⟨_, _, e, e', rfl, rfl⟩

/-- A mode command that only enters its mode makes no pulse and uses nothing up. -/
theorem State.accept_enterMode_finish (r : Regs) (s : State) :
    (s.accept.enterMode r).finish =
      s.leaving r (s.ports.ended (Pins.ofMode r.mode) s.ports.rspData) ⟨[.modeRow r.mode], none, []⟩ := rfl

/-- Settles O1: a legal `cpr` configures the counter with its own two values, neither of which overflows. -/
theorem initQuadSetsModeAndCounter : Obligations.InitQuadSetsModeAndCounter := by
  refine ⟨fun m p h => by simp [decode, decodeCommand, h], fun s cpr h1 h3 => ?_⟩
  have hlegal : cprLegal cpr = true := decide_eq_true ⟨h1, h3⟩
  have hconf : s.accept.configCounterFor cpr = s.accept.configCounter (counterModulus cpr) (counterInit cpr) := if_pos hlegal
  refine ⟨counterModulus cpr, counterInit cpr, s.ports.rspData, [.pulse .qcfgValid, .modeRow .quadrature], ?_, ?_, rfl,
    exec_initQuad hconf⟩
  · exact Nat.mod_eq_of_lt h3
  · exact Nat.mod_eq_of_lt (by omega)

/-- Settles O2. -/
theorem initSerialModesResetRegistersAndDrivePins : Obligations.InitSerialModesResetRegistersAndDrivePins :=
  ⟨fun m p => ⟨fun h => by simp [decode, decodeCommand, h], fun h => by simp [decode, decodeCommand, h]⟩, fun s =>
    ⟨⟨_, _, congrArg Host.Outcome.next (s.accept_enterMode_finish { Regs.default with mode := .absoluteSpi })⟩,
      ⟨_, _, congrArg Host.Outcome.next (s.accept_enterMode_finish { Regs.default with mode := .resolverSpi })⟩⟩⟩

/-- Settles O3. -/
theorem initSincosStoresCalibration : Obligations.InitSincosStoresCalibration :=
  ⟨fun m p h => by simp [decode, decodeCommand, h], fun s sg so cg co k =>
    ⟨_, _, congrArg Host.Outcome.next (s.accept_enterMode_finish
      { Regs.default with
        mode := .sinCosAnalog, sinGain := sg, sinOffset := so, cosGain := cg, cosOffset := co, scFilterK := k })⟩⟩

/-- Settles O4. -/
theorem deinitReturnsToDefaults : Obligations.DeinitReturnsToDefaults :=
  ⟨fun m p h => by simp [decode, decodeCommand, h], fun s =>
    ⟨_, _, congrArg Host.Outcome.next (s.accept_enterMode_finish Regs.default)⟩⟩

end Sys2Proof.Machine
end

section
/-! PROOF. `WRAP` (`45_mode_facade.md` R206; log 14): its value is the residue of the angle modulo 360, rounded once. -/

namespace Sys2Proof.Machine

/-! ### The remainder by 360 (R206) -/

/-- The magnitude of a binary32 number is a significand of at most 24 bits times a power of two. -/
theorem fMag_eq_significand (a : F32) (ha : isFinite a = true) : ∃ r k, r < 2 ^ 24 ∧ k ≤ 253 ∧ fMag a = r * 2 ^ k := by
  have he : fExp a < 255 := by simpa [isFinite] using ha
  have hf : fFrac a < 2 ^ 23 := Nat.mod_lt _ (by decide)
  unfold fMag
  split
  · exact ⟨fFrac a, 0, by omega, by omega, (Nat.mul_one _).symm⟩
  · exact ⟨2 ^ 23 + fFrac a, fExp a - 1, by omega, by omega, rfl⟩

/-- The remainder of such a number by 360, which is `45 * 2^152` units, is such a number again. -/
theorem mod_eq_significand {r k : Nat} (hr : r < 2 ^ 24) (hk : k ≤ 253) :
    ∃ r' k', r' < 2 ^ 24 ∧ k' ≤ 253 ∧ r * 2 ^ k % fMag f360 = r' * 2 ^ k' := by
  have hturn : fMag f360 = 45 * 2 ^ 152 := by rw [fMag_f360]; decide
  rcases Nat.le_total k 152 with h | h
  · have hsplit : fMag f360 = 45 * 2 ^ (152 - k) * 2 ^ k := by
      rw [hturn, Nat.mul_assoc, ← Nat.pow_add, Nat.sub_add_cancel h]
    exact ⟨r % (45 * 2 ^ (152 - k)), k, (Nat.mod_le _ _).trans_lt hr, hk, by rw [hsplit, Nat.mul_mod_mul_right]⟩
  · have hsplit : r * 2 ^ k = r * 2 ^ (k - 152) * 2 ^ 152 := by
      rw [Nat.mul_assoc, ← Nat.pow_add, Nat.sub_add_cancel h]
    exact ⟨r * 2 ^ (k - 152) % 45, 152, (Nat.mod_lt _ (by decide)).trans (by decide), by decide,
      by rw [hsplit, hturn, Nat.mul_mod_mul_right]⟩

/-- The remainder of a finite number by 360 has no rounding error. -/
theorem fMag_roundMag_mod {a : F32} (ha : isFinite a = true) (neg : Bool) :
    fMag (pack neg (roundMag (fMag a % fMag f360) 1)) = fMag a % fMag f360 := by
  obtain ⟨r, k, hr, hk, e⟩ := fMag_eq_significand a ha
  obtain ⟨r', k', hr', hk', e'⟩ := mod_eq_significand hr hk
  have hlt := roundMag_lt (fMag a % fMag f360) 1
  have hbits : (pack false (roundMag (fMag a % fMag f360) 1)).toNat = roundMag (r' * 2 ^ k') 1 := by
    rw [toNat_pack false hlt, e, e']; simp
  obtain ⟨-, hmag⟩ := exact_of_significand hr' hk' hbits
  have hsame : fMag (pack neg (roundMag (fMag a % fMag f360) 1)) = fMag (pack false (roundMag (fMag a % fMag f360) 1)) :=
    fMag_congr ((fMagBits_pack neg hlt).trans (fMagBits_pack false hlt).symm)
  rw [hsame, hmag, ← e', ← e]

theorem fMag_rem360 {a : F32} (ha : isFinite a = true) : fMag (rem360 a) = fMag a % fMag f360 := fMag_roundMag_mod ha _

theorem fSign_rem360 (a : F32) : fSign (rem360 a) = fSign a := fSign_pack _ (roundMag_lt _ _)

/-! ### Rounding a number of units up to 360 -/

theorem isFinite_f360 : isFinite f360 = true := by decide

theorem fVal_f360 : fVal f360 = fMag f360 := fVal_of_fSign_false (by decide)

theorem fMag_f360_pos : 0 < fMag f360 := by rw [fMag_f360]; decide

/-- A number of units up to 360 is rounded to at most 360. -/
theorem roundMag_le_f360 {p : Nat} (h : p ≤ fMag f360) : roundMag p 1 ≤ f360.toNat :=
  roundMag_le_of_le f360 isFinite_f360 Nat.one_pos (by rwa [Nat.mul_one])

/-- Rounding to an integer is off by at most one half. -/
theorem le_two_mul_roundHalfEven (p : Nat) {d : Nat} (hd : 0 < d) : 2 * p ≤ 2 * (roundHalfEven p d * d) + d := by
  have hp := Nat.div_add_mod' p d
  unfold roundHalfEven
  split
  · omega
  split
  · have := Nat.mod_lt p hd
    rw [Nat.add_mul]; omega
  · rw [Nat.add_mul]; omega

/-- One rounding is off by at most half the place of the last bit kept. -/
theorem fMag_roundMag_error {p k : Nat} (hshift : roundShift p 1 ≤ k + 1) (hk : k ≤ 252) :
    fMag (pack false (roundMag p 1)) ≤ p + 2 ^ k ∧ p ≤ fMag (pack false (roundMag p 1)) + 2 ^ k := by
  have hpow : 2 ^ roundShift p 1 ≤ 2 ^ k * 2 := Nat.pow_succ .. ▸ Nat.pow_le_pow_right (by decide) hshift
  have hr := significand_le p 1 Nat.one_pos
  have hbits : fMagBits (pack false (roundMag p 1)) =
      roundShift p 1 * 2 ^ 23 + roundHalfEven p (1 * 2 ^ roundShift p 1) := by
    rw [fMagBits_pack false (roundMag_lt p 1), roundMag_def, min_eq_left (by unfold infBits; omega)]
  have hup := two_mul_roundHalfEven_le p (1 * 2 ^ roundShift p 1)
  have hdown := le_two_mul_roundHalfEven p (Nat.mul_pos Nat.one_pos (Nat.two_pow_pos (roundShift p 1)))
  rw [fMag_of_pattern _ _ _ hr (le_significand p 1) hbits]
  rw [Nat.one_mul] at hup hdown ⊢
  omega

/-- Below 360 the last bit kept stands for at most `2^134` units, which is `2^-15`. -/
theorem roundShift_le_of_le_f360 {p : Nat} (h : p ≤ fMag f360) : roundShift p 1 ≤ 134 := by
  have hm := roundShift_mono 1 h
  rwa [show roundShift (fMag f360) 1 = 134 by decide +kernel] at hm

/-! ### The residue of an angle -/

theorem flt_of_isFinite {a b : F32} (ha : isFinite a = true) (hb : isFinite b = true) :
    flt a b = decide (fVal a < fVal b) := by
  simp [flt, isNaN_of_isFinite ha, isNaN_of_isFinite hb]

theorem natAbs_fVal (a : F32) : (fVal a).natAbs = fMag a := by
  cases h : fSign a <;> simp [fVal, h]

/-- The residue of an angle in `[0, 360)`, in units of `2^-149`. -/
def residue (a : F32) : Nat := (fVal a % fVal f360).toNat

theorem residue_cast (a : F32) : (residue a : Int) = fVal a % fVal f360 := by
  have := fMag_f360_pos
  exact Int.toNat_of_nonneg (Int.emod_nonneg _ (by rw [fVal_f360]; omega))

theorem residue_lt (a : F32) : residue a < fMag f360 := by
  have h := Int.emod_lt_of_pos (fVal a) (show 0 < fVal f360 by rw [fVal_f360]; exact_mod_cast fMag_f360_pos)
  rw [← residue_cast, fVal_f360] at h
  exact_mod_cast h

theorem residue_of_nonneg {a : F32} (h : 0 ≤ fVal a) : residue a = fMag a % fMag f360 := by
  have ha : fVal a = (fMag a : Int) := by rw [← natAbs_fVal]; omega
  rw [residue, ha, fVal_f360]
  norm_cast

/-- Below 0 the residue is what is missing from the remainder to one turn. -/
theorem residue_of_neg {a : F32} (h : fVal a < 0) :
    residue a = if fMag a % fMag f360 = 0 then 0 else fMag f360 - fMag a % fMag f360 := by
  have ha : fVal a = -(fMag a : Int) := by rw [← natAbs_fVal]; omega
  have hlt := Nat.mod_lt (fMag a) fMag_f360_pos
  have hdiv : (fMag f360 * (fMag a / fMag f360) + fMag a % fMag f360 : Int) = fMag a := by
    exact_mod_cast Nat.div_add_mod (fMag a) (fMag f360)
  rw [residue, ha, fVal_f360, ← hdiv]
  split
  · next h0 =>
    rw [show ((fMag a : Int) % fMag f360) = 0 by exact_mod_cast h0, add_zero, ← Int.mul_neg, Int.mul_emod_right]
    rfl
  · next h0 =>
    have hturn : -((fMag f360 : Int) * (fMag a / fMag f360) + fMag a % fMag f360) =
        ((fMag f360 - fMag a % fMag f360 : Nat) : Int) + fMag f360 * (-(fMag a / fMag f360) - 1) := by
      push_cast [hlt.le]
      ring
    rw [hturn, Int.add_mul_emod_self_left]
    norm_cast
    exact Nat.mod_eq_of_lt (by omega)

/-! ### `WRAP` (R206) -/

/-- A zero is made `+0.0`; a number without sign stays. -/
theorem signless_zero {neg : Bool} {m : Nat} (hm : m < 2 ^ 31) (h : neg = true → m = 0) :
    (if isZero (pack neg m) then fZero else pack neg m) = pack false m := by
  rw [isZero, fMagBits_pack neg hm]
  by_cases h0 : m = 0
  · rw [h0]; rfl
  · have hneg : neg = false := Bool.eq_false_iff.mpr (mt h h0)
    simp [h0, hneg]

/-- The first three lines of `WRAP` (R206): the remainder, one turn more where it is below 0, and no `-0.0`. -/
def turnAngle (a : F32) : F32 :=
  let r := rem360 a
  let r := if flt r fZero then fadd r f360 else r
  if isZero r then fZero else r

/-- The remainder has the sign of the angle, so where it is below 0 the sum with one turn is the residue. -/
theorem fVal_rem360_add_turn {a : F32} (ha : isFinite a = true) (hneg : fVal (rem360 a) < 0) :
    fVal (rem360 a) + fVal f360 = residue a ∧ 0 < residue a := by
  have hle := Nat.mod_le (fMag a) (fMag f360)
  have hlt := Nat.mod_lt (fMag a) fMag_f360_pos
  cases hs : fSign a with
  | false => rw [fVal_of_fSign_false ((fSign_rem360 a).trans hs)] at hneg; omega
  | true =>
    rw [fVal_of_fSign_true ((fSign_rem360 a).trans hs), fMag_rem360 ha] at hneg ⊢
    have hlow : fVal a < 0 := by rw [fVal_of_fSign_true hs]; omega
    rw [residue_of_neg hlow, if_neg (by omega), fVal_f360]
    omega

/-- Where the remainder is not below 0, it is itself the residue, and `-0.0` is the only remainder with a sign. -/
theorem residue_of_rem360_nonneg {a : F32} (ha : isFinite a = true) (hnn : 0 ≤ fVal (rem360 a)) :
    residue a = fMag a % fMag f360 ∧ (fSign a = true → fMag a % fMag f360 = 0) := by
  have hzero : fSign a = true → fMag a % fMag f360 = 0 := fun hs => by
    rw [fVal_of_fSign_true ((fSign_rem360 a).trans hs), fMag_rem360 ha] at hnn
    omega
  refine ⟨?_, hzero⟩
  rcases lt_or_ge (fVal a) 0 with hlow | hge
  · have hs : fSign a = true := by
      by_contra hs
      rw [fVal_of_fSign_false (Bool.eq_false_iff.mpr hs)] at hlow
      omega
    rw [residue_of_neg hlow, if_pos (hzero hs), hzero hs]
  · exact residue_of_nonneg hge

/-- The first three lines of `WRAP` compute the residue of the angle, rounded once. -/
theorem turnAngle_eq {a : F32} (ha : isFinite a = true) : turnAngle a = pack false (roundMag (residue a) 1) := by
  have hbits := roundMag_le_f360 (Nat.mod_lt (fMag a) fMag_f360_pos).le
  have hfin : isFinite (rem360 a) = true := isFinite_pack _ (hbits.trans_lt (by decide))
  rw [turnAngle, flt_of_isFinite hfin isFinite_fZero, fVal_fZero]
  by_cases hneg : fVal (rem360 a) < 0
  · obtain ⟨hsum, hpos⟩ := fVal_rem360_add_turn ha hneg
    rw [if_pos (decide_eq_true hneg), fadd_of_isFinite hfin isFinite_f360,
      addNumbers_of_sum_ne_zero hfin isFinite_f360 (by omega), hsum, Int.natAbs_natCast]
    exact signless_zero (roundMag_lt _ _) fun h => absurd (of_decide_eq_true h) (by omega)
  · obtain ⟨hres, hzero⟩ := residue_of_rem360_nonneg ha (by omega)
    have hbits0 : fSign a = true → roundMag (fMag a % fMag f360) 1 = 0 := fun hs => by rw [hzero hs, roundMag_zero]
    simp only [decide_eq_false hneg, Bool.false_eq_true, if_false, hres]
    exact signless_zero (roundMag_lt _ _) hbits0

/-- The last two lines of `WRAP` (R206): what `ANGLE_WRAP` makes of the angle in one turn. -/
def atTurnEnds (w : AngleWrap) (a r : F32) : F32 :=
  let r := if r = f360 ∧ w = .halfOpen then fZero else r
  if r = fZero ∧ fgt a fZero ∧ w = .closed then f360 else r

theorem wrapAngle_eq (w : AngleWrap) (a : F32) : wrapAngle w a = atTurnEnds w a (turnAngle a) := rfl

/-- `half_open` turns a rounded 360 into 0. -/
theorem wrapAngle_halfOpen (a : F32) :
    wrapAngle .halfOpen a = if turnAngle a = f360 then fZero else turnAngle a := by
  simp [wrapAngle_eq, atTurnEnds]

/-- `closed` turns the 0 of an angle above 0 into 360. -/
theorem wrapAngle_closed (a : F32) :
    wrapAngle .closed a = if turnAngle a = fZero ∧ fgt a fZero = true then f360 else turnAngle a := by
  simp [wrapAngle_eq, atTurnEnds]

theorem toNat_turnAngle_le {a : F32} (ha : isFinite a = true) : (turnAngle a).toNat ≤ f360.toNat := by
  rw [turnAngle_eq ha, toNat_pack false (roundMag_lt _ _)]
  simpa using roundMag_le_f360 (residue_lt a).le

theorem toNat_wrapAngle_le (w : AngleWrap) {a : F32} (ha : isFinite a = true) : (wrapAngle w a).toNat ≤ f360.toNat := by
  cases w with
  | halfOpen =>
    rw [wrapAngle_halfOpen]
    split
    · decide
    · exact toNat_turnAngle_le ha
  | closed =>
    rw [wrapAngle_closed]
    split
    · exact le_rfl
    · exact toNat_turnAngle_le ha

theorem toNat_wrapAngle_halfOpen_lt {a : F32} (ha : isFinite a = true) :
    (wrapAngle .halfOpen a).toNat < f360.toNat := by
  rw [wrapAngle_halfOpen]
  split
  · decide
  · next hne => exact (toNat_turnAngle_le ha).lt_of_ne (mt BitVec.eq_of_toNat_eq hne)

/-- `WRAP` run on its own hands its value over and writes no register (log 19). -/
theorem exec_wrap {a : F32} (ha : isFinite a = true) (s : State) :
    exec (.wrap a) s = .next (s.leaving s.regs (s.ports.ended s.ports.pins s.ports.rspData)
      ⟨[], none, [wrapAngle cfg.angleWrap a]⟩) :=
  (if_pos ha).trans (congrArg Host.Outcome.next (s.accept_finish_leaving s.regs _))

/-- Settles O16: the residue is rounded to at most 360, and `half_open` never leaves 360. -/
theorem wrapResultStaysInOneTurn : Obligations.WrapResultStaysInOneTurn := fun s _ ha =>
  ⟨_, _, toNat_wrapAngle_le cfg.angleWrap ha, fun hw => hw ▸ toNat_wrapAngle_halfOpen_lt ha, exec_wrap ha s⟩

theorem fVal_turnAngle {a : F32} (ha : isFinite a = true) : fVal (turnAngle a) = fMag (pack false (roundMag (residue a) 1)) := by
  rw [turnAngle_eq ha, fVal_of_fSign_false (fSign_pack false (roundMag_lt _ _))]

/-- An angle that is not negative is wrapped without rounding error. -/
theorem fVal_turnAngle_of_nonneg {a : F32} (ha : isFinite a = true) (h : 0 ≤ fVal a) :
    fVal (turnAngle a) = fVal a % fVal f360 := by
  rw [fVal_turnAngle ha, residue_of_nonneg h, fMag_roundMag_mod ha, ← residue_of_nonneg h, residue_cast]

theorem turnAngle_eq_fZero_iff {a : F32} (ha : isFinite a = true) (h : 0 ≤ fVal a) :
    turnAngle a = fZero ↔ fVal a % fVal f360 = 0 := by
  constructor
  · intro he
    rw [← fVal_turnAngle_of_nonneg ha h, he, fVal_fZero]
  · intro he
    have hres : residue a = 0 := by exact_mod_cast (residue_cast a).trans he
    rw [turnAngle_eq ha, hres, roundMag_zero]
    rfl

theorem fgt_fZero_iff {a : F32} (ha : isFinite a = true) : fgt a fZero = true ↔ 0 < fVal a := by
  rw [fgt, flt_of_isFinite isFinite_fZero ha, fVal_fZero, decide_eq_true_iff]

/-- Settles O17: `half_open` finds no 360 to turn into 0, and `closed` finds a 0 exactly at the multiples of 360. -/
theorem wrapOfNonnegativeAngleIsExactRemainder : Obligations.WrapOfNonnegativeAngleIsExactRemainder := by
  intro w a ha h
  cases w with
  | halfOpen =>
    have hne : turnAngle a ≠ f360 := fun he => by
      have hval := fVal_turnAngle_of_nonneg ha h
      have hlt := residue_lt a
      rw [he, ← residue_cast, fVal_f360] at hval
      omega
    rw [wrapAngle_halfOpen, if_neg hne, fVal_turnAngle_of_nonneg ha h, if_neg (by simp)]
  | closed =>
    simp only [wrapAngle_closed, turnAngle_eq_fZero_iff ha h, fgt_fZero_iff ha, true_and]
    by_cases hturn : fVal a % fVal f360 = 0 ∧ 0 < fVal a
    · rw [if_pos hturn, if_pos hturn.symm]
    · rw [if_neg hturn, if_neg (mt And.symm hturn), fVal_turnAngle_of_nonneg ha h]

/-- Settles O18: `closed` leaves a negative angle's rounded residue as it is, and `half_open` changes only 360. -/
theorem wrapOfNegativeAngleAddsOneTurn : Obligations.WrapOfNegativeAngleAddsOneTurn := by
  intro a ha hneg
  have hclosed : wrapAngle .closed a = turnAngle a := by
    rw [wrapAngle_closed, if_neg fun ⟨_, hpos⟩ => absurd ((fgt_fZero_iff ha).mp hpos) (by omega)]
  obtain ⟨hup, hdown⟩ := fMag_roundMag_error (k := 133) (roundShift_le_of_le_f360 (residue_lt a).le) (by decide)
  rw [hclosed, wrapAngle_halfOpen, fVal_turnAngle ha, ← residue_cast, abs_le]
  exact ⟨by omega, rfl⟩

/-- Settles O41: the value is the next free one. -/
theorem wrapOfNonFiniteAngleCompletes : Obligations.WrapOfNonFiniteAngleCompletes := fun s _ ha =>
  ⟨Config.freeWord s.free, s.ports.rspData, s.free + 1, if_neg (by simp [ha])⟩

end Sys2Proof.Machine
end

section
/-! PROOF. What the host asks of the block, in every mode (`45_mode_facade.md` R206 to R209, R213): the angle, `IS_CONFIGURED`, the
diagnostic registers; and a `TICK` where there is no serial decoder. -/

namespace Sys2Proof.Machine

/-- An operation that only responds leaves everything else as it was (R68, R83). -/
theorem State.respond_finish (v : U32) (s : State) :
    (s.accept.respond v).finish = s.leaving s.regs (s.ports.responded v) ⟨[.pulse .rspValid], none, []⟩ := rfl

/-! ### `READ_ANGLE` (R206, R187) -/

/-- Outside `Quadrature` mode the response is the wrap of `LAST_ANGLE`. -/
theorem exec_readAngle_wrapped {s : State} (hm : s.regs.mode ≠ .quadrature) (hf : isFinite s.regs.lastAngle = true) :
    exec .readAngle s = .next (s.leaving s.regs (s.ports.responded (wrapAngle cfg.angleWrap s.regs.lastAngle))
      ⟨[.pulse .rspValid], none, []⟩) := by
  rw [exec_readAngle_cached s hm, State.respondAngle_of_isFinite cfg hf, State.respond_finish]

/-- Settles O13. -/
theorem readAngleRespondsWrappedLastAngle : Obligations.ReadAngleRespondsWrappedLastAngle := fun _ hm hf =>
  ⟨[.pulse .rspValid], rfl, exec_readAngle_wrapped hm hf⟩

/-- A response after free values were used, and after one count was drawn. -/
theorem State.respond_finish_free (v : U32) (k : Nat) (s : State) :
    (({ s.accept with free := k } : State).respond v).finish =
      { s.leaving s.regs (s.ports.responded v) ⟨[.pulse .rspValid], none, []⟩ with free := k } := rfl

theorem State.drawQcnt_respond_finish_free (v : U32) (k : Nat) (s : State) :
    (({ s.accept.drawQcnt.2 with free := k } : State).respond v).finish =
      { s.leaving s.regs (s.ports.responded v) ⟨[.readQcnt s.qcntNext, .pulse .rspValid], none, []⟩ with
        env := { s.env with qcnt := s.env.qcnt.drop 1 }, free := k } := by
  rw [State.drawQcnt_eq]
  rfl

/-- Settles O15: whether the angle is a count's or `LAST_ANGLE`, and whatever it is, one value is given as response. -/
theorem readAngleNeverFails : Obligations.ReadAngleNeverFails := by
  intro s
  by_cases hm : s.regs.mode = .quadrature
  · by_cases hc : cprLegal s.regs.cpr = true
    · obtain ⟨v, k, e, -⟩ := s.accept.drawQcnt.2.respondAngle_cases cfg
        (quadAngle s.accept.drawQcnt.1 s.accept.drawQcnt.2.regs.cpr)
      rw [exec_readAngle_quadrature s hm hc, e, State.drawQcnt_respond_finish_free]
      exact ⟨v, _, _, k, rfl, rfl⟩
    · rw [exec_readAngle_illegalCpr s hm hc]
      exact ⟨_, _, _, _, rfl, congrArg Host.Outcome.next (s.drawQcnt_respond_finish_free _ _)⟩
  · obtain ⟨v, k, e, -⟩ := s.accept.respondAngle_cases cfg s.regs.lastAngle
    rw [exec_readAngle_cached s hm, e, State.respond_finish_free]
    exact ⟨v, _, s.env.qcnt, k, rfl, rfl⟩

/-! ### No count reaches the sin/cos mode (R213) -/

theorem State.configCounterFor_env (cpr : U32) (s : State) : (s.configCounterFor cpr).env = s.env := by
  unfold State.configCounterFor
  split <;> rfl

theorem wrapAngle_fZero (w : AngleWrap) : wrapAngle w fZero = fZero := by
  cases w <;> decide +kernel

/-- Settles O9: `INIT_SINCOS` puts `LAST_ANGLE` at its default, and the response is the wrap of that. -/
theorem noQuadratureLeakIntoSincos : Obligations.NoQuadratureLeakIntoSincos := by
  intro s cpr sg so cg co k
  obtain ⟨t1, e1, henv⟩ : ∃ t1, exec (.initQuad cpr) s = .next t1 ∧ t1.env = s.env :=
    ⟨_, rfl, s.accept.configCounterFor_env cpr⟩
  obtain ⟨t2, e2, hmode, hangle, henv2, hfree2⟩ : ∃ t2, exec (.initSincos sg so cg co k) t1 = .next t2 ∧
      t2.regs.mode = .sinCosAnalog ∧ t2.regs.lastAngle = fZero ∧ t2.env = t1.env ∧ t2.free = t1.free :=
    ⟨_, rfl, rfl, rfl, rfl, rfl⟩
  have e3 := exec_readAngle_wrapped (s := t2) (by simp [hmode]) (by rw [hangle]; decide)
  refine ⟨t1, t2, _, e1, e2, e3, rfl, ?_, henv2.trans henv, hfree2⟩
  show wrapAngle cfg.angleWrap t2.regs.lastAngle = 0
  rw [hangle, wrapAngle_fZero]
  rfl

/-! ### `IS_CONFIGURED` and `RD_DIAG` (R207, R208) -/

theorem zext1_isConfigured (m : Mode) : zext1 (isConfigured m) = if m = .none then 0 else 1 := by
  cases m <;> rfl

/-- Settles O11. -/
theorem isConfiguredRespondsModeNotNone : Obligations.IsConfiguredRespondsModeNotNone :=
  ⟨fun m p h => by simp [decode, decodeCommand, h], fun s =>
    ⟨[.pulse .rspValid], rfl, zext1_isConfigured s.regs.mode ▸ congrArg Host.Outcome.next (s.respond_finish _)⟩⟩

theorem toNat_zext16 (w : U16) : (zext16 w).toNat = w.toNat := BitVec.toNat_setWidth_of_le (by decide)

theorem diagValue_of_ge (r : Regs) {idx : U32} (h : 7 ≤ idx.toNat) : diagValue r idx = 0 := by
  unfold diagValue
  split
  case h_8 => rfl
  all_goals omega

/-- Settles O12: each index reads its own register. -/
theorem rdDiagRespondsIndexedRegister : Obligations.RdDiagRespondsIndexedRegister := by
  refine ⟨fun m p h => by simp [decode, decodeCommand, h], fun s idx => ?_⟩
  refine ⟨diagValue s.regs idx, [.pulse .rspValid], rfl, congrArg Host.Outcome.next (s.respond_finish _),
    ?_, ?_, ?_, ?_, ?_, ?_, ?_, diagValue_of_ge s.regs⟩
  · rintro rfl
    exact toNat_zext16 s.regs.spiVal
  all_goals rintro rfl; rfl

/-! ### `TICK` without a serial decoder (R209) -/

/-- Settles O19. -/
theorem tickWithoutSerialDecoderDoesNothing : Obligations.TickWithoutSerialDecoderDoesNothing := fun s ha hr =>
  leaves_of_noEffect (congrArg (fun u : State => Host.Outcome.next u.finish) (s.accept.tick_other cfg ha hr))

end Sys2Proof.Machine
end

section
/-! PROOF. The smoothing filter and the fault counters (`46_smoothing_filter.md` R230 to R232, R234, R235; log 11, log 25). -/

namespace Sys2Proof.Machine

/-! ### `LPF` run on its own (R230; log 19) -/

theorem exec_lpf (v t k : F32) (s : State) :
    exec (.lpf v t k) s =
      .next (s.leaving s.regs (s.ports.ended s.ports.pins s.ports.rspData) ⟨[], none, [lpfStep v t k]⟩) := by rfl

/-- Settles O37. -/
theorem lpfIsThreeRoundings : Obligations.LpfIsThreeRoundings := fun s v t k => ⟨s.ports.rspData, exec_lpf v t k s⟩

/-! ### The fixed point (R235) -/

theorem fmul_of_isFinite {a b : F32} (ha : isFinite a = true) (hb : isFinite b = true) :
    fmul a b = pack (fSign a != fSign b) (roundMag (fMag a * fMag b) (2 ^ 149)) := by
  simp [fmul, isNaN_of_isFinite ha, isNaN_of_isFinite hb, isInf_of_isFinite ha, isInf_of_isFinite hb]

/-- The difference of a finite number and itself is `+0.0`. -/
theorem fsub_self {a : F32} (ha : isFinite a = true) : fsub a a = fZero := by
  have hneg : isFinite (fneg a) = true := by rwa [isFinite_fneg]
  have hsum : fVal a + fVal (fneg a) = 0 := by rw [fVal_fneg, add_neg_cancel]
  rw [fsub_of_isFinite ha ha, addNumbers_of_sum_zero ha hneg hsum, fSign_fneg, Bool.and_not_self]
  rfl

/-- A product with `+0.0` is one of the two zeros. -/
theorem fmul_fZero_left {k : F32} (hk : isFinite k = true) :
    isFinite (fmul fZero k) = true ∧ fVal (fmul fZero k) = 0 := by
  rw [fmul_of_isFinite isFinite_fZero hk, show fMag fZero = 0 by decide, Nat.zero_mul, roundMag_zero]
  exact ⟨isFinite_pack _ (by decide), fVal_pack_zero _⟩

/-- A sum with a zero keeps the value; `-0.0` may become `+0.0` (log 25). -/
theorem fadd_of_fVal_eq_zero {a b : F32} (ha : isFinite a = true) (hb : isFinite b = true) (h : fVal b = 0) :
    isFinite (fadd a b) = true ∧ fVal (fadd a b) = fVal a := by
  have hsum : fVal a + fVal b = fVal a := by rw [h, add_zero]
  rw [fadd_of_isFinite ha hb]
  by_cases h0 : fVal a = 0
  · rw [addNumbers_of_sum_zero ha hb (hsum.trans h0), fVal_pack_zero]
    exact ⟨isFinite_pack _ (by decide), h0.symm⟩
  · rw [addNumbers_of_sum_ne_zero ha hb (by rwa [hsum]), hsum, pack_roundMag_fVal ha h0]
    exact ⟨ha, rfl⟩

/-- Settles O38: at the target the difference is 0, so the product is, and the sum keeps the value. -/
theorem lpfTargetIsFixedPoint : Obligations.LpfTargetIsFixedPoint := by
  intro t k ht hk
  obtain ⟨hfin, hzero⟩ := fmul_fZero_left hk
  rw [lpfStep, fsub_self ht]
  exact fadd_of_fVal_eq_zero ht hfin hzero

/-! ### The direction of a step from a rate (R234) -/

/-- A rate is the rounding of its own value. -/
theorem rateOk.toNat_eq_roundMag {r : F32} (h : rateOk r) : r.toNat = roundMag (fVal r).toNat 1 := by
  have hlt : r.toNat < 2 ^ 31 := by unfold rateOk at h; omega
  rw [fVal_of_fSign_false h.fSign_eq, Int.toNat_natCast, roundMag_fMag r h.isFinite, fMagBits_of_lt hlt]

/-- A sum of a rate that is not below 0 is rounded once and carries no sign, also where it is 0. -/
theorem toNat_fadd_rate {r x : F32} (hr : rateOk r) (hx : isFinite x = true) (h0 : 0 ≤ fVal r + fVal x) :
    (fadd r x).toNat = roundMag (fVal r + fVal x).toNat 1 := by
  rw [fadd_of_isFinite hr.isFinite hx]
  by_cases hz : fVal r + fVal x = 0
  · rw [addNumbers_of_sum_zero hr.isFinite hx hz, hr.fSign_eq, hz, Int.toNat_zero, roundMag_zero]
    rfl
  · have habs : (fVal r + fVal x).natAbs = (fVal r + fVal x).toNat := by omega
    rw [addNumbers_of_sum_ne_zero hr.isFinite hx hz, toNat_pack _ (roundMag_lt _ _), habs,
      decide_eq_false (by omega : ¬ fVal r + fVal x < 0), if_neg Bool.false_ne_true, Nat.zero_add]

/-- A step from a rate toward a target above it does not go down: the sum is at least the rate, and rounding is monotone. -/
theorem le_toNat_lpfStep {r t k : F32} (hr : rateOk r) (hk : inUnit k = true) (hfin : isFinite (fsub t r) = true)
    (h : 0 ≤ fVal (fsub t r)) : r.toNat ≤ (lpfStep r t k).toNat := by
  obtain ⟨hpfin, hplo, -⟩ := fmul_inUnit_bounds hfin hk
  have h0 := hr.fVal_bounds.1
  rw [lpfStep, toNat_fadd_rate hr hpfin (by omega), hr.toNat_eq_roundMag]
  exact roundMag_mono 1 Nat.one_pos (by omega)

/-- A step from a rate toward a target below it, but not below 0, does not go up. -/
theorem toNat_lpfStep_le {r t k : F32} (hr : rateOk r) (hk : inUnit k = true) (hfin : isFinite (fsub t r) = true)
    (hlo : -fVal r ≤ fVal (fsub t r)) (hhi : fVal (fsub t r) ≤ 0) : (lpfStep r t k).toNat ≤ r.toNat := by
  obtain ⟨hpfin, hplo, hphi⟩ := fmul_inUnit_bounds hfin hk
  have h0 := hr.fVal_bounds.1
  rw [lpfStep, toNat_fadd_rate hr hpfin (by omega), hr.toNat_eq_roundMag]
  exact roundMag_mono 1 Nat.one_pos (by omega)

/-- Settles O39: 1 is not below a rate, and 0 not above it. -/
theorem lpfMovesRateTowardTarget : Obligations.LpfMovesRateTowardTarget := by
  intro v k hv hk
  obtain ⟨hfin1, hlo1, hhi1⟩ := fsub_fOne_rate_bounds hv
  obtain ⟨hfin0, hval0⟩ := fVal_fsub_fZero_rate hv
  have h0 := hv.fVal_bounds.1
  exact ⟨le_toNat_lpfStep hv hk hfin1 hlo1, rateOk_lpfStep hv hk hfin1 (by omega) hhi1,
    toNat_lpfStep_le hv hk hfin0 hval0.ge (by omega)⟩

/-! ### The fault counters (R231, R232; U1) -/

/-- A counter stays, or counts one more fault. -/
def counterSteps (before after : U32) : Prop := after = before ∨ countsOneMore before after

/-- Each of the three fault counters stays, or counts one more fault. -/
def Regs.CountersStep (r r' : Regs) : Prop :=
  counterSteps r.spiErrCnt r'.spiErrCnt ∧ counterSteps r.scBelowCnt r'.scBelowCnt ∧ counterSteps r.scAboveCnt r'.scAboveCnt

theorem counterSteps.stays_or_top_or_succ {before after : U32} (h : counterSteps before after) :
    after = before ∨ before = 0xFFFFFFFF#32 ∨ after = before + 1 := by
  rcases h with he | hone
  · exact .inl he
  · exact .inr (or_iff_not_imp_left.mpr hone)

theorem Regs.CountersStep.refl (r : Regs) : r.CountersStep r := ⟨.inl rfl, .inl rfl, .inl rfl⟩

/-- An accepted sample writes no counter. Cite this for a computed angle: by `rfl` the kernel would compute the angle. -/
theorem Regs.countersStep_decoded (r : Regs) (a spiRate belowRate aboveRate : F32) (w : U16) :
    r.CountersStep { r with
      lastAngle := a, spiVal := w, spiErrRate := spiRate, scBelowRate := belowRate, scAboveRate := aboveRate } :=
  ⟨.inl rfl, .inl rfl, .inl rfl⟩

theorem State.receiveAbs_countersStep (c : Cfg) (w : U16) (s : State) :
    s.regs.CountersStep (s.receiveAbs c w).regs := by
  cases h : absAccepted w with
  | true =>
    rw [State.receiveAbs_accepted c w s h]
    exact s.regs.countersStep_decoded ..
  | false =>
    obtain ⟨n, k, e, hn, -⟩ := State.receiveAbs_rejected_eq c s h
    rw [e]
    exact ⟨.inr hn, .inl rfl, .inl rfl⟩

theorem State.receiveRes_countersStep (c : Cfg) (w : U16) (s : State) :
    s.regs.CountersStep (s.receiveRes c w).regs := by
  cases h : resHealthy c w with
  | true =>
    rw [State.receiveRes_healthy c w s h]
    exact s.regs.countersStep_decoded ..
  | false => rw [State.receiveRes_unhealthy c w s h]; exact .refl s.regs

theorem State.sincosSample_countersStep (c : Cfg) (a b : F32) (s : State) :
    s.regs.CountersStep (s.sincosSample c a b).regs := by
  by_cases hm : s.regs.mode = .sinCosAnalog
  · rcases s.sincosSample_cases c a b hm with h | h | ⟨sn, cs, h⟩
    · obtain ⟨n, k, e, hn, -⟩ := s.raiseFault_aboveMax c
      rw [h, e]
      exact ⟨.inl rfl, .inl rfl, .inr hn⟩
    · obtain ⟨n, k, e, hn, -⟩ := s.raiseFault_belowMin c
      rw [h, e]
      exact ⟨.inl rfl, .inr hn, .inl rfl⟩
    · rw [h, State.acceptSincos_eq]
      exact s.regs.countersStep_decoded ..
  · rw [s.sincosSample_of_mode_ne c a b hm]
    exact .refl s.regs

/-- A `TICK` decodes at most one word, and its transfer writes no register. -/
theorem State.tick_countersStep (c : Cfg) (s : State) (hp : s.hid.resPos = .idle) :
    s.regs.CountersStep (s.tick c).regs := by
  by_cases ha : s.regs.mode = .absoluteSpi
  · have h := State.receiveAbs_countersStep c (s.xferWord c (some [absCmdWord])).1 (s.xferWord c (some [absCmdWord])).2
    rw [State.xferWord_regs] at h
    rwa [s.tick_abs c ha]
  by_cases hr : s.regs.mode = .resolverSpi
  · have h := State.receiveRes_countersStep c ((s.controlLines c).xferWord c none).1 ((s.controlLines c).xferWord c none).2
    have hregs : (s.controlLines c).regs = s.regs := by rw [State.controlLines_eq c s hp, State.acts_regs]
    rw [State.xferWord_regs, hregs] at h
    rwa [s.tick_res c hr]
  · rw [s.tick_other c ha hr]
    exact .refl s.regs

/-- The operation completes, and its counters step. -/
def StepsCounters (i : Instr) (s : State) : Prop := ∃ u : State, exec i s = .next u.finish ∧ s.regs.CountersStep u.regs

/-- An operation that writes no register. -/
theorem stepsCounters_of_regs_eq {i : Instr} {s : State} (u : State) (he : exec i s = .next u.finish)
    (hr : u.regs = s.regs) : StepsCounters i s := ⟨u, he, hr ▸ .refl s.regs⟩

theorem readAngle_stepsCounters (s : State) : StepsCounters .readAngle s := by
  by_cases hm : s.regs.mode = .quadrature
  · by_cases hc : cprLegal s.regs.cpr = true
    · exact stepsCounters_of_regs_eq _ (exec_readAngle_quadrature s hm hc) (by simp)
    · exact stepsCounters_of_regs_eq _ (exec_readAngle_illegalCpr s hm hc) (by simp)
  · exact stepsCounters_of_regs_eq _ (exec_readAngle_cached s hm) (by simp)

/-- An operation with two arms, neither of which does more than step the counters: a frame acts in one mode only (log 16), and `WRAP`
answers a free value for an angle that is not finite (log 14). -/
theorem stepsCounters_of_ite {i : Instr} {s : State} (p : Prop) [Decidable p] (u v : State)
    (he : exec i s = if p then .next u.finish else .next v.finish) (hu : s.regs.CountersStep u.regs)
    (hv : s.regs.CountersStep v.regs) : StepsCounters i s := by
  by_cases hp : p
  · exact ⟨u, he.trans (if_pos hp), hu⟩
  · exact ⟨v, he.trans (if_neg hp), hv⟩

/-- A one-word transfer on its own writes no register. -/
theorem State.countersStep_xferWord (c : Cfg) (out : Option (List U16)) (ws : List U32) (s : State) :
    s.regs.CountersStep ((s.xferWord c out).2.giveResult ws).regs := by
  rw [State.giveResult_regs, State.xferWord_regs]
  exact .refl s.regs

/-- Only a word decoded and a sample taken reach a counter; no other operation but a mode command writes one. -/
theorem exec_stepsCounters {i : Instr} (h : modeRegs i = none) (s : State) : StepsCounters i s := by
  cases i with
  | initQuad _ | initAbs | initRes | initSincos _ _ _ _ _ | deinit => cases h
  | setCounts cpr => exact ⟨s.accept.withRegs { s.regs with cpr := cpr }, rfl, .inl rfl, .inl rfl, .inl rfl⟩
  | isConfigured | rdDiag _ => exact stepsCounters_of_regs_eq _ rfl rfl
  | readAngle => exact readAngle_stepsCounters s
  | reserved0 | reservedA | reservedB | reservedC | reservedD | reservedE | reservedF =>
    exact stepsCounters_of_regs_eq s.accept rfl rfl
  | tick => exact ⟨_, rfl, s.accept.tick_countersStep cfg rfl⟩
  | index => exact stepsCounters_of_regs_eq _ rfl (s.accept.indexPulse_regs cfg)
  | sincosSample rs rc => exact ⟨_, exec_sincosSample rs rc s, s.accept.sincosSample_countersStep cfg rs rc⟩
  | absCmd =>
    exact stepsCounters_of_ite (s.regs.mode = .absoluteSpi) _ s.accept rfl
      (s.accept.countersStep_xferWord cfg (some [absCmdWord]) _) (.refl s.regs)
  | absReply w =>
    exact stepsCounters_of_ite (s.regs.mode = .absoluteSpi) _ s.accept rfl (s.accept.receiveAbs_countersStep cfg w)
      (.refl s.regs)
  | resCmd =>
    exact stepsCounters_of_ite (s.regs.mode = .resolverSpi) _ s.accept rfl (s.accept.countersStep_xferWord cfg none _)
      (.refl s.regs)
  | resReply w =>
    exact stepsCounters_of_ite (s.regs.mode = .resolverSpi) _ s.accept rfl (s.accept.receiveRes_countersStep cfg w)
      (.refl s.regs)
  | xfer out n =>
    exact stepsCounters_of_regs_eq ((s.accept.xfer cfg out n).2.giveResult ((s.accept.xfer cfg out n).1.map zext16)) rfl
      (by simp)
  | maj5 _ _ _ _ _ | parity16 _ | lpf _ _ _ | atan2deg _ _ => exact stepsCounters_of_regs_eq _ rfl rfl
  | wrap a =>
    exact stepsCounters_of_ite (isFinite a = true) (s.accept.giveResult [wrapAngle cfg.angleWrap a])
      (s.accept.takeFree.2.giveResult [s.accept.takeFree.1]) rfl (.refl s.regs) (.refl s.regs)

/-- Settles O45: every operation but a mode command steps its counters. -/
theorem faultCountersStepByOne : Obligations.FaultCountersStepByOne := by
  intro i s t hi h
  have hmode : modeRegs i = none := by
    cases i with
    | initQuad _ | initAbs | initRes | initSincos _ _ _ _ _ | deinit => exact hi.elim
    | _ => rfl
  obtain ⟨u, he, hspi, hbelow, habove⟩ := exec_stepsCounters hmode s
  obtain rfl := Host.Outcome.next.inj (he.symm.trans h)
  simp only [List.forall_mem_cons]
  exact ⟨hspi.stays_or_top_or_succ, hbelow.stays_or_top_or_succ, habove.stays_or_top_or_succ, by simp⟩

end Sys2Proof.Machine
end

section
/-! PROOF. Events, faults and their order (`60_exceptions.md` R251, R260 to R264): every operation completes, a faulty sample holds the
angle, and the arrivals of a cycle are served in turn. -/

namespace Sys2Proof.Machine

/-! ### Every operation completes (R262, R39) -/

/-- A mode command ends in its mode and any other operation in the present one; both end by `State.finish`. -/
theorem exec_finishes (i : Instr) (s : State) : ∃ u : State, exec i s = .next u.finish := by
  cases hr : modeRegs i with
  | some r =>
    obtain ⟨u, he⟩ := exec_modeRegs hr s
    exact ⟨u.enterMode r, he⟩
  | none =>
    obtain ⟨u, he, -⟩ := exec_runsInMode hr s
    exact ⟨u, he⟩

/-- Settles O42: the end of an operation is what makes the hidden state idle. -/
theorem everyOperationCompletes : Obligations.EveryOperationCompletes := by
  intro i s
  obtain ⟨u, he⟩ := exec_finishes i s
  exact ⟨u.finish, he, u.finish_hid⟩

/-! ### The decoders hold the angle on a fault (R245, R251) -/

/-- If the outcome is a fault, `LAST_ANGLE` is what it was. -/
def State.HoldsAngle (s u : State) : Prop :=
  ∀ f : DecodeFault, u.out.outcome = some f.outcome → u.regs.lastAngle = s.regs.lastAngle

/-- No fault is the outcome of a good sample (R33). -/
theorem DecodeFault.outcome_ne_valid (f : DecodeFault) (a : F32) : f.outcome ≠ .valid a := by
  cases f <;> simp [DecodeFault.outcome]

theorem State.HoldsAngle.of_eq {s u : State} (h : u.regs.lastAngle = s.regs.lastAngle) : s.HoldsAngle u := fun _ _ => h

/-- A good sample may write any angle. -/
theorem State.HoldsAngle.of_valid {s u : State} {a : F32} (h : u.out.outcome = some (.valid a)) : s.HoldsAngle u :=
  fun f hf => absurd (Option.some.inj (hf.symm.trans h)) (f.outcome_ne_valid a)

@[simp] theorem State.raiseFault_lastAngle (c : Cfg) (f : DecodeFault) (s : State) :
    (s.raiseFault c f).regs.lastAngle = s.regs.lastAngle := by
  obtain ⟨r, k, e, hr⟩ := s.raiseFault_cases c f
  rw [e]
  rcases hr with ⟨-, n, -, rfl⟩ | ⟨-, rfl, -⟩ | ⟨-, n, -, rfl⟩ | ⟨-, n, -, rfl⟩ <;> rfl

theorem State.receiveAbs_holdsAngle (c : Cfg) (w : U16) (s : State) : s.HoldsAngle (s.receiveAbs c w) := by
  cases h : absAccepted w with
  | true => exact .of_valid (a := absAngle w) (by rw [State.receiveAbs_accepted c w s h])
  | false => exact .of_eq (by rw [State.receiveAbs_rejected c w s h, State.raiseFault_lastAngle, State.withRegs_regs])

theorem State.receiveRes_holdsAngle (c : Cfg) (w : U16) (s : State) : s.HoldsAngle (s.receiveRes c w) := by
  cases h : resHealthy c w with
  | true => exact .of_valid (a := resAngle w) (by rw [State.receiveRes_healthy c w s h])
  | false => exact .of_eq (by rw [State.receiveRes_unhealthy c w s h])

theorem State.sincosSample_holdsAngle (c : Cfg) (a b : F32) (s : State) : s.HoldsAngle (s.sincosSample c a b) := by
  by_cases hm : s.regs.mode = .sinCosAnalog
  · rcases s.sincosSample_cases c a b hm with e | e | ⟨sn, cs, e⟩
    · exact .of_eq (by rw [e, State.raiseFault_lastAngle])
    · exact .of_eq (by rw [e, State.raiseFault_lastAngle])
    · exact .of_valid (a := lpfStep s.regs.lastAngle (c.atan2deg sn cs) s.regs.scFilterK)
        (by rw [e, State.acceptSincos_eq])
  · exact .of_eq (by rw [s.sincosSample_of_mode_ne c a b hm])

/-- What comes before the decoding of a word writes no register. -/
theorem State.HoldsAngle.of_regs_eq {s v u : State} (h : v.HoldsAngle u) (hr : v.regs = s.regs) : s.HoldsAngle u :=
  fun f hf => hr ▸ h f hf

theorem State.tick_holdsAngle (c : Cfg) {s : State} (hp : s.hid.resPos = .idle) : s.HoldsAngle (s.tick c) := by
  by_cases ha : s.regs.mode = .absoluteSpi
  · rw [s.tick_abs c ha]
    exact (State.receiveAbs_holdsAngle c _ _).of_regs_eq (State.xferWord_regs ..)
  by_cases hr : s.regs.mode = .resolverSpi
  · have hlines : (s.controlLines c).regs = s.regs := by rw [State.controlLines_eq c s hp, State.acts_regs]
    rw [s.tick_res c hr]
    exact (State.receiveRes_holdsAngle c _ _).of_regs_eq ((State.xferWord_regs ..).trans hlines)
  · exact .of_eq (by rw [s.tick_other c ha hr])

/-! ### No other operation can show a fault and another angle (R251) -/

@[simp] theorem State.configCounterFor_out_outcome (cpr : U32) (s : State) :
    (s.configCounterFor cpr).out.outcome = s.out.outcome := by
  unfold State.configCounterFor
  split <;> simp

/-- A mode command takes no sample. -/
theorem exec_modeRegs_outcome {i : Instr} {r : Regs} (h : modeRegs i = some r) {s t : State} (ht : exec i s = .next t) :
    t.out.outcome = none := by
  cases i with
  | initQuad cpr =>
    obtain rfl := Host.Outcome.next.inj ht
    exact s.accept.configCounterFor_out_outcome cpr
  | initAbs | initRes | initSincos _ _ _ _ _ | deinit =>
    obtain rfl := Host.Outcome.next.inj ht
    rfl
  | _ => cases h

/-- The operation completes, and holds the angle on a fault. -/
def FaultHoldsAngle (i : Instr) (s : State) : Prop := ∃ u, exec i s = .next u ∧ s.HoldsAngle u

/-- An operation that leaves `LAST_ANGLE` whatever it decodes. -/
theorem faultHoldsAngle_of_lastAngle {i : Instr} {s : State} (u : State) (he : exec i s = .next u)
    (ha : u.regs.lastAngle = s.regs.lastAngle) : FaultHoldsAngle i s := ⟨u, he, .of_eq ha⟩

/-- A frame acts in the mode of its sensor, and does nothing elsewhere (log 16). -/
theorem faultHoldsAngle_of_frame {i : Instr} {s : State} (m : Mode) (u : State)
    (he : exec i s = if s.regs.mode = m then .next u.finish else .next s.accept.finish) (hu : s.HoldsAngle u) :
    FaultHoldsAngle i s := by
  by_cases hm : s.regs.mode = m
  · exact ⟨u.finish, he.trans (if_pos hm), hu⟩
  · exact faultHoldsAngle_of_lastAngle _ (he.trans (if_neg hm)) rfl

/-- A transfer on its own decodes nothing. -/
theorem State.xfer_holdsAngle (c : Cfg) (out : Option (List U16)) (n : Nat) (ws : List U32) (s : State) :
    s.HoldsAngle ((s.xfer c out n).2.giveResult ws) := .of_eq (by simp only [State.giveResult_regs, State.xfer_regs])

theorem State.xferWord_holdsAngle (c : Cfg) (out : Option (List U16)) (ws : List U32) (s : State) :
    s.HoldsAngle ((s.xferWord c out).2.giveResult ws) := s.xfer_holdsAngle c out 1 ws

theorem readAngle_faultHoldsAngle (s : State) : FaultHoldsAngle .readAngle s := by
  obtain ⟨v, tr, qs, k, -, he⟩ := readAngleNeverFails s
  exact faultHoldsAngle_of_lastAngle _ he rfl

theorem wrap_faultHoldsAngle (a : F32) (s : State) : FaultHoldsAngle (.wrap a) s := by
  by_cases hf : isFinite a = true
  · exact faultHoldsAngle_of_lastAngle _ (exec_wrap hf s) rfl
  · obtain ⟨r, d, k, he⟩ := wrapOfNonFiniteAngleCompletes s a (Bool.eq_false_of_not_eq_true hf)
    exact faultHoldsAngle_of_lastAngle _ he rfl

/-- Four operations decode a sample; every other one but a mode command leaves `LAST_ANGLE`. -/
theorem exec_faultHoldsAngle {i : Instr} (h : modeRegs i = none) (s : State) : FaultHoldsAngle i s := by
  cases i with
  | initQuad _ | initAbs | initRes | initSincos _ _ _ _ _ | deinit => cases h
  | setCounts _ | isConfigured | rdDiag _ => exact faultHoldsAngle_of_lastAngle _ rfl rfl
  | readAngle => exact readAngle_faultHoldsAngle s
  | reserved0 | reservedA | reservedB | reservedC | reservedD | reservedE | reservedF =>
    exact faultHoldsAngle_of_lastAngle _ rfl rfl
  | tick => exact ⟨_, rfl, State.tick_holdsAngle cfg (s := s.accept) rfl⟩
  | index => exact faultHoldsAngle_of_lastAngle _ rfl (by simp)
  | sincosSample rs rc => exact ⟨_, exec_sincosSample rs rc s, s.accept.sincosSample_holdsAngle cfg rs rc⟩
  | absCmd => exact faultHoldsAngle_of_frame .absoluteSpi _ rfl (s.accept.xferWord_holdsAngle cfg (some [absCmdWord]) _)
  | absReply w => exact faultHoldsAngle_of_frame .absoluteSpi _ rfl (s.accept.receiveAbs_holdsAngle cfg w)
  | resCmd => exact faultHoldsAngle_of_frame .resolverSpi _ rfl (s.accept.xferWord_holdsAngle cfg none _)
  | resReply w => exact faultHoldsAngle_of_frame .resolverSpi _ rfl (s.accept.receiveRes_holdsAngle cfg w)
  | xfer out n => exact ⟨_, rfl, s.accept.xfer_holdsAngle cfg out n ((s.accept.xfer cfg out n).1.map zext16)⟩
  | maj5 _ _ _ _ _ | parity16 _ | lpf _ _ _ | atan2deg _ _ => exact faultHoldsAngle_of_lastAngle _ rfl rfl
  | wrap a => exact wrap_faultHoldsAngle a s

/-- Settles O43: a mode command shows no outcome, and every other operation holds the angle on a fault and never writes `MODE`. -/
theorem faultySampleHoldsLastAngle : Obligations.FaultySampleHoldsLastAngle := by
  intro i s t f ht hf
  cases hr : modeRegs i with
  | some r => simp [exec_modeRegs_outcome hr ht] at hf
  | none =>
    obtain ⟨u, he, hu⟩ := exec_faultHoldsAngle hr s
    obtain rfl := Host.Outcome.next.inj (he.symm.trans ht)
    obtain ⟨hm, -⟩ := exec_nextMode ht
    exact ⟨hu f hf, by simpa [nextMode, hr] using hm⟩

/-! ### The sources of one cycle (R260, R263) -/

/-- The strobes of different sources are different bits of the vector (R85). -/
theorem Source.getElem_strobe (src : Source) :
    src.strobe[0] = (src == .tick) ∧ src.strobe[1] = (src == .index) ∧ src.strobe[2] = (src == .sample) := by
  cases src <;> decide

/-- Serving a source takes away its own request only. -/
theorem PortCycle.asks_served (c : PortCycle) (src other : Source) :
    (c.served src).asks other = (c.asks other && src != other) := by
  obtain ⟨htick, hindex, hsample⟩ := src.getElem_strobe
  cases other with
  | tick => simp [PortCycle.served, PortCycle.asks, htick, bne]
  | index => simp [PortCycle.served, PortCycle.asks, hindex, bne]
  | sample => simp [PortCycle.served, PortCycle.asks, hsample, bne]
  | command => rfl

/-- The source taken first is one that asks. -/
theorem PortCycle.asks_of_first {c : PortCycle} {src : Source} (h : c.first = some src) : c.asks src = true :=
  List.find?_some h

/-- Some source is taken where one asks, since the order is completed by all four. -/
theorem PortCycle.exists_first_of_asks {c : PortCycle} {src : Source} (h : c.asks src = true) : ∃ src', c.first = some src' := by
  have hmem : src ∈ c.order ++ [Source.tick, .index, .sample, .command] := by cases src <;> simp
  exact Option.isSome_iff_exists.mp (List.find?_isSome.mpr ⟨src, hmem, h⟩)

theorem PortCycle.asks_of_strobes_eq_zero {c : PortCycle} (h : c.strobes = 0) {src : Source} (hs : c.asks src = true) :
    src = .command := by
  cases src with
  | tick | index | sample => simp [PortCycle.asks, h] at hs
  | command => rfl

theorem PortCycle.asksAny_of_asks {c : PortCycle} {src : Source} (h : c.asks src = true) : c.asksAny = true := by
  by_cases hz : c.strobes = 0
  · obtain rfl := PortCycle.asks_of_strobes_eq_zero hz h
    exact Bool.or_eq_true_iff.mpr (.inr h)
  · exact Bool.or_eq_true_iff.mpr (.inl (bne_iff_ne.mpr hz))

/-- Settles O51: serving a source takes away its own request, and a cycle in which a source still asks is kept. -/
theorem simultaneousArrivalsAreServedInTurn : Obligations.SimultaneousArrivalsAreServedInTurn := by
  intro c src other rest hf
  have hother (hne : other ≠ src) : (c.served src).asks other = c.asks other := by
    simp [PortCycle.asks_served, hne.symm]
  refine ⟨PortCycle.asks_of_first hf, by simp [PortCycle.asks_served], hother, fun hr hne ha => ?_⟩
  have hany : (c.served src).asksAny = true := PortCycle.asksAny_of_asks ((hother hne).trans ha)
  simp [PortCycle.remaining, hr, hany]

/-! ### What an idle block runs (R262, R263) -/

theorem step_of_fetch_operation {s s0 : State} {i : Instr} (h : s.fetch = .operation i s0 none) : step s = exec i s0 := by
  unfold step
  rw [h]

/-- Settles O50: what stands before the idle block is fetched as the operation that its decoder reads. -/
theorem stepRunsTheDecodedOperation : Obligations.StepRunsTheDecodedOperation := by
  constructor
  · intro s c rest src i hs hb hr hw hn hf hd
    have hcycle : s.fetchCycle c rest = .operation i (s.withArrivals (c.remaining src rest)) none := by
      simpa [State.fetchCycle, hr, hf, hd, hn] using hw
    exact step_of_fetch_operation ((State.fetch_of_ports hs (.inl hb)).trans hcycle)
  · intro s dir w rest i hs hd
    exact step_of_fetch_operation (by simp [State.fetch, hs, hd])

/-! ### Arrivals at a busy block (R264, U2; log 5) -/

theorem step_of_fetch_refused {s : State} {r : Refusal} (h : s.fetch = .refused r) : step s = .refused r := by
  unfold step
  rw [h]

/-- A busy block refuses a strobe and lets a command wait. -/
theorem State.fetch_of_busy {s : State} {c : PortCycle} {rest : List Arrival} (hs : s.env.arrivals = .ports c :: rest)
    (hb : s.hid.busy = true) (hr : c.rst = false) :
    s.fetch = if c.strobes ≠ 0 then .refused .eventWhileBusy else .quiet s.finish := by
  simp [State.fetch, hs, State.cmdReady, hb, hr]

/-- A strobe of a cycle that the input script puts inside an operation is refused (log 5). -/
theorem State.fetchCycle_of_whileBusy {c : PortCycle} (rest : List Arrival) (s : State) (hr : c.rst = false)
    (hw : c.whileBusy = true) (hc : c.strobes ≠ 0) : s.fetchCycle c rest = .refused .eventWhileBusy := by
  have hstrobe : (c.strobes != 0) = true := bne_iff_ne.mpr hc
  simp only [State.fetchCycle, hr, hw, hstrobe, Bool.and_true, Bool.false_eq_true, if_false, if_true]

/-- A command that arrives alone is taken first. -/
theorem PortCycle.first_of_commandAlone {c : PortCycle} (hc : c.strobes = 0) (hv : c.cmdValid = true) :
    c.first = some .command := by
  obtain ⟨src, hf⟩ := PortCycle.exists_first_of_asks (c := c) (src := .command) hv
  rw [hf, PortCycle.asks_of_strobes_eq_zero hc (PortCycle.asks_of_first hf)]

/-- After a command that arrived alone nothing of its cycle is left. -/
theorem PortCycle.remaining_of_commandAlone {c : PortCycle} (hc : c.strobes = 0) (rest : List Arrival) :
    c.remaining .command rest = rest := by
  simp [PortCycle.remaining, PortCycle.asksAny, PortCycle.served, hc]

/-- Settles O52: the strobe is refused by the busy block or by its cycle; a waiting command leaves the block idle with the same inputs,
and an idle block runs it. -/
theorem strobeWhileBusyIsRefusedCommandWaits : Obligations.StrobeWhileBusyIsRefusedCommandWaits := by
  refine ⟨fun s c rest hs hr hbw hc => ?_, fun s c rest hs hr hb hc => ?_, fun s c rest hs hr hb hc hv hn => ?_⟩
  · refine step_of_fetch_refused ?_
    cases hb : s.hid.busy with
    | true => exact (State.fetch_of_busy hs hb hr).trans (if_pos hc)
    | false =>
      have hw : c.whileBusy = true := by simpa [hb] using hbw
      exact (State.fetch_of_ports hs (.inl hb)).trans (s.fetchCycle_of_whileBusy rest hr hw hc)
  · have hfetch : s.fetch = .quiet s.finish := (State.fetch_of_busy hs hb hr).trans (if_neg (not_not.mpr hc))
    exact ⟨s.finish, step_of_fetch_quiet hfetch, rfl, rfl, rfl⟩
  · obtain ⟨hports, -⟩ := stepRunsTheDecodedOperation
    have hstep := hports s c rest .command (decodeCommand c.cmdPort) hs hb hr (fun _ => hc) hn
      (PortCycle.first_of_commandAlone hc hv) rfl
    rwa [PortCycle.remaining_of_commandAlone hc rest] at hstep

end Sys2Proof.Machine
end

section
/-! PROOF. The reset state (`70_reset_and_hazards.md` R280). -/

namespace Sys2Proof.Machine

/-- Settles O46: the values of R280 are those of `Regs.default`, `Hidden.idle` and `Ports.reset`; `DEINIT` enters its mode with the
first of these. -/
theorem resetStateIsAsSpecified : Obligations.ResetStateIsAsSpecified := by
  refine ⟨rfl, rfl, rfl, rfl, rfl, rfl, rfl, rfl, rfl, rfl, fun s => ?_⟩
  obtain ⟨u, he⟩ := exec_modeRegs (i := .deinit) rfl s
  exact ⟨(u.enterMode Regs.default).finish, he, rfl⟩

end Sys2Proof.Machine
end
